-- ==== Sys2Proof/Word.lean ====
section
/-! DEFINITION. The words of the core: the byte, the 16-bit word and the native pixel
(00_scope.md section 5, 20_memory.md R47). -/

namespace Sys2Proof

/-- A byte: 8 bits, values 0 .. 255 (00_scope.md section 5). -/
abbrev Byte := BitVec 8

/-- A 16-bit word: the mega-form count and a `Pix2` value (00_scope.md section 5). -/
abbrev Word16 := BitVec 16

/-- A native pixel as its byte lanes, in memory order (20_memory.md R47, R52).
A `Pix2` is lanes `b0` (bits 7..0) and `b1` (bits 15..8), a `Pix3` is `(b0, b1, b2)`, a `Pix4` all
four. The lanes a width does not have are zero wherever the spec names the pixel (log 5). -/
structure Pixel where
  b0 : Byte
  b1 : Byte
  b2 : Byte
  b3 : Byte
deriving DecidableEq, Repr

/-- `PB`, the bytes of a native pixel: 2, 3 or 4 (10_state.md R10). -/
inductive PixelBytes where
  | two
  | three
  | four
deriving DecidableEq, Repr

/-- The number `PB` itself. -/
def PixelBytes.toNat : PixelBytes → Nat
  | .two => 2
  | .three => 3
  | .four => 4

end Sys2Proof
end

