-- ==== Sys2Proof/Syntax.lean ====
section
/-! DEFINITION. The instructions of the two stream formats: one constructor for each row of
spec/opcode_table.json, holding what the header bytes of that row encode (30_encoding.md R61 .. R71,
R76). Operand pixels and body data are read from the stream by the meaning (30_encoding.md R72). -/

namespace Sys2Proof

/-- The count field of a regular or lite header (30_encoding.md R65, R66): a nonzero count in the
control byte (forms `R` and `L` of R77), or a zero field and an extension byte (forms `RX`, `LX`). -/
inductive CountField (width : Nat) where
  | inByte (c : BitVec width)
  | ext (e : Byte)
deriving DecidableEq, Repr

/-- The instructions. The comment of each constructor gives its control byte (30_encoding.md R71). -/
inductive Instr where
  -- regular form
  | fill (c : CountField 5)        -- `000ccccc`
  | mix (c : CountField 5)         -- `001ccccc`
  | fom (c : CountField 5)         -- `010ccccc`
  | colour (c : CountField 5)      -- `011ccccc`
  | copy (c : CountField 5)        -- `100ccccc`
  | reserved5 (c : CountField 5)   -- `101ccccc`, header opcode 5
  -- lite form
  | setmixMix (c : CountField 4)   -- `1100cccc`
  | setmixFom (c : CountField 4)   -- `1101cccc`
  | bicolour (c : CountField 4)    -- `1110cccc`
  -- mega form
  | fillM (n : Word16)             -- `F0 ll hh`
  | mixM (n : Word16)              -- `F1 ll hh`
  | fomM (n : Word16)              -- `F2 ll hh`
  | colourM (n : Word16)           -- `F3 ll hh`
  | copyM (n : Word16)             -- `F4 ll hh`
  | reserved5M (n : Word16)        -- `F5 ll hh`, header opcode 5
  | setmixMixM (n : Word16)        -- `F6 ll hh`
  | setmixFomM (n : Word16)        -- `F7 ll hh`
  | bicolourM (n : Word16)         -- `F8 ll hh`
  -- special form
  | fomS1                          -- `F9`
  | fomS2                          -- `FA`
  | reservedB                      -- `FB`, header opcode 0xB
  | reservedC                      -- `FC`, header opcode 0xC
  | white                          -- `FD`
  | black                          -- `FE`
  | reservedF                      -- `FF`, header opcode 0xF
  -- planar stream
  | marker                         -- `10`, byte 0 of a planar stream
  | long16 (c : BitVec 4)          -- `cccc0001`
  | long32 (c : BitVec 4)          -- `cccc0010`
  | raw (c r : BitVec 4)           -- `ccccrrrr`, `r` not 1 or 2
deriving DecidableEq, Repr

/-- Where in a stream a header is read: an order of a scanline stream (`PB` 2 or 3), the marker byte
of a planar stream, or a planar control byte (30_encoding.md, opening and R76). One byte value has a
meaning of its own in each of the three. -/
inductive Ctx where
  | scan
  | marker
  | control
deriving DecidableEq, Repr

/-- The place of a stream an instruction belongs to. -/
def Instr.ctx : Instr → Ctx
  | .fill _ | .mix _ | .fom _ | .colour _ | .copy _ | .reserved5 _ => .scan
  | .setmixMix _ | .setmixFom _ | .bicolour _ => .scan
  | .fillM _ | .mixM _ | .fomM _ | .colourM _ | .copyM _ | .reserved5M _ => .scan
  | .setmixMixM _ | .setmixFomM _ | .bicolourM _ => .scan
  | .fomS1 | .fomS2 | .reservedB | .reservedC | .white | .black | .reservedF => .scan
  | .marker => .marker
  | .long16 _ | .long32 _ | .raw _ _ => .control

end Sys2Proof
end

