-- ==== Sys2Proof/WellFormed.lean ====
section
/-! DEFINITION. Which instruction terms the encoding can express (30_encoding.md R66, R68, R76). -/

namespace Sys2Proof

/-- A count held in the control byte is not zero: a zero field means that an extension byte follows
(30_encoding.md R66). -/
def CountField.wf {width : Nat} : CountField width → Bool
  | .inByte c => c != 0
  | .ext _ => true

/-- The terms that some header bytes encode: a regular or lite count in the control byte is nonzero
(R66), and a `RAW` control byte's low nibble is neither 1 nor 2, which mean long runs (R76). -/
def Instr.wf : Instr → Bool
  | .fill c | .mix c | .fom c | .colour c | .copy c | .reserved5 c => c.wf
  | .setmixMix c | .setmixFom c | .bicolour c => c.wf
  | .fillM _ | .mixM _ | .fomM _ | .colourM _ | .copyM _ | .reserved5M _ => true
  | .setmixMixM _ | .setmixFomM _ | .bicolourM _ => true
  | .fomS1 | .fomS2 | .reservedB | .reservedC | .white | .black | .reservedF => true
  | .marker => true
  | .long16 _ | .long32 _ => true
  | .raw _ r => r != 1 && r != 2

end Sys2Proof
end

