-- ==== Sys2Proof/Decode.lean ====
section
/-! DEFINITION. The opcode reader and the planar control byte's split (30_encoding.md R61 .. R71, R75,
R76), as a total function on any bytes, and after it the encoder, written from the same tables. -/

namespace Sys2Proof

/-- Why a header is not decoded. `truncated`: the stream ends inside the header (20_memory.md R43).
`badMarker`: the first byte of a planar stream is not the marker (43_planar_engine.md R129). -/
inductive DecodeError where
  | truncated
  | badMarker (b : Byte)
deriving DecidableEq, Repr

/-- What reading a header answers: the instruction and the number of bytes its header takes, or why
there is none. -/
inductive DecodeResult where
  | instr (i : Instr) (len : Nat)
  | error (e : DecodeError)
deriving DecidableEq, Repr

/-- The planar marker byte (00_scope.md R3, 43_planar_engine.md R129). -/
def planarMarker : Byte := 0x10

/-- `v[7:4]` (00_scope.md section 5). -/
def highNibble (b : Byte) : BitVec 4 := b.extractLsb' 4 4

/-- `v[3:0]` (00_scope.md section 5). -/
def lowNibble (b : Byte) : BitVec 4 := b.extractLsb' 0 4

/-- Reads the count field of a regular or lite header: the field itself where it is not zero, else
the extension byte (30_encoding.md R66). -/
def decodeCounted {width : Nat} (field : BitVec width) (rest : List Byte)
    (mk : CountField width → Instr) : DecodeResult :=
  if field = 0 then
    match rest with
    | e :: _ => .instr (mk (.ext e)) 2
    | [] => .error .truncated
  else .instr (mk (.inByte field)) 1

/-- Reads the two count bytes of the mega form, the first being bits 7..0 (20_memory.md R45). -/
def decodeMega (rest : List Byte) (mk : Word16 → Instr) : DecodeResult :=
  match rest with
  | lo :: hi :: _ => .instr (mk (hi ++ lo)) 3
  | _ => .error .truncated

/-- The regular form: the opcode is `code >> 5`, 0 .. 5, and 5 is reserved
(30_encoding.md R65, R70, R71). -/
def decodeRegular (code : Byte) (rest : List Byte) : DecodeResult :=
  let op : BitVec 3 := code.extractLsb' 5 3
  let field : BitVec 5 := code.extractLsb' 0 5
  if op = 0 then decodeCounted field rest .fill
  else if op = 1 then decodeCounted field rest .mix
  else if op = 2 then decodeCounted field rest .fom
  else if op = 3 then decodeCounted field rest .colour
  else if op = 4 then decodeCounted field rest .copy
  else decodeCounted field rest .reserved5

/-- The lite form: the opcode is `code[7:4] - 6`, 6 .. 8 (30_encoding.md R62, R71). -/
def decodeLite (code : Byte) (rest : List Byte) : DecodeResult :=
  if highNibble code = 0xC then decodeCounted (lowNibble code) rest .setmixMix
  else if highNibble code = 0xD then decodeCounted (lowNibble code) rest .setmixFom
  else decodeCounted (lowNibble code) rest .bicolour

/-- The mega form: the opcode is the low nibble, 0 .. 8, and 5 is reserved
(30_encoding.md R63, R70, R71). -/
def decodeMegaForm (code : Byte) (rest : List Byte) : DecodeResult :=
  let op := lowNibble code
  if op = 0 then decodeMega rest .fillM
  else if op = 1 then decodeMega rest .mixM
  else if op = 2 then decodeMega rest .fomM
  else if op = 3 then decodeMega rest .colourM
  else if op = 4 then decodeMega rest .copyM
  else if op = 5 then decodeMega rest .reserved5M
  else if op = 6 then decodeMega rest .setmixMixM
  else if op = 7 then decodeMega rest .setmixFomM
  else decodeMega rest .bicolourM

/-- The special form: the opcode is the low nibble, 9 .. 15, and 0xB, 0xC and 0xF are reserved
(30_encoding.md R64, R70, R71). -/
def decodeSpecial (code : Byte) : DecodeResult :=
  let op := lowNibble code
  if op = 0x9 then .instr .fomS1 1
  else if op = 0xA then .instr .fomS2 1
  else if op = 0xB then .instr .reservedB 1
  else if op = 0xC then .instr .reservedC 1
  else if op = 0xD then .instr .white 1
  else if op = 0xE then .instr .black 1
  else .instr .reservedF 1

/-- The opcode reader: the header form is chosen by the control byte's top nibble
(30_encoding.md R61). -/
def decodeScan : List Byte → DecodeResult
  | [] => .error .truncated
  | code :: rest =>
    if highNibble code = 0xF then
      if lowNibble code < 9 then decodeMegaForm code rest else decodeSpecial code
    else if highNibble code = 0xC ∨ highNibble code = 0xD ∨ highNibble code = 0xE then
      decodeLite code rest
    else decodeRegular code rest

/-- The first byte of a planar stream must be the marker (43_planar_engine.md R129). -/
def decodeMarker : List Byte → DecodeResult
  | [] => .error .truncated
  | b :: _ => if b = planarMarker then .instr .marker 1 else .error (.badMarker b)

/-- A planar control byte: a low nibble of 1 or 2 is a long run, any other a `RAW` run
(30_encoding.md R76, 43_planar_engine.md R132). -/
def decodeControl : List Byte → DecodeResult
  | [] => .error .truncated
  | c :: _ =>
    if lowNibble c = 1 then .instr (.long16 (highNibble c)) 1
    else if lowNibble c = 2 then .instr (.long32 (highNibble c)) 1
    else .instr (.raw (highNibble c) (lowNibble c)) 1

/-- The decoder: the header at the front of the bytes, in its place of a stream. -/
def decode : Ctx → List Byte → DecodeResult
  | .scan, bs => decodeScan bs
  | .marker, bs => decodeMarker bs
  | .control, bs => decodeControl bs

/-! ## The encoder -/

/-- Header bytes of the regular form: `ooo ccccc`, and the extension byte after a zero field
(30_encoding.md section 1). -/
def encodeRegular (op : BitVec 3) : CountField 5 → List Byte
  | .inByte c => [op ++ c]
  | .ext e => [op ++ (0 : BitVec 5), e]

/-- Header bytes of the lite form: `oooo cccc`, and the extension byte after a zero field
(30_encoding.md section 1). -/
def encodeLite (top : BitVec 4) : CountField 4 → List Byte
  | .inByte c => [top ++ c]
  | .ext e => [top ++ (0 : BitVec 4), e]

/-- Header bytes of the mega form: `1111 oooo`, then the count, low byte first
(30_encoding.md section 1). -/
def encodeMega (op : BitVec 4) (n : Word16) : List Byte :=
  [(0xF : BitVec 4) ++ op, n.extractLsb' 0 8, n.extractLsb' 8 8]

/-- The header bytes of an instruction, in stream order. -/
def encode : Instr → List Byte
  | .fill c => encodeRegular 0 c
  | .mix c => encodeRegular 1 c
  | .fom c => encodeRegular 2 c
  | .colour c => encodeRegular 3 c
  | .copy c => encodeRegular 4 c
  | .reserved5 c => encodeRegular 5 c
  | .setmixMix c => encodeLite 0xC c
  | .setmixFom c => encodeLite 0xD c
  | .bicolour c => encodeLite 0xE c
  | .fillM n => encodeMega 0 n
  | .mixM n => encodeMega 1 n
  | .fomM n => encodeMega 2 n
  | .colourM n => encodeMega 3 n
  | .copyM n => encodeMega 4 n
  | .reserved5M n => encodeMega 5 n
  | .setmixMixM n => encodeMega 6 n
  | .setmixFomM n => encodeMega 7 n
  | .bicolourM n => encodeMega 8 n
  | .fomS1 => [0xF9]
  | .fomS2 => [0xFA]
  | .reservedB => [0xFB]
  | .reservedC => [0xFC]
  | .white => [0xFD]
  | .black => [0xFE]
  | .reservedF => [0xFF]
  | .marker => [planarMarker]
  | .long16 c => [c ++ (1 : BitVec 4)]
  | .long32 c => [c ++ (2 : BitVec 4)]
  | .raw c r => [c ++ r]

/-! ## The opcode table's words -/

/-- The longest header, in bytes (30_encoding.md section 1, mega form). -/
def maxHeader : Nat := 3

/-- The bytes of an opcode-table word, the first at the lowest address; every bit above `nbits` is 0. -/
def tableBytes (nbits w : Nat) : List Byte :=
  (List.range maxHeader).map fun k => BitVec.ofNat 8 ((w % 2 ^ nbits) >>> (8 * k))

/-- The place of a stream an opcode-table word is read in (log 13, DESIGN CHOICE): the table holds the
rows of three decoders in one list, so one word can match a row of each. The words that are the whole
`match` of the rows `MARKER`, `LONG16` and `LONG32` are read there, a word of no bits (the only row that
fixes none is `RAW`) as a planar control byte, every other word as the header of a scanline order. -/
def tableCtx (nbits w : Nat) : Ctx :=
  if nbits = 0 then .control
  else if w % 2 ^ nbits = 0x10 then .marker
  else if w % 2 ^ nbits = 0x01 ∨ w % 2 ^ nbits = 0x02 then .control
  else .scan

/-- The instruction the decoder reads from an opcode-table word. -/
def decodeTableWord (nbits w : Nat) : Option Instr :=
  match decode (tableCtx nbits w) (tableBytes nbits w) with
  | .instr i _ => some i
  | .error _ => none

end Sys2Proof
end

