-- ==== Sys2Proof/Config.lean ====
section
/-! DEFINITION. What the spec leaves open, as constants without a body: nothing can evaluate them and
no proof can rest on a value of theirs (93_implementation_defined.md section 1, treatment `any value`). -/

namespace Sys2Proof

/-- The free value of byte `a` of the native pixel buffer while nothing has written it in the call:
the buffer's contents at the start of a call are unspecified (10_state.md R39; 93 item I3; log 3).
DESIGN CHOICE, safe. -/
opaque Config.nativeFree : Nat → Byte

/-- The free value of byte `a` of the input stream where the host has placed none. A call started as
40_decode_call.md R78 says has all of its `IN_LEN` bytes, so no such byte is read in it (log 3).
DESIGN CHOICE, safe. -/
opaque Config.inputFree : Nat → Byte

end Sys2Proof
end

