-- ==== Sys2Proof/Machine/State.lean ====
section
/-! DEFINITION. The state of the core as plain data (10_state.md, 20_memory.md R41), its failure codes
(60_exceptions.md R156), the reasons the model stops, and the state at power-on (10_state.md R40). -/

namespace Sys2Proof.Machine

/-- `PHASE` (10_state.md R5). -/
inductive Phase where
  | idle
  | validate
  | scan
  | planar
  | normalize
  | done
  | failed
deriving DecidableEq, Repr

/-- An effective opcode, the source of `OP` and `LAST_OP` (10_state.md R21, 42_scanline_orders.md R104). -/
inductive EffOp where
  | fill
  | mix
  | fom
  | colour
  | copy
  | bicolour
  | white
  | black
deriving DecidableEq, Repr

/-- `TOGGLE` (10_state.md R24): which Bicolour colour the next Bicolour pixel takes. -/
inductive Toggle where
  | first
  | second
deriving DecidableEq, Repr

/-- The failures of a call (60_exceptions.md R156). -/
inductive Failure where
  | invalidDimensions
  | unsupportedDepth
  | streamUnderrun
  | lengthMismatch
  | unknownOpcode
  | bufferLengthMismatch
  | rasterOverflow
  | badMarker
deriving DecidableEq, Repr

/-- `STATUS` (10_state.md R34): no call has finished, the last one succeeded, or it failed. -/
inductive Status where
  | noCall
  | ok
  | error (e : Failure)
deriving DecidableEq, Repr

/-- A memory: the bytes something has written, as (address, byte) pairs. A byte that nothing has
written is not listed and holds no value of its own (log 3). -/
abbrev Memory := List Host.Cell

/-- The canonical form of a memory: the addresses strictly rise. An unlisted byte has no value, so no
entry can equal it. -/
abbrev Memory.wf (m : Memory) : Prop := m.Pairwise fun p q => p.1 < q.1

/-- One decode call as the host makes it (40_decode_call.md R78): the stream, whose length is `IN_LEN`
(10_state.md R6), and the descriptor. -/
structure Call where
  input : List Byte
  srcW : Int
  srcH : Int
  dstL : Int
  dstT : Int
  dstR : Int
  dstB : Int
  bpp : Int
deriving DecidableEq, Repr

/-- The state of the core. -/
structure State where
  /-- `PHASE` (R5). -/
  phase : Phase
  /-- `IN_LEN` (R6). -/
  inLen : Nat
  /-- `SRC_W` (R7). -/
  srcW : Int
  /-- `SRC_H` (R7). -/
  srcH : Int
  /-- `DST_L` (R8). -/
  dstL : Int
  /-- `DST_T` (R8). -/
  dstT : Int
  /-- `DST_R` (R8). -/
  dstR : Int
  /-- `DST_B` (R8). -/
  dstB : Int
  /-- `BPP` (R9). -/
  bpp : Int
  /-- `PB` (R10). -/
  pb : PixelBytes
  /-- `DST_W` (R11). -/
  dstW : Int
  /-- `DST_H` (R11). -/
  dstH : Int
  /-- `CUR`, the stream cursor, which plays the program counter (R14, R15). -/
  cur : Nat
  /-- `ORDER_START` (R16). -/
  orderStart : Nat
  /-- `X` (R17). -/
  x : Nat
  /-- `ROWS_LEFT` (R18). -/
  rowsLeft : Nat
  /-- `LINE` (R19). -/
  line : Option Nat
  /-- `PREV_LINE` (R20). -/
  prevLine : Option Nat
  /-- `LAST_OP` (R21). -/
  lastOp : Option EffOp
  /-- `MASK` (R22). -/
  mask : Byte
  /-- `MIXMASK` (R23). -/
  mixMask : Byte
  /-- `TOGGLE` (R24). -/
  toggle : Toggle
  /-- `OP` (R25). -/
  op : EffOp
  /-- `COUNT` (R25). -/
  count : Nat
  /-- `INSERT` (R25). -/
  insert : Bool
  /-- `FIXED` (R25). -/
  fixed : Option Byte
  /-- `MIX` (R26). -/
  mix : Pixel
  /-- `COLOUR1` (R27). -/
  colour1 : Pixel
  /-- `COLOUR2` (R28). -/
  colour2 : Pixel
  /-- `PLANE` (R29). -/
  plane : Nat
  /-- `KROW` (R30). -/
  krow : Nat
  /-- `COL` (R31). -/
  col : Nat
  /-- `RUN` (R32). -/
  run : Int
  /-- `COLLEN` (R33). -/
  collen : Nat
  /-- `REPLEN` (R33). -/
  replen : Nat
  /-- `STATUS` (R34). -/
  status : Status
  /-- `ERR_POS` (R35). -/
  errPos : Nat
  /-- `OUT_LEN` (R36). -/
  outLen : Nat
  /-- `IN`, the input stream, byte addresses (20_memory.md R41). -/
  input : Memory
  /-- `NATIVE`, the native pixel buffer; lane `k` of pixel `i` is byte `i * PB + k`
  (20_memory.md R41, R46, R47). -/
  pixels : Memory
  /-- `OUT`, the RGBA output buffer, byte addresses (20_memory.md R41, R50). -/
  out : Memory
  /-- The model's own field: the decode calls the host has still to make, first one first (log 1). -/
  calls : List Call
deriving DecidableEq, Repr

/-- Why the machine stops with a fault. Each is an access the spec says the core never makes; no state
that satisfies the model's invariant reaches one (log 12). -/
inductive Fault where
  /-- A read or write of the native pixel buffer at an index not in `[0, SRC_W * SRC_H)`, which
  20_memory.md R49 rules out. Raised by the buffer accesses of Machine/Ops.lean. Safe: the machine stops. -/
  | pixelIndexOutOfRange
  /-- A pixel is put while `LINE` is none, which 41_scanline_engine.md R96 rules out. Raised by
  `putPixel`. Safe: the machine stops. -/
  | noCurrentLine
  /-- `ReadPixel` with `PB = 4`, a width 20_memory.md R44 does not define; the planar engine has no pixel
  operand. Raised by `readPixel`. Safe: the machine stops. -/
  | noPixelOperandAtDepth32
deriving DecidableEq, Repr

/-- Why the model gives an instruction no meaning in a state. -/
inductive Refusal where
  /-- The instruction has no meaning yet. Raised by `exec` alone; no arm of it does so now. Safe. -/
  | notModelled (mnemonic : String)
  /-- A scanline order is run outside phase `SCAN` or at `PB = 4`. No order exists there
  (41_scanline_engine.md R91) and `step` never asks for it. Raised by the scanline meanings. Safe (log 11). -/
  | orderOutsideScan
  /-- A marker or a planar control byte is run outside phase `PLANAR` or at another `PB` than 4. None
  exists there (43_planar_engine.md R128) and `step` never asks for it. Raised by the planar meanings.
  Safe (log 11). -/
  | controlOutsidePlanar
deriving DecidableEq, Repr

/-- The state right after power-on (10_state.md R40): `PHASE = IDLE`, `STATUS = NONE`, `ERR_POS = 0`,
`OUT_LEN = 0`. The spec gives no other register a value here; the values below are the model's (log 2,
DESIGN CHOICE, unsafe), the call-start values of R39 where one is given. -/
def State.reset : State :=
  { phase := .idle
    inLen := 0
    srcW := 0
    srcH := 0
    dstL := 0
    dstT := 0
    dstR := 0
    dstB := 0
    bpp := 0
    pb := .two
    dstW := 0
    dstH := 0
    cur := 0
    orderStart := 0
    x := 0
    rowsLeft := 0
    line := none
    prevLine := none
    lastOp := none
    mask := 0
    mixMask := 0
    toggle := .second
    op := .fill
    count := 0
    insert := false
    fixed := none
    mix := ⟨0xFF, 0xFF, 0, 0⟩
    colour1 := ⟨0, 0, 0, 0⟩
    colour2 := ⟨0, 0, 0, 0⟩
    plane := 0
    krow := 0
    col := 0
    run := 0
    collen := 0
    replen := 0
    status := .noCall
    errPos := 0
    outLen := 0
    input := []
    pixels := []
    out := []
    calls := [] }

end Sys2Proof.Machine
end

