-- ==== Sys2Proof/Machine/Ops.lean ====
section
/-! DEFINITION. The named operations over memory and registers: memory reads and writes
(20_memory.md R42 .. R51), entering a failure (60_exceptions.md R156 .. R159), the stream reads, and the
line state machine with its pixel helpers (41_scanline_engine.md R92 .. R97). -/

namespace Sys2Proof.Machine

/-! ## Memory -/

/-- The byte at an address, none where nothing has written it. -/
def Memory.read : Memory → Nat → Option Byte
  | [], _ => none
  | (k, v) :: m, a => if k = a then some v else Memory.read m a

/-- Writes one byte, keeping the canonical form. -/
def Memory.write : Memory → Nat → Byte → Memory
  | [], a, b => [(a, b)]
  | (k, v) :: m, a, b =>
    if a < k then (a, b) :: (k, v) :: m
    else if a = k then (a, b) :: m
    else (k, v) :: Memory.write m a b

/-- Writes bytes at rising addresses from `a`. -/
def Memory.writeList : Memory → Nat → List Byte → Memory
  | m, _, [] => m
  | m, a, b :: bs => Memory.writeList (m.write a b) (a + 1) bs

/-- `SRC_W` as a number of columns. -/
abbrev State.width (s : State) : Nat := s.srcW.toNat

/-- `SRC_H` as a number of rows. -/
abbrev State.height (s : State) : Nat := s.srcH.toNat

/-- The byte of `IN` at an address (20_memory.md R41, R42); a free value where the host placed none
(log 3). -/
def State.inByte (s : State) (a : Nat) : Byte := (s.input.read a).getD (Config.inputFree a)

/-- The byte of `NATIVE` at a byte address; a free value where nothing has written it (log 3). -/
def State.pixelByte (s : State) (a : Nat) : Byte := (s.pixels.read a).getD (Config.nativeFree a)

/-- The bytes of a pixel of `pb` bytes, lane 0 first (20_memory.md R47, R52). -/
def Pixel.bytes : PixelBytes → Pixel → List Byte
  | .two, p => [p.b0, p.b1]
  | .three, p => [p.b0, p.b1, p.b2]
  | .four, p => [p.b0, p.b1, p.b2, p.b3]

/-- A pixel cut to `pb` bytes: the lanes the width does not have are zero. -/
def Pixel.fit : PixelBytes → Pixel → Pixel
  | .two, p => ⟨p.b0, p.b1, 0, 0⟩
  | .three, p => ⟨p.b0, p.b1, p.b2, 0⟩
  | .four, p => p

/-- The pixel at index `i` of the native buffer, of `PB` byte lanes (20_memory.md R46 .. R48). -/
def State.pixelAt (s : State) (i : Nat) : Pixel :=
  Pixel.fit s.pb
    ⟨s.pixelByte (i * s.pb.toNat), s.pixelByte (i * s.pb.toNat + 1),
     s.pixelByte (i * s.pb.toNat + 2), s.pixelByte (i * s.pb.toNat + 3)⟩

/-- The number of native pixels, `SRC_W * SRC_H` (20_memory.md R46). -/
abbrev State.area (s : State) : Nat := s.width * s.height

/-- The state after native pixel `i` has become `v` (20_memory.md R48). -/
def State.storePixel (s : State) (i : Nat) (v : Pixel) : State :=
  { s with pixels := s.pixels.writeList (i * s.pb.toNat) (Pixel.bytes s.pb v) }

/-- The state after byte lane `k` of native pixel `i` has become `b`, the other lanes unchanged
(20_memory.md R48). -/
def State.storeLane (s : State) (i k : Nat) (b : Byte) : State :=
  { s with pixels := s.pixels.write (i * s.pb.toNat + k) b }

/-! ## What running a piece of an engine answers -/

/-- A piece of an engine either answers a value and goes on, or has ended the call in a failure
(60_exceptions.md R158: nothing after it runs), or has made an access the spec rules out. -/
inductive Eff (α : Type) where
  | ok (a : α) (s : State)
  | failed (s : State)
  | fault (f : Fault)

/-- Runs the next piece where the first one goes on. -/
def Eff.andThen {α β : Type} (e : Eff α) (k : α → State → Eff β) : Eff β :=
  match e with
  | .ok a s => k a s
  | .failed s => .failed s
  | .fault f => .fault f

/-- The outcome of a step that ran such a piece: an entered failure is a next state too. -/
def Eff.outcome {α : Type} (e : Eff α) : Host.Outcome State Fault Refusal :=
  match e with
  | .ok _ s => .next s
  | .failed s => .next s
  | .fault f => .fault f

/-! ## Failures -/

/-- The number `STATUS` takes for a failure (60_exceptions.md R156). -/
def Failure.code : Failure → Nat
  | .invalidDimensions => 1
  | .unsupportedDepth => 2
  | .streamUnderrun => 3
  | .lengthMismatch => 4
  | .unknownOpcode => 5
  | .bufferLengthMismatch => 6
  | .rasterOverflow => 7
  | .badMarker => 8

/-- The number in `STATUS`, none before the first call has finished (60_exceptions.md R156,
10_state.md R34). -/
def Status.code : Status → Option Nat
  | .noCall => none
  | .ok => some 0
  | .error e => some e.code

/-- `FailEntry(e, pos)` (60_exceptions.md R159): the one way a failure is taken. Nothing else is saved or
changed. What `NATIVE` and `OUT` hold afterwards the spec leaves unspecified; here they stay as they stand,
the failed call's writes among them (log 21, DESIGN CHOICE, unsafe). -/
def State.failEntry (s : State) (e : Failure) (pos : Nat) : State :=
  { s with status := .error e, errPos := pos, outLen := 0, phase := .failed }

/-- `raise e(pos)`: ends the call at once (60_exceptions.md R158). -/
def raise {α : Type} (e : Failure) (pos : Nat) (s : State) : Eff α :=
  .failed (s.failEntry e pos)

/-! ## Stream reads -/

/-- The state with the cursor moved past `n` bytes (10_state.md R15). -/
def State.advance (s : State) (n : Nat) : State := { s with cur := s.cur + n }

/-- `ReadByte()` (20_memory.md R43). -/
def readByte (s : State) : Eff Byte :=
  if s.inLen ≤ s.cur then raise .streamUnderrun s.orderStart s
  else .ok (s.inByte s.cur) (s.advance 1)

/-- `ReadPixel()` (20_memory.md R44): two bytes, low byte first, or three bytes in stream order. -/
def readPixel (s : State) : Eff Pixel :=
  match s.pb with
  | .two =>
    (readByte s).andThen fun lo s =>
    (readByte s).andThen fun hi s => .ok ⟨lo, hi, 0, 0⟩ s
  | .three =>
    (readByte s).andThen fun b0 s =>
    (readByte s).andThen fun b1 s =>
    (readByte s).andThen fun b2 s => .ok ⟨b0, b1, b2, 0⟩ s
  | .four => .fault .noPixelOperandAtDepth32

/-! ## The native buffer -/

/-- `MemRead(NATIVE, i)` (20_memory.md R48, R49). -/
def memRead (i : Nat) (s : State) : Eff Pixel :=
  if i < s.area then .ok (s.pixelAt i) s else .fault .pixelIndexOutOfRange

/-- `MemWrite(NATIVE, i, v)` (20_memory.md R48, R49). -/
def memWrite (i : Nat) (v : Pixel) (s : State) : Eff Unit :=
  if i < s.area then .ok () (s.storePixel i v) else .fault .pixelIndexOutOfRange

/-- `MemRead(NATIVE, i).lane[k]` (20_memory.md R48, R49). -/
def memReadLane (i k : Nat) (s : State) : Eff Byte :=
  if i < s.area then .ok (s.pixelByte (i * s.pb.toNat + k)) s else .fault .pixelIndexOutOfRange

/-- `MemWrite(NATIVE, i, lane k, b)` (20_memory.md R48, R49). -/
def memWriteLane (i k : Nat) (b : Byte) (s : State) : Eff Unit :=
  if i < s.area then .ok () (s.storeLane i k b) else .fault .pixelIndexOutOfRange

/-! ## The line state machine -/

/-- The line transition of `Slot()` (41_scanline_engine.md R92). -/
def State.openLine (s : State) : State :=
  { s with
    rowsLeft := s.rowsLeft - 1
    x := 0
    prevLine := s.line
    line := some (s.rowsLeft - 1) }

/-- `Slot()` (41_scanline_engine.md R92). -/
def slot (s : State) : Eff Unit :=
  if s.width ≤ s.x then
    if s.rowsLeft = 0 then raise .rasterOverflow s.orderStart s
    else .ok () s.openLine
  else .ok () s

/-- The state with the column advanced by one. -/
def State.nextColumn (s : State) : State := { s with x := s.x + 1 }

/-- `Put(v)` (41_scanline_engine.md R96). -/
def putPixel (v : Pixel) (s : State) : Eff Unit :=
  match s.line with
  | none => .fault .noCurrentLine
  | some l => (memWrite (l * s.width + s.x) v s).andThen fun _ s => .ok () s.nextColumn

/-- `Above()` (41_scanline_engine.md R97). -/
def above (s : State) : Eff (Option Pixel) :=
  match s.prevLine with
  | none => .ok none s
  | some l => (memRead (l * s.width + s.x) s).andThen fun p s => .ok (some p) s

end Sys2Proof.Machine
end

