-- ==== Sys2Proof/Machine/Operands.lean ====
section
/-! DEFINITION. The operand forms: counts (30_encoding.md R62 .. R68), effective opcodes
(42_scanline_orders.md R104), pixel constants and XOR (41_scanline_engine.md R98 .. R100), the planar
control byte and delta (43_planar_engine.md R132, R137), and the length of an order (30_encoding.md R73). -/

namespace Sys2Proof.Machine

/-! ## Pixel values -/

/-- `ZERO`, the pixel with every bit 0 (00_scope.md section 5). -/
def Pixel.zero : Pixel := ⟨0, 0, 0, 0⟩

/-- `ONES`, the pixel with every bit 1: 0xFFFF for `Pix2`, (FF, FF, FF) for `Pix3`
(00_scope.md section 5). -/
def Pixel.ones (pb : PixelBytes) : Pixel := Pixel.fit pb ⟨0xFF, 0xFF, 0xFF, 0xFF⟩

/-- The XOR of two pixels, bit by bit, no carry between bytes (41_scanline_engine.md R100). -/
def Pixel.xor (p q : Pixel) : Pixel :=
  ⟨p.b0 ^^^ q.b0, p.b1 ^^^ q.b1, p.b2 ^^^ q.b2, p.b3 ^^^ q.b3⟩

/-- A `Pix2` as its 16-bit word, `b1` the high byte (20_memory.md R52). -/
def Pixel.word (p : Pixel) : Word16 := p.b1 ++ p.b0

/-- `FillPix()` (41_scanline_engine.md R99). -/
def fillPix (s : State) : Eff Pixel :=
  (above s).andThen fun a s => .ok (a.getD Pixel.zero) s

/-- `MixPix()` (41_scanline_engine.md R98). -/
def mixPix (s : State) : Eff Pixel :=
  (above s).andThen fun a s =>
    match a with
    | none => .ok s.mix s
    | some p => .ok (Pixel.xor p s.mix) s

/-! ## Counts -/

/-- The count of a regular or lite header (30_encoding.md R66): `offset` is 32 in the regular form and 16
in the lite form, and header opcodes 2 and 7 count in groups of 8. -/
def countOf {width : Nat} (offset : Nat) (isFillOrMix : Bool) : CountField width → Nat
  | .inByte c => if isFillOrMix then c.toNat <<< 3 else c.toNat
  | .ext e => e.toNat + (if isFillOrMix then 1 else offset)

/-- The offset of the regular form (30_encoding.md R65). -/
def regularOffset : Nat := 32

/-- The offset of the lite form (30_encoding.md R62). -/
def liteOffset : Nat := 16

/-- The header opcode of a scanline order (30_encoding.md R61 .. R65, R71); none for planar bytes. -/
def headerOpcode : Instr → Option Nat
  | .fill _ | .fillM _ => some 0
  | .mix _ | .mixM _ => some 1
  | .fom _ | .fomM _ => some 2
  | .colour _ | .colourM _ => some 3
  | .copy _ | .copyM _ => some 4
  | .reserved5 _ | .reserved5M _ => some 5
  | .setmixMix _ | .setmixMixM _ => some 6
  | .setmixFom _ | .setmixFomM _ => some 7
  | .bicolour _ | .bicolourM _ => some 8
  | .fomS1 => some 0x9
  | .fomS2 => some 0xA
  | .reservedB => some 0xB
  | .reservedC => some 0xC
  | .white => some 0xD
  | .black => some 0xE
  | .reservedF => some 0xF
  | .marker | .long16 _ | .long32 _ | .raw _ _ => none

/-- The count of a scanline order (30_encoding.md R62 .. R66, R68); 0 for planar bytes, which have none. -/
def headerCount : Instr → Nat
  | .fill c | .mix c | .colour c | .copy c | .reserved5 c => countOf regularOffset false c
  | .fom c => countOf regularOffset true c
  | .setmixMix c | .bicolour c => countOf liteOffset false c
  | .setmixFom c => countOf liteOffset true c
  | .fillM n | .mixM n | .fomM n | .colourM n | .copyM n | .reserved5M n => n.toNat
  | .setmixMixM n | .setmixFomM n | .bicolourM n => n.toNat
  | .fomS1 | .fomS2 => 8
  | .reservedB | .reservedC | .white | .black | .reservedF => 1
  | .marker | .long16 _ | .long32 _ | .raw _ _ => 0

/-! ## Effective opcodes -/

/-- The number of an effective opcode (42_scanline_orders.md R104). -/
def EffOp.code : EffOp → Nat
  | .fill => 0
  | .mix => 1
  | .fom => 2
  | .colour => 3
  | .copy => 4
  | .bicolour => 8
  | .white => 13
  | .black => 14

/-- The effective opcode of a header opcode (42_scanline_orders.md R104); none for the reserved header
opcodes 5, 0xB, 0xC and 0xF (30_encoding.md R70). -/
def effOp : Nat → Option EffOp
  | 0 => some .fill
  | 1 => some .mix
  | 2 => some .fom
  | 3 => some .colour
  | 4 => some .copy
  | 6 => some .mix
  | 7 => some .fom
  | 8 => some .bicolour
  | 9 => some .fom
  | 0xA => some .fom
  | 0xD => some .white
  | 0xE => some .black
  | _ => none

/-! ## The planar control byte -/

/-- `PlanarCtrl(c)`: `COLLEN` and `REPLEN` (43_planar_engine.md R132). -/
def planarCtrl (c : Byte) : Nat × Nat :=
  let replen := c.toNat % 16
  let collen := c.toNat / 16
  let rev := replen * 16 + collen
  if 16 ≤ rev ∧ rev ≤ 47 then (0, rev) else (collen, replen)

/-- The control byte of an instruction, the first byte of its header. -/
def controlByte (i : Instr) : Byte := (encode i).headD 0

/-- `DeltaValue(b)` (43_planar_engine.md R137). -/
def deltaValue (b : Byte) : Int :=
  if b.toNat % 2 = 1 then -((b.toNat / 2 : Nat) + 1 : Int) else (b.toNat / 2 : Nat)

/-- `(a + d) mod 256` (43_planar_engine.md R138). -/
def addDelta (a : Byte) (d : Int) : Byte := BitVec.ofInt 8 (a.toNat + d)

/-- `PLANE_OFF`: the byte lane of each plane, in stream order (10_state.md R29, 43_planar_engine.md R130). -/
def planeOff (plane : Nat) : Nat := [3, 2, 1, 0].getD plane 0

/-! ## Lengths -/

/-- `p`, the operand pixels an order reads before its body (30_encoding.md R72). -/
def operandPixels (i : Instr) : Nat :=
  match headerOpcode i with
  | some 3 | some 6 | some 7 => 1
  | some 8 => 2
  | _ => 0

/-- The body bytes a scanline order reads for its first `n` pixels: a literal for each pixel of a Copy, a
mask byte before pixels 0, 8, 16, … of a Fill-or-Mix (42_scanline_orders.md R106, R111). -/
def bodyBytesFor (pb : PixelBytes) (i : Instr) (n : Nat) : Nat :=
  match headerOpcode i with
  | some 4 => n * pb.toNat
  | some 2 | some 7 => (n + 7) / 8
  | _ => 0

/-- `b`, the body bytes of a scanline order (30_encoding.md R73), or the data bytes of a planar control
byte (30_encoding.md R76). -/
def bodyBytes (pb : PixelBytes) (i : Instr) : Nat :=
  match i.ctx with
  | .scan => bodyBytesFor pb i (headerCount i)
  | .marker => 0
  | .control => (planarCtrl (controlByte i)).1

/-- The bytes an order reads after its header: operand pixels, then body data (30_encoding.md R73). -/
def dataBytes (pb : PixelBytes) (i : Instr) : Nat := operandPixels i * pb.toNat + bodyBytes pb i

/-- The bytes a scanline order reads after its header for its first `n` pixels: the operand pixels before
any slot is opened, then each pixel's data after its slot (60_exceptions.md R161). -/
def dataBytesFor (pb : PixelBytes) (i : Instr) (n : Nat) : Nat :=
  operandPixels i * pb.toNat + bodyBytesFor pb i n

/-- The pixels an order writes: its count, but `2N - 1` for a Bicolour order of count `N >= 1`
(42_scanline_orders.md R115) and none for a reserved order; for a planar control byte, `COLLEN + REPLEN`
lanes. -/
def pixelsOf (i : Instr) : Nat :=
  match i.ctx with
  | .scan =>
    match headerOpcode i with
    | some 8 => 2 * headerCount i - 1
    | some n => if (effOp n).isSome then headerCount i else 0
    | none => 0
  | .marker => 0
  | .control => (planarCtrl (controlByte i)).1 + (planarCtrl (controlByte i)).2

end Sys2Proof.Machine
end

