-- ==== Sys2Proof/Machine/Flags.lean ====
section
/-! DEFINITION. The one-bit state of the core and the mask cursor. There are no status flags and no
condition codes (10_state.md R37): the only one-bit registers are `TOGGLE` and `INSERT`, and the mask
cursor `MIXMASK` selects one bit of `MASK` (10_state.md R23). -/

namespace Sys2Proof.Machine

/-- The value `INSERT` takes at the start of a Fill order: the previous order was a Fill and a line is
open (42_scanline_orders.md R105). -/
def insertFlag (s : State) : Bool := s.lastOp == some .fill && s.line.isSome

/-- `TOGGLE` after a Bicolour pixel (42_scanline_orders.md R115). -/
def nextToggle : Toggle → Toggle
  | .first => .second
  | .second => .first

/-- `(MIXMASK << 1) mod 256` (42_scanline_orders.md R106). -/
def shiftCursor (m : Byte) : Byte := m <<< 1

/-- Whether the mask bit the cursor selects is set (42_scanline_orders.md R106). -/
def maskBit (mask cursor : Byte) : Bool := mask &&& cursor != 0

/-- The head of `FomPixel()`: shifts the cursor and, where it underflows, reloads the mask from `FIXED`
or from the stream (42_scanline_orders.md R106). -/
def nextMaskBit (s : State) : Eff Unit :=
  if shiftCursor s.mixMask = 0 then
    match s.fixed with
    | some m => .ok () { s with mixMask := 0x01, mask := m }
    | none =>
      (readByte { s with mixMask := 0 }).andThen fun b s =>
        .ok () { s with mixMask := 0x01, mask := b }
  else .ok () { s with mixMask := shiftCursor s.mixMask }

end Sys2Proof.Machine
end

