-- ==== Sys2Proof/Machine/Scanline.lean ====
section
/-! DEFINITION. The scanline engine's shared operations: the start of an order
(42_scanline_orders.md R105), the order bodies (R106 .. R111, R115, R126, R127), and the end of the
stream (41_scanline_engine.md R101). The orders themselves are in Regular.lean, Lite.lean, Mega.lean,
Special.lean and Reserved.lean. -/

namespace Sys2Proof.Machine

/-! ## The start of an order -/

/-- `COUNT <- count` (41_scanline_engine.md R91) and the first three lines of `OrderStart`
(42_scanline_orders.md R105). -/
def State.beginOrder (s : State) (count : Nat) : State :=
  { s with count := count, mixMask := 0, fixed := none, insert := false }

/-- The last two lines of `OrderStart` (42_scanline_orders.md R105): `OP` and `LAST_OP`. -/
def State.latchOp (s : State) (op : EffOp) : State :=
  { s with op := op, lastOp := some op }

/-- Header opcodes 1, 2, 4, 0xD and 0xE do nothing of their own (42_scanline_orders.md R105). -/
def startPlain (s : State) : Eff Unit := .ok () s

/-- Header opcode 0 decides the implicit mix pixel (42_scanline_orders.md R105). -/
def startFill (s : State) : Eff Unit := .ok () { s with insert := insertFlag s }

/-- Header opcode 3 reads `COLOUR2` (42_scanline_orders.md R105). -/
def startColour (s : State) : Eff Unit :=
  (readPixel s).andThen fun p s => .ok () { s with colour2 := p }

/-- Header opcodes 6 and 7 read `MIX` (42_scanline_orders.md R105). -/
def startSetMix (s : State) : Eff Unit :=
  (readPixel s).andThen fun p s => .ok () { s with mix := p }

/-- Header opcode 8 reads `COLOUR1`, then `COLOUR2`, and restarts the toggle
(42_scanline_orders.md R105). -/
def startBicolour (s : State) : Eff Unit :=
  (readPixel s).andThen fun p s =>
  (readPixel { s with colour1 := p }).andThen fun q s =>
    .ok () { s with colour2 := q, toggle := .second }

/-- Header opcodes 9 and 0xA fix the mask (42_scanline_orders.md R105). -/
def startFixed (mask : Byte) (s : State) : Eff Unit := .ok () { s with fixed := some mask }

/-! ## The bodies -/

/-- The state with `COUNT` less one. -/
def State.countDown (s : State) : State := { s with count := s.count - 1 }

/-- One turn of an order body whose pixel comes from `source`: the slot is opened first, then the pixel
is made, then it is put and counted (42_scanline_orders.md R107 .. R111, R126, R127). -/
def emit (source : State → Eff Pixel) (s : State) : Eff Unit :=
  (slot s).andThen fun _ s =>
  (source s).andThen fun v s =>
  (putPixel v s).andThen fun _ s => .ok () s.countDown

/-- The pixel of `FillBody()` (42_scanline_orders.md R107): one implicit mix pixel where `INSERT` is
pending, fill pixels otherwise. -/
def fillSource (s : State) : Eff Pixel :=
  if s.insert then (mixPix s).andThen fun v s => .ok v { s with insert := false }
  else fillPix s

/-- `FomPixel()` (42_scanline_orders.md R106). -/
def fomPixel (s : State) : Eff Pixel :=
  (nextMaskBit s).andThen fun _ s =>
    if maskBit s.mask s.mixMask then mixPix s else fillPix s

/-- The pixel of `ColourBody()` (42_scanline_orders.md R110). -/
def colourSource (s : State) : Eff Pixel := .ok s.colour2 s

/-- The pixel of `WhiteBody()` (42_scanline_orders.md R126). -/
def whiteSource (s : State) : Eff Pixel := .ok (Pixel.ones s.pb) s

/-- The pixel of `BlackBody()` (42_scanline_orders.md R127). -/
def blackSource (s : State) : Eff Pixel := .ok Pixel.zero s

/-- One turn of `BicolourBody()` (42_scanline_orders.md R115): the count goes down on the second colour
only. -/
def bicolourTurn (s : State) : Eff Unit :=
  (slot s).andThen fun _ s =>
    match s.toggle with
    | .second =>
      (putPixel s.colour2 s).andThen fun _ s =>
        .ok () { s.countDown with toggle := nextToggle .second }
    | .first =>
      (putPixel s.colour1 s).andThen fun _ s => .ok () { s with toggle := nextToggle .first }

/-- One turn of the body of an effective opcode (42_scanline_orders.md R104). -/
def bodyTurn : EffOp → State → Eff Unit
  | .fill => emit fillSource
  | .mix => emit mixPix
  | .fom => emit fomPixel
  | .colour => emit colourSource
  | .copy => emit readPixel
  | .bicolour => bicolourTurn
  | .white => emit whiteSource
  | .black => emit blackSource

/-- `while COUNT > 0`, for at most `fuel` turns. -/
def bodyLoop (turn : State → Eff Unit) : Nat → State → Eff Unit
  | 0, s => .ok () s
  | fuel + 1, s =>
    if s.count = 0 then .ok () s
    else (turn s).andThen fun _ s => bodyLoop turn fuel s

/-- `OrderBody()`: the loop of the effective opcode. Twice the count is never too few turns: every turn
but a Bicolour first colour counts down, and no two of those follow each other (log 19). -/
def orderBody (s : State) : Eff Unit := bodyLoop (bodyTurn s.op) (2 * s.count) s

/-! ## A whole order -/

/-- Runs a piece of the scanline engine where there is one: in phase `SCAN` at `PB` 2 or 3
(10_state.md R12, 41_scanline_engine.md R91; log 11). -/
def inScan (run : State → Eff Unit) (s : State) : Host.Outcome State Fault Refusal :=
  if s.phase = .scan ∧ s.pb ≠ .four then (run s).outcome else .refused .orderOutsideScan

/-- A valid order after its header: `COUNT`, `OrderStart`, `OrderBody` (41_scanline_engine.md R91,
42_scanline_orders.md R105). -/
def runOrder (count : Nat) (start : State → Eff Unit) (op : EffOp) (s : State) : Eff Unit :=
  (start (s.beginOrder count)).andThen fun _ s => orderBody (s.latchOp op)

/-- An order with a reserved header opcode, after its header (41_scanline_engine.md R91,
42_scanline_orders.md R112). -/
def unknownOrder (s : State) : Eff Unit := raise .unknownOpcode s.orderStart s

/-- `ScanComplete()` and, where it succeeds, the move to phase `NORMALIZE`
(41_scanline_engine.md R101, 40_decode_call.md R84). -/
def scanComplete (s : State) : State :=
  if s.rowsLeft = 0 ∧ s.width ≤ s.x then { s with phase := .normalize }
  else s.failEntry .streamUnderrun s.inLen

end Sys2Proof.Machine
end

