-- ==== Sys2Proof/Machine/Lite.lean ====
section
/-! DEFINITION. The lite-form orders (42_scanline_orders.md section 3). -/

namespace Sys2Proof.Machine

/-- `SETMIX_MIX` (42_scanline_orders.md R113). -/
def execSetmixMix (c : CountField 4) (s : State) : Host.Outcome State Fault Refusal :=
  inScan (runOrder (countOf liteOffset false c) startSetMix .mix) s

/-- `SETMIX_FOM` (42_scanline_orders.md R114). -/
def execSetmixFom (c : CountField 4) (s : State) : Host.Outcome State Fault Refusal :=
  inScan (runOrder (countOf liteOffset true c) startSetMix .fom) s

/-- `BICOLOUR` (42_scanline_orders.md R115). -/
def execBicolour (c : CountField 4) (s : State) : Host.Outcome State Fault Refusal :=
  inScan (runOrder (countOf liteOffset false c) startBicolour .bicolour) s

end Sys2Proof.Machine
end

