-- ==== Sys2Proof/Machine/Mega.lean ====
section
/-! DEFINITION. The mega-form orders: the count is used as read (42_scanline_orders.md section 4). -/

namespace Sys2Proof.Machine

/-- `FILL.M` (42_scanline_orders.md R116). -/
def execFillM (n : Word16) (s : State) : Host.Outcome State Fault Refusal :=
  inScan (runOrder n.toNat startFill .fill) s

/-- `MIX.M` (42_scanline_orders.md R117). -/
def execMixM (n : Word16) (s : State) : Host.Outcome State Fault Refusal :=
  inScan (runOrder n.toNat startPlain .mix) s

/-- `FOM.M` (42_scanline_orders.md R118). -/
def execFomM (n : Word16) (s : State) : Host.Outcome State Fault Refusal :=
  inScan (runOrder n.toNat startPlain .fom) s

/-- `COLOUR.M` (42_scanline_orders.md R119). -/
def execColourM (n : Word16) (s : State) : Host.Outcome State Fault Refusal :=
  inScan (runOrder n.toNat startColour .colour) s

/-- `COPY.M` (42_scanline_orders.md R120). -/
def execCopyM (n : Word16) (s : State) : Host.Outcome State Fault Refusal :=
  inScan (runOrder n.toNat startPlain .copy) s

/-- `SETMIX_MIX.M` (42_scanline_orders.md R121). -/
def execSetmixMixM (n : Word16) (s : State) : Host.Outcome State Fault Refusal :=
  inScan (runOrder n.toNat startSetMix .mix) s

/-- `SETMIX_FOM.M` (42_scanline_orders.md R122). -/
def execSetmixFomM (n : Word16) (s : State) : Host.Outcome State Fault Refusal :=
  inScan (runOrder n.toNat startSetMix .fom) s

/-- `BICOLOUR.M` (42_scanline_orders.md R123). -/
def execBicolourM (n : Word16) (s : State) : Host.Outcome State Fault Refusal :=
  inScan (runOrder n.toNat startBicolour .bicolour) s

end Sys2Proof.Machine
end

