-- ==== Sys2Proof/Machine/Planar.lean ====
section
/-! DEFINITION. The planar engine (43_planar_engine.md): the marker, the control bytes, the row and
plane loops, and the end of the stream. -/

namespace Sys2Proof.Machine

/-- The native row being decoded (10_state.md R30, 43_planar_engine.md R131). -/
def State.planarRow (s : State) : Nat := s.height - 1 - s.krow

/-- The native index of the pixel at column `COL` of the row being decoded. -/
def State.planarIndex (s : State) : Nat := s.planarRow * s.width + s.col

/-- The native index of the pixel above it: same column, predecessor row `row + 1`
(43_planar_engine.md R131, R136). -/
def State.planarUpIndex (s : State) : Nat := (s.planarRow + 1) * s.width + s.col

/-- The byte lane of the plane being decoded (43_planar_engine.md R130). -/
def State.planarLane (s : State) : Nat := planeOff s.plane

/-- The state with `COL` advanced by one. -/
def State.nextPlanarColumn (s : State) : State := { s with col := s.col + 1 }

/-- The state with a new running value. -/
def State.setRun (s : State) (r : Int) : State := { s with run := r }

/-- Writes the current lane of the current pixel and moves to the next column. -/
def putLane (b : Byte) (s : State) : Eff Unit :=
  (memWriteLane s.planarIndex s.planarLane b s).andThen fun _ s => .ok () s.nextPlanarColumn

/-- One literal of `LiteralRun` (43_planar_engine.md R135). -/
def literalTurn (s : State) : Eff Unit :=
  (readByte s).andThen fun b s => putLane b (s.setRun b.toNat)

/-- One repeat of `LiteralRun` (43_planar_engine.md R135): the running value is a byte there. -/
def literalRepeat (s : State) : Eff Unit := putLane (BitVec.ofInt 8 s.run) s

/-- Writes the pixel above plus the running delta (43_planar_engine.md R136, R138). -/
def putDelta (s : State) : Eff Unit :=
  (memReadLane s.planarUpIndex s.planarLane s).andThen fun a s => putLane (addDelta a s.run) s

/-- One delta of `DeltaRun` (43_planar_engine.md R136). -/
def deltaTurn (s : State) : Eff Unit :=
  (readByte s).andThen fun b s => putDelta (s.setRun (deltaValue b))

/-- One repeat of `DeltaRun` (43_planar_engine.md R136). -/
def deltaRepeat (s : State) : Eff Unit := putDelta s

/-- `repeat n times`. -/
def repeatTimes (turn : State → Eff Unit) : Nat → State → Eff Unit
  | 0, s => .ok () s
  | n + 1, s => (turn s).andThen fun _ s => repeatTimes turn n s

/-- `LiteralRun` (43_planar_engine.md R135). -/
def literalRun (s : State) : Eff Unit :=
  (repeatTimes literalTurn s.collen s).andThen fun _ s => repeatTimes literalRepeat s.replen s

/-- `DeltaRun` (43_planar_engine.md R136). -/
def deltaRun (s : State) : Eff Unit :=
  (repeatTimes deltaTurn s.collen s).andThen fun _ s => repeatTimes deltaRepeat s.replen s

/-- The latches `COLLEN` and `REPLEN` of a control byte (10_state.md R33, 43_planar_engine.md R132). -/
def State.latchRun (s : State) (c : Byte) : State :=
  { s with collen := (planarCtrl c).1, replen := (planarCtrl c).2 }

/-- `PlanarOverrunCheck()` and the run, literal on the first decoded row and delta on the others
(43_planar_engine.md R128, R133). -/
def runControl (s : State) : Eff Unit :=
  if s.width < s.col + s.collen + s.replen then raise .rasterOverflow s.orderStart s
  else if s.krow = 0 then literalRun s
  else deltaRun s

/-- Runs a piece of the planar engine where there is one: in phase `PLANAR` at `PB` 4
(10_state.md R12, 43_planar_engine.md R128; log 11). -/
def inPlanar (run : State → Eff Unit) (s : State) : Host.Outcome State Fault Refusal :=
  if s.phase = .planar ∧ s.pb = .four then (run s).outcome else .refused .controlOutsidePlanar

/-- The state at the head of the loops over planes and rows: plane 0, its first row, column 0, running
value 0 (43_planar_engine.md R128; log 10). -/
def State.enterPlanes (s : State) : State := { s with plane := 0, krow := 0, col := 0, run := 0 }

/-- `MARKER` (43_planar_engine.md R129): the byte was checked when it was read, and the loops begin. -/
def execMarker (s : State) : Host.Outcome State Fault Refusal :=
  inPlanar (fun s => .ok () s.enterPlanes) s

/-- `LONG16`: a long run of `16 + C` repeated pixels (43_planar_engine.md R132). -/
def execLong16 (c : BitVec 4) (s : State) : Host.Outcome State Fault Refusal :=
  inPlanar (fun s => runControl (s.latchRun (c ++ (1 : BitVec 4)))) s

/-- `LONG32`: a long run of `32 + C` repeated pixels (43_planar_engine.md R132). -/
def execLong32 (c : BitVec 4) (s : State) : Host.Outcome State Fault Refusal :=
  inPlanar (fun s => runControl (s.latchRun (c ++ (2 : BitVec 4)))) s

/-- `RAW`: `C` stream pixels, then `R` repeated pixels (43_planar_engine.md R132). -/
def execRaw (c r : BitVec 4) (s : State) : Host.Outcome State Fault Refusal :=
  inPlanar (fun s => runControl (s.latchRun (c ++ r))) s

/-- The next row of the plane, or the first row of the next plane, once `COL` has reached `SRC_W`
(43_planar_engine.md R128; log 10). -/
def planarNextRow (s : State) : State :=
  if s.krow + 1 < s.height then { s with krow := s.krow + 1, col := 0, run := 0 }
  else { s with plane := s.plane + 1, krow := 0, col := 0, run := 0 }

/-- Whether the row that has ended is the last row of the last plane (43_planar_engine.md R128). -/
def State.planarDone (s : State) : Bool := 3 ≤ s.plane && s.height ≤ s.krow + 1

/-- `PlanarComplete()` and, where it succeeds, the move to phase `NORMALIZE`
(43_planar_engine.md R139, 40_decode_call.md R84). -/
def planarComplete (s : State) : State :=
  if s.cur = s.inLen then { s with phase := .normalize }
  else s.failEntry .lengthMismatch s.cur

end Sys2Proof.Machine
end

