-- ==== Sys2Proof/Machine/Regular.lean ====
section
/-! DEFINITION. The regular-form orders (42_scanline_orders.md section 2). -/

namespace Sys2Proof.Machine

/-- `FILL` (42_scanline_orders.md R107). -/
def execFill (c : CountField 5) (s : State) : Host.Outcome State Fault Refusal :=
  inScan (runOrder (countOf regularOffset false c) startFill .fill) s

/-- `MIX` (42_scanline_orders.md R108). -/
def execMix (c : CountField 5) (s : State) : Host.Outcome State Fault Refusal :=
  inScan (runOrder (countOf regularOffset false c) startPlain .mix) s

/-- `FOM` (42_scanline_orders.md R109). -/
def execFom (c : CountField 5) (s : State) : Host.Outcome State Fault Refusal :=
  inScan (runOrder (countOf regularOffset true c) startPlain .fom) s

/-- `COLOUR` (42_scanline_orders.md R110). -/
def execColour (c : CountField 5) (s : State) : Host.Outcome State Fault Refusal :=
  inScan (runOrder (countOf regularOffset false c) startColour .colour) s

/-- `COPY` (42_scanline_orders.md R111). -/
def execCopy (c : CountField 5) (s : State) : Host.Outcome State Fault Refusal :=
  inScan (runOrder (countOf regularOffset false c) startPlain .copy) s

end Sys2Proof.Machine
end

