-- ==== Sys2Proof/Machine/Reserved.lean ====
section
/-! DEFINITION. The reserved orders (42_scanline_orders.md R112, 30_encoding.md R70): the failure
UnknownOpcode once the header is read, whatever the count. -/

namespace Sys2Proof.Machine

/-- Control bytes 0xA0 .. 0xBF, header opcode 5 (42_scanline_orders.md R112). -/
def execReserved5 (_c : CountField 5) (s : State) : Host.Outcome State Fault Refusal :=
  inScan unknownOrder s

/-- Control byte 0xF5, header opcode 5 (42_scanline_orders.md R112). -/
def execReserved5M (_n : Word16) (s : State) : Host.Outcome State Fault Refusal :=
  inScan unknownOrder s

/-- Control byte 0xFB, header opcode 0xB (42_scanline_orders.md R112). -/
def execReservedB (s : State) : Host.Outcome State Fault Refusal := inScan unknownOrder s

/-- Control byte 0xFC, header opcode 0xC (42_scanline_orders.md R112). -/
def execReservedC (s : State) : Host.Outcome State Fault Refusal := inScan unknownOrder s

/-- Control byte 0xFF, header opcode 0xF (42_scanline_orders.md R112). -/
def execReservedF (s : State) : Host.Outcome State Fault Refusal := inScan unknownOrder s

end Sys2Proof.Machine
end

