-- ==== Sys2Proof/Machine/Special.lean ====
section
/-! DEFINITION. The special-form orders (42_scanline_orders.md section 5); their counts are fixed
(30_encoding.md R64). -/

namespace Sys2Proof.Machine

/-- `FOM_S1` (42_scanline_orders.md R124): the fixed mask 0x03. -/
def execFomS1 (s : State) : Host.Outcome State Fault Refusal :=
  inScan (runOrder 8 (startFixed 0x03) .fom) s

/-- `FOM_S2` (42_scanline_orders.md R125): the fixed mask 0x05. -/
def execFomS2 (s : State) : Host.Outcome State Fault Refusal :=
  inScan (runOrder 8 (startFixed 0x05) .fom) s

/-- `WHITE` (42_scanline_orders.md R126). -/
def execWhite (s : State) : Host.Outcome State Fault Refusal :=
  inScan (runOrder 1 startPlain .white) s

/-- `BLACK` (42_scanline_orders.md R127). -/
def execBlack (s : State) : Host.Outcome State Fault Refusal :=
  inScan (runOrder 1 startPlain .black) s

end Sys2Proof.Machine
end

