-- ==== Sys2Proof/Machine/Dispatch.lean ====
section
/-! DEFINITION. The meaning of each instruction, one arm per constructor. -/

namespace Sys2Proof.Machine

-- The meaning of an instruction whose header has been read: the state's cursor stands past the header.
def exec (i : Instr) (s : State) : Host.Outcome State Fault Refusal :=
  match i with
  | .fill c => Sys2Proof.Machine.execFill c s
  | .mix c => Sys2Proof.Machine.execMix c s
  | .fom c => Sys2Proof.Machine.execFom c s
  | .colour c => Sys2Proof.Machine.execColour c s
  | .copy c => Sys2Proof.Machine.execCopy c s
  | .reserved5 c => Sys2Proof.Machine.execReserved5 c s
  | .setmixMix c => Sys2Proof.Machine.execSetmixMix c s
  | .setmixFom c => Sys2Proof.Machine.execSetmixFom c s
  | .bicolour c => Sys2Proof.Machine.execBicolour c s
  | .fillM n => Sys2Proof.Machine.execFillM n s
  | .mixM n => Sys2Proof.Machine.execMixM n s
  | .fomM n => Sys2Proof.Machine.execFomM n s
  | .colourM n => Sys2Proof.Machine.execColourM n s
  | .copyM n => Sys2Proof.Machine.execCopyM n s
  | .reserved5M n => Sys2Proof.Machine.execReserved5M n s
  | .setmixMixM n => Sys2Proof.Machine.execSetmixMixM n s
  | .setmixFomM n => Sys2Proof.Machine.execSetmixFomM n s
  | .bicolourM n => Sys2Proof.Machine.execBicolourM n s
  | .fomS1 => Sys2Proof.Machine.execFomS1 s
  | .fomS2 => Sys2Proof.Machine.execFomS2 s
  | .reservedB => Sys2Proof.Machine.execReservedB s
  | .reservedC => Sys2Proof.Machine.execReservedC s
  | .white => Sys2Proof.Machine.execWhite s
  | .black => Sys2Proof.Machine.execBlack s
  | .reservedF => Sys2Proof.Machine.execReservedF s
  | .marker => Sys2Proof.Machine.execMarker s
  | .long16 c => Sys2Proof.Machine.execLong16 c s
  | .long32 c => Sys2Proof.Machine.execLong32 c s
  | .raw c r => Sys2Proof.Machine.execRaw c r s

end Sys2Proof.Machine
end

