-- ==== Sys2Proof/Machine/Fetch.lean ====
section
/-! DEFINITION. What the engine does next, and reading an instruction's header from the stream
(41_scanline_engine.md R91, 43_planar_engine.md R128, 20_memory.md R43). -/

namespace Sys2Proof.Machine

/-- What the engine does next. -/
inductive Action where
  /-- No call is in progress (40_decode_call.md R80). -/
  | idle
  /-- Phase `VALIDATE` (40_decode_call.md R81). -/
  | validate
  /-- An instruction is read at the cursor and run (41_scanline_engine.md R91, 43_planar_engine.md R128). -/
  | fetch (c : Ctx)
  /-- The scanline stream is at its end (41_scanline_engine.md R101). -/
  | scanComplete
  /-- A planar row has ended and another follows (43_planar_engine.md R128). -/
  | planarNextRow
  /-- The last planar row has ended (43_planar_engine.md R139). -/
  | planarComplete
  /-- Phase `NORMALIZE` (40_decode_call.md R84). -/
  | normalize
deriving DecidableEq, Repr

/-- The next action of a state. In phase `PLANAR` the marker is due exactly while the cursor is at byte 0
(70_reset_and_hazards.md R172; log 9). -/
def State.action (s : State) : Action :=
  match s.phase with
  | .idle => .idle
  | .done => .idle
  | .failed => .idle
  | .validate => .validate
  | .scan => if s.cur < s.inLen then .fetch .scan else .scanComplete
  | .planar =>
    if s.cur = 0 then .fetch .marker
    else if s.col < s.width then .fetch .control
    else if s.planarDone then .planarComplete
    else .planarNextRow
  | .normalize => .normalize

/-- The bytes of the stream at the cursor, as many as the longest header takes and no more than the
stream has (20_memory.md R43). -/
def State.headerBytes (s : State) : List Byte :=
  (List.range (min maxHeader (s.inLen - s.cur))).map fun k => s.inByte (s.cur + k)

/-- The state with `ORDER_START <- CUR` (41_scanline_engine.md R91, 43_planar_engine.md R128). -/
def State.startOrder (s : State) : State := { s with orderStart := s.cur }

/-- What reading a header at the cursor answers: an instruction and the state past its header, or the
state of a failed call. -/
inductive Fetched where
  | instr (i : Instr) (s : State)
  | failed (s : State)
deriving DecidableEq, Repr

/-- Reads a header at the cursor. A stream that ends inside it has been read to its end and raises
StreamUnderrun at the order's start (20_memory.md R43; log 17), and a planar stream whose first byte is
not the marker raises BadMarker (43_planar_engine.md R129). -/
def fetch (c : Ctx) (s : State) : Fetched :=
  match decode c s.headerBytes with
  | .instr i len => .instr i (s.startOrder.advance len)
  | .error .truncated =>
    .failed ((s.startOrder.advance s.headerBytes.length).failEntry .streamUnderrun s.cur)
  | .error (.badMarker _) => .failed ((s.startOrder.advance 1).failEntry .badMarker 0)

/-- A call whose stream is one instruction with zeros for its data, and whose raster it exactly fills
(30_encoding.md R73; log 14): what `withFetchWord` loads. `lead` are the bytes before the instruction. -/
def callOf (lead : List Byte) (bpp : Int) (pb : PixelBytes) (header : List Byte) (i : Instr) : Call :=
  { input := lead ++ header ++ List.replicate (dataBytes pb i) 0
    srcW := max 1 (pixelsOf i)
    srcH := 1
    dstL := 0
    dstT := 0
    dstR := (max 1 (pixelsOf i) : Nat) - 1
    dstB := 0
    bpp := bpp }

end Sys2Proof.Machine
end

