-- ==== Sys2Proof/Machine/Geometry.lean ====
section
/-! DEFINITION. The geometry validator and the start of a call: the per-call reset
(40_decode_call.md R78, R80, 10_state.md R39), the pre-check and the dispatch (40_decode_call.md R81 .. R83,
45_geometry_validator.md R150). -/

namespace Sys2Proof.Machine

/-- `PB` of a depth; none for a depth that is not supported (10_state.md R10, 40_decode_call.md R82). -/
def pixelBytesOf (bpp : Int) : Option PixelBytes :=
  if bpp = 15 ∨ bpp = 16 then some .two
  else if bpp = 24 then some .three
  else if bpp = 32 then some .four
  else none

/-- `MIX` at the start of a call: `ONES` of the call's pixel width (10_state.md R39). The spec gives no
value where no scanline engine will run; the model's is `ZERO` (log 6, DESIGN CHOICE, unsafe). -/
def initialMix (bpp : Int) : Pixel :=
  match pixelBytesOf bpp with
  | some .two => Pixel.ones .two
  | some .three => Pixel.ones .three
  | some .four => Pixel.zero
  | none => Pixel.zero

/-- Starts a call: latches its inputs, resets the engine and enters `VALIDATE` (40_decode_call.md R80,
70_reset_and_hazards.md R170, 10_state.md R39). `STATUS`, `ERR_POS`, `OUT_LEN` keep their values, `PB`,
`DST_W` and `DST_H` are written in `VALIDATE`, and the buffers hold nothing the call has written (log 4). -/
def State.startCall (s : State) (c : Call) : State :=
  { s with
    phase := .validate
    inLen := c.input.length
    srcW := c.srcW
    srcH := c.srcH
    dstL := c.dstL
    dstT := c.dstT
    dstR := c.dstR
    dstB := c.dstB
    bpp := c.bpp
    cur := 0
    orderStart := 0
    x := c.srcW.toNat
    rowsLeft := c.srcH.toNat
    line := none
    prevLine := none
    lastOp := none
    mask := 0
    mixMask := 0
    toggle := .second
    op := .fill
    count := 0
    insert := false
    fixed := none
    mix := initialMix c.bpp
    colour1 := Pixel.zero
    colour2 := Pixel.zero
    plane := 0
    krow := 0
    col := 0
    run := 0
    collen := 0
    replen := 0
    input := Memory.writeList [] 0 c.input
    pixels := []
    out := [] }

/-- A step with no call in progress: the host's next call starts (40_decode_call.md R80), and where it
makes none the core stays idle (60_exceptions.md R168; log 1). -/
def idleStep (s : State) : State :=
  match s.calls with
  | [] => s
  | c :: rest => { s.startCall c with calls := rest }

/-- `PreCheck()` passes (45_geometry_validator.md R150). -/
def State.geometryOk (s : State) : Bool :=
  1 ≤ s.srcW && 1 ≤ s.srcH && s.dstL ≤ s.dstR && s.dstT ≤ s.dstB

/-- The engine a pixel width selects, as the phase it runs in (10_state.md R12, 40_decode_call.md R83). -/
def enginePhase : PixelBytes → Phase
  | .two => .scan
  | .three => .scan
  | .four => .planar

/-- Phase `VALIDATE` (40_decode_call.md R81): the geometry, then the depth, then `PB`, `DST_W`, `DST_H`
(10_state.md R10, R11), then the dispatch (R83). -/
def validateStep (s : State) : State :=
  if s.geometryOk then
    match pixelBytesOf s.bpp with
    | none => s.failEntry .unsupportedDepth 0
    | some pb =>
      { s with
        pb := pb
        dstW := s.dstR - s.dstL + 1
        dstH := s.dstB - s.dstT + 1
        phase := enginePhase pb }
  else s.failEntry .invalidDimensions 0

end Sys2Proof.Machine
end

