-- ==== Sys2Proof/Machine/Normalizer.lean ====
section
/-! DEFINITION. Phase `NORMALIZE`: the post-decode check (45_geometry_validator.md R152) and the colour
normalizer (44_color_normalizer.md). -/

namespace Sys2Proof.Machine

/-- RGB555 to RGBA (44_color_normalizer.md R144). -/
def rgba15 (p : Pixel) : List Byte :=
  let w := Pixel.word p
  [((w &&& 0x7C00) >>> 7).setWidth 8, ((w &&& 0x03E0) >>> 2).setWidth 8,
   ((w &&& 0x001F) <<< 3).setWidth 8, 255]

/-- RGB565 to RGBA (44_color_normalizer.md R145). -/
def rgba16 (p : Pixel) : List Byte :=
  let w := Pixel.word p
  [((w &&& 0xF800) >>> 8).setWidth 8, ((w &&& 0x07E0) >>> 3).setWidth 8,
   ((w &&& 0x001F) <<< 3).setWidth 8, 255]

/-- B, G, R to RGBA (44_color_normalizer.md R146). -/
def rgba24 (p : Pixel) : List Byte := [p.b2, p.b1, p.b0, 255]

/-- B, G, R, A to RGBA (44_color_normalizer.md R147). -/
def rgba32 (p : Pixel) : List Byte := [p.b2, p.b1, p.b0, p.b3]

/-- `Rgba(p)`, selected by `BPP` (44_color_normalizer.md R142): R, G, B, A. The depths are those
`VALIDATE` lets through. -/
def rgba (bpp : Int) (p : Pixel) : List Byte :=
  if bpp = 15 then rgba15 p
  else if bpp = 16 then rgba16 p
  else if bpp = 24 then rgba24 p
  else rgba32 p

/-- The native index of output pixel `k`, counted row-major over the destination
(44_color_normalizer.md R142): row `k / DST_W`, column `k mod DST_W`. -/
def State.sourceIndex (s : State) (k : Nat) : Nat :=
  k / s.dstW.toNat * s.width + k % s.dstW.toNat

/-- `OUT` after the normalizer has written its first `n` pixels, in row-major order
(44_color_normalizer.md R142, 20_memory.md R51). -/
def State.normalized (s : State) : Nat → Memory
  | 0 => s.out
  | n + 1 => (s.normalized n).writeList (n * 4) (rgba s.bpp (s.pixelAt (s.sourceIndex n)))

/-- `DST_W * DST_H`, the pixels of the output (20_memory.md R50). -/
abbrev State.outPixels (s : State) : Nat := s.dstW.toNat * s.dstH.toNat

/-- Phase `NORMALIZE`: `PostCheck()` (45_geometry_validator.md R152), then the normalizer
(44_color_normalizer.md R142), then the end of the call (40_decode_call.md R84, R85). -/
def normalizeStep (s : State) : State :=
  if s.srcW < s.dstW ∨ s.srcH < s.dstH then s.failEntry .bufferLengthMismatch 0
  else
    { s with
      out := s.normalized s.outPixels
      status := .ok
      errPos := 0
      outLen := s.outPixels * 4
      phase := .done }

/-- What the host may read of `OUT` (20_memory.md R58, 70_reset_and_hazards.md R178): byte `a` of the
result, after `DONE` only and below `OUT_LEN` only. -/
def State.hostOut (s : State) (a : Nat) : Option Byte :=
  if s.phase = .done ∧ a < s.outLen then s.out.read a else none

end Sys2Proof.Machine
end

