-- ==== Sys2Proof/Machine/Step.lean ====
section
/-! DEFINITION. One step of the core (40_decode_call.md R80 .. R86): the next action of the state, and
for an instruction the meaning of what its header decodes to. -/

namespace Sys2Proof.Machine

/-- One step: an instruction of the stream, or an action of the engine of its own (log 8). -/
def step (s : State) : Host.Outcome State Fault Refusal :=
  match s.action with
  | .idle => .next (idleStep s)
  | .validate => .next (validateStep s)
  | .fetch c =>
    match fetch c s with
    | .instr i t => exec i t
    | .failed t => .next t
  | .scanComplete => .next (scanComplete s)
  | .planarNextRow => .next (planarNextRow s)
  | .planarComplete => .next (planarComplete s)
  | .normalize => .next (normalizeStep s)

/-- The state with an opcode-table word stored where the next step fetches: a call just past `VALIDATE`
whose stream is that instruction, at 16 bits for a scanline order and at 32 bits for the planar bytes
(log 14). For a planar control byte the marker has been read already. -/
def State.withFetchWord (s : State) (nbits w : Nat) : State :=
  match decode (tableCtx nbits w) (tableBytes nbits w) with
  | .error _ => s
  | .instr i len =>
    match tableCtx nbits w with
    | .scan =>
      validateStep (s.startCall (callOf [] 16 .two ((tableBytes nbits w).take len) i))
    | .marker =>
      validateStep (s.startCall (callOf [] 32 .four ((tableBytes nbits w).take len) i))
    | .control =>
      ((validateStep (s.startCall
        (callOf [planarMarker] 32 .four ((tableBytes nbits w).take len) i))).advance 1).enterPlanes

end Sys2Proof.Machine
end

