-- ==== Sys2Proof/Safety.lean ====
section
/-! DEFINITION. The terms the claims use: the raster in stream order, what an order of the scanline engine
finds and leaves, the invariant of the machine, and what of a state one call can depend on. -/

namespace Sys2Proof.Machine

/-! ## The raster in stream order -/

/-- The native index of the `k`-th pixel the scanline stream delivers: bottom row first, each row from
column 0 (41_scanline_engine.md section 2, 92_eei_decisions.md D2). -/
def State.streamIndex (s : State) (k : Nat) : Nat :=
  (s.height - 1 - k / s.width) * s.width + k % s.width

/-- How many pixels of the raster the scanline engine has written, from its line registers. -/
def State.written (s : State) : Nat := (s.height - s.rowsLeft) * s.width + s.x - s.width

/-- The line registers are those of a raster written up to some pixel (10_state.md R17 .. R20,
41_scanline_engine.md R92, R95): before the first line, or on the line `ROWS_LEFT`, whose previous line
is the row below it unless it is the first. -/
abbrev State.LineOk (s : State) : Prop :=
  s.x ≤ s.width ∧
  ((s.line = none ∧ s.x = s.width ∧ s.rowsLeft = s.height ∧ s.prevLine = none) ∨
   (s.line = some s.rowsLeft ∧ s.rowsLeft < s.height ∧
    s.prevLine = if s.rowsLeft + 1 < s.height then some (s.rowsLeft + 1) else none))

/-- The scanline engine is running: phase, pixel width, a raster of at least one column, line registers. -/
abbrev State.ScanOk (s : State) : Prop :=
  s.phase = .scan ∧ s.pb ≠ .four ∧ 0 < s.width ∧ s.LineOk

/-- The state with the line registers moved on by `n` pixels; an order that writes none leaves them as
they are (41_scanline_engine.md R93). -/
def State.moved (s : State) (n : Nat) : State :=
  if n = 0 then s
  else
    { s with
      x := (s.written + n - 1) % s.width + 1
      rowsLeft := s.height - ((s.written + n - 1) / s.width + 1)
      line := some (s.height - ((s.written + n - 1) / s.width + 1))
      prevLine :=
        if (s.written + n - 1) / s.width = 0 then none
        else some (s.height - (s.written + n - 1) / s.width) }

/-- The state with the registers an order of effective opcode `op` that wrote `n` pixels leaves: the line
registers moved on, the per-order latches as the order's end leaves them (42_scanline_orders.md R105).
The claims name beside it what the order changes besides. -/
def State.afterOrder (s : State) (n : Nat) (op : EffOp) : State :=
  { s.moved n with
    count := 0, mixMask := 0, fixed := none, insert := false, op := op, lastOp := some op }

/-- The pixel of the previously decoded line under stream pixel `p`, none on the first line
(41_scanline_engine.md R97). -/
def State.aboveAt (s : State) (p : Nat) : Option Pixel :=
  if p < s.width then none else some (s.pixelAt (s.streamIndex (p - s.width)))

/-- The fill pixel at stream pixel `p` (41_scanline_engine.md R99). -/
def State.fillAt (s : State) (p : Nat) : Pixel := (s.aboveAt p).getD Pixel.zero

/-- The mix pixel at stream pixel `p` (41_scanline_engine.md R98). -/
def State.mixAt (s : State) (p : Nat) : Pixel :=
  match s.aboveAt p with
  | none => s.mix
  | some q => Pixel.xor q s.mix

/-- The pixel whose bytes stand at byte `a` of the stream (20_memory.md R44). -/
def State.streamPixel (s : State) (a : Nat) : Pixel :=
  Pixel.fit s.pb ⟨s.inByte a, s.inByte (a + 1), s.inByte (a + 2), s.inByte (a + 3)⟩

/-- From `s` to `t` the bytes of the next `n` stream pixels became those of `v 0`, `v 1`, …, and no other
byte of the native buffer changed. -/
def WrotePixels (s t : State) (n : Nat) (v : Nat → Pixel) : Prop :=
  (∀ k, k < n → ∀ j, j < s.pb.toNat →
    t.pixels.read (s.streamIndex (s.written + k) * s.pb.toNat + j) =
      (Pixel.bytes s.pb (v k))[j]?) ∧
  (∀ a, (∀ k, k < n → ∀ j, j < s.pb.toNat →
      a ≠ s.streamIndex (s.written + k) * s.pb.toNat + j) →
    t.pixels.read a = s.pixels.read a)

/-- From `s` to `t` the lane being decoded of the `n` pixels from column `COL` of the row being decoded
became `v 0`, `v 1`, …, and no other byte of the native buffer changed. -/
def WroteLanes (s t : State) (n : Nat) (v : Nat → Byte) : Prop :=
  (∀ k, k < n →
    t.pixels.read ((s.planarIndex + k) * s.pb.toNat + s.planarLane) = some (v k)) ∧
  (∀ a, (∀ k, k < n → a ≠ (s.planarIndex + k) * s.pb.toNat + s.planarLane) →
    t.pixels.read a = s.pixels.read a)

/-- The planar engine is running: phase, pixel width, a raster with a pixel, loop registers in range
(10_state.md R29 .. R31). -/
abbrev State.PlanarOk (s : State) : Prop :=
  s.phase = .planar ∧ s.pb = .four ∧ 0 < s.width ∧ s.plane ≤ 3 ∧ s.krow < s.height ∧ s.col ≤ s.width

/-! ## The invariant -/

/-- What `VALIDATE` establishes and the rest of the call keeps (40_decode_call.md R81). -/
abbrev State.Validated (s : State) : Prop :=
  s.geometryOk = true ∧ pixelBytesOf s.bpp = some s.pb ∧
  s.dstW = s.dstR - s.dstL + 1 ∧ s.dstH = s.dstB - s.dstT + 1

/-- The engine's registers as the start of a call leaves them (10_state.md R39), as far as the two
engines' loops rest on them. -/
abbrev State.Fresh (s : State) : Prop :=
  s.cur = 0 ∧ s.x = s.width ∧ s.rowsLeft = s.height ∧ s.line = none ∧ s.prevLine = none ∧
  s.plane = 0 ∧ s.krow = 0 ∧ s.col = 0

/-- The invariant every step keeps: memories in canonical form, the cursor within the stream
(10_state.md R14), and what each phase may rely on. -/
abbrev State.Inv (s : State) : Prop :=
  s.input.wf ∧ s.pixels.wf ∧ s.out.wf ∧ s.cur ≤ s.inLen ∧
  (s.phase = .idle → s.status = .noCall ∧ s.errPos = 0 ∧ s.outLen = 0) ∧
  (s.phase = .validate → s.Fresh) ∧
  (s.phase = .scan → s.Validated ∧ s.ScanOk) ∧
  (s.phase = .planar → s.Validated ∧ s.PlanarOk) ∧
  (s.phase = .normalize → s.Validated) ∧
  (s.phase = .done → s.status = .ok ∧ s.errPos = 0 ∧ s.outLen = s.outPixels * 4) ∧
  (s.phase = .failed → s.status ≠ .noCall ∧ s.status ≠ .ok ∧ s.outLen = 0)

/-- Byte `a` of the native buffer has been written in this call. -/
abbrev State.has (s : State) (a : Nat) : Prop := (s.pixels.read a).isSome = true

/-- Every byte of the native buffer has been written in this call. -/
abbrev State.RasterFull (s : State) : Prop := ∀ a, a < s.area * s.pb.toNat → s.has a

/-- Whether the planar engine is past the pixel at column `c` of its `k`-th row of plane `p`. -/
abbrev State.planarPast (s : State) (p k c : Nat) : Prop :=
  p < s.plane ∨ (p = s.plane ∧ (k < s.krow ∨ (k = s.krow ∧ c < s.col)))

/-- What the engines have passed they have written (41_scanline_engine.md R102,
43_planar_engine.md R140). -/
abbrev State.RasterInv (s : State) : Prop :=
  (s.phase = .scan →
    ∀ k, k < s.written → ∀ j, j < s.pb.toNat → s.has (s.streamIndex k * s.pb.toNat + j)) ∧
  (s.phase = .planar → s.cur ≠ 0 →
    ∀ p, p < 4 → ∀ k, k < s.height → ∀ c, c < s.width → s.planarPast p k c →
      s.has (((s.height - 1 - k) * s.width + c) * s.pb.toNat + planeOff p)) ∧
  (s.phase = .normalize → s.RasterFull) ∧
  (s.phase = .done → s.RasterFull)

/-! ## Calls -/

/-- A call is in progress (20_memory.md R58). -/
abbrev State.Busy (s : State) : Prop :=
  s.phase = .validate ∨ s.phase = .scan ∨ s.phase = .planar ∨ s.phase = .normalize

/-- A call has ended (10_state.md R5). -/
abbrev State.Ended (s : State) : Prop := s.phase = .done ∨ s.phase = .failed

/-- The outcome of the last call as the host sees it (40_decode_call.md R90): `STATUS`, `ERR_POS`,
`OUT_LEN` and the first `OUT_LEN` bytes of `OUT`. -/
def State.callResult (s : State) : Status × Nat × Nat × List (Option Byte) :=
  (s.status, s.errPos, s.outLen, (List.range s.outLen).map s.hostOut)

/-- The caller's own bound on a call, `P_MAX_IN_LEN`, an open parameter the core does not check
(70_reset_and_hazards.md R175; log 15). -/
abbrev Call.within (c : Call) (pMaxInLen : Nat) : Prop := c.input.length ≤ pMaxInLen

end Sys2Proof.Machine
end

