-- ==== Sys2Proof/Certificates/Slice0/Obligations.lean ====
section
/-! DEFINITION. The statements about the model, for the provers. Where a statement rests on a decision of
the spec (92_eei_decisions.md) or on a choice of the model (notes/assumptions), its docstring says so. -/

section
open Sys2Proof Sys2Proof.Machine

/-! ## Encoding -/

/-- DECODE AND ENCODE AGREE: the header of every well-formed instruction, followed by any bytes, decodes
in its place of a stream to that instruction and its length. -/
def Obligations.DecodeEncode : Prop :=
  ∀ (i : Instr) (rest : List Byte), i.wf = true →
    decode i.ctx (encode i ++ rest) = .instr i (encode i).length

/-- What the decoder reads encodes to the bytes it was read from: an instruction is well-formed, belongs
to the place of the stream it was read in, and its encoding is the front of the bytes. -/
def Obligations.EncodeDecode : Prop :=
  ∀ (c : Ctx) (bs : List Byte) (i : Instr) (len : Nat), decode c bs = .instr i len →
    i.wf = true ∧ i.ctx = c ∧ encode i = bs.take len ∧ len = (encode i).length

/-- Header bytes written out from 30_encoding.md section 1 and R71 decode to the instructions they stand
for. -/
def Obligations.SampleWords : Prop :=
  decode .scan [0x04] = .instr (.fill (.inByte 4)) 1 ∧
  decode .scan [0x60, 0x00, 0xCD, 0xAB] = .instr (.colour (.ext 0)) 2 ∧
  decode .scan [0xD1, 0x34, 0x12, 0x0F] = .instr (.setmixFom (.inByte 1)) 1 ∧
  decode .scan [0xE2] = .instr (.bicolour (.inByte 2)) 1 ∧
  decode .scan [0xF4, 0x02, 0x01] = .instr (.copyM 0x0102) 3 ∧
  decode .scan [0xF9] = .instr .fomS1 1 ∧
  decode .scan [0xFE] = .instr .black 1 ∧
  decode .scan [0xA1] = .instr (.reserved5 (.inByte 1)) 1 ∧
  decode .marker [0x10] = .instr .marker 1 ∧
  decode .control [0x52] = .instr (.long32 5) 1 ∧
  decode .control [0x34] = .instr (.raw 3 4) 1

/-- R63 with R45: the mega form's opcode is the low nibble and its count the next two bytes, the first
being bits 7..0, used as read. -/
def Obligations.MegaHeader : Prop :=
  ∀ (op lo hi : Byte) (rest : List Byte), op < 9 →
    ∃ i, decode .scan ((0xF0 ||| op) :: lo :: hi :: rest) = .instr i 3 ∧
      headerOpcode i = some op.toNat ∧ headerCount i = hi.toNat * 256 + lo.toNat

/-- R64: the special form's opcode is the low nibble, its count 8 for opcodes 9 and 0xA and 1 otherwise,
and no further header byte is read. -/
def Obligations.SpecialHeader : Prop :=
  ∀ (op : Byte) (rest : List Byte), 9 ≤ op → op < 16 →
    ∃ i, decode .scan ((0xF0 ||| op) :: rest) = .instr i 1 ∧
      headerOpcode i = some op.toNat ∧ headerCount i = if op = 9 ∨ op = 0xA then 8 else 1

/-- R65 and R62 with R66: the regular form's opcode is the control byte's top three bits, the lite form's
its top nibble less 6. A nonzero count field is the count, times 8 for header opcodes 2 and 7. A zero field
takes an extension byte, which adds 32 in the regular form and 16 in the lite form, but 1 for header
opcodes 2 and 7. -/
def Obligations.CountedHeaders : Prop :=
  (∀ (code e : Byte) (rest : List Byte), code < 0xC0 →
    ∃ i len, decode .scan (code :: e :: rest) = .instr i len ∧
      headerOpcode i = some (code >>> 5).toNat ∧
      if code &&& 0x1F = 0 then
        len = 2 ∧ headerCount i = e.toNat + (if code >>> 5 = 2 then 1 else 32)
      else
        len = 1 ∧
          headerCount i =
            if code >>> 5 = 2 then (code &&& 0x1F).toNat * 8 else (code &&& 0x1F).toNat) ∧
  (∀ (code e : Byte) (rest : List Byte), 0xC0 ≤ code → code < 0xF0 →
    ∃ i len, decode .scan (code :: e :: rest) = .instr i len ∧
      headerOpcode i = some ((code >>> 4).toNat - 6) ∧
      if code &&& 0x0F = 0 then
        len = 2 ∧ headerCount i = e.toNat + (if code >>> 4 = 0xD then 1 else 16)
      else
        len = 1 ∧
          headerCount i =
            if code >>> 4 = 0xD then (code &&& 0x0F).toNat * 8 else (code &&& 0x0F).toNat)

/-- R104: the effective opcode of every valid header opcode, and the numbers of the effective opcodes; a
reserved header opcode has none. -/
def Obligations.EffectiveOpcodes : Prop :=
  [0, 1, 2, 3, 4, 6, 7, 8, 9, 0xA, 0xD, 0xE].map effOp =
    [EffOp.fill, .mix, .fom, .colour, .copy, .mix, .fom, .bicolour, .fom, .fom, .white, .black].map some ∧
  [EffOp.fill, .mix, .fom, .colour, .copy, .bicolour, .white, .black].map EffOp.code =
    [0, 1, 2, 3, 4, 8, 13, 14] ∧
  [5, 0xB, 0xC, 0xF].map effOp = [none, none, none, none]

/-- The planar control byte's latches: a low nibble of 1 or 2 is a long run of 16 or 32 plus the high
nibble, with no data; any other byte is its two nibbles. The value of a long run is the spec's decision
D13. -/
def Obligations.PlanarControlLatches : Prop :=
  ∀ c r : BitVec 4,
    planarCtrl (controlByte (.long16 c)) = (0, 16 + c.toNat) ∧
    planarCtrl (controlByte (.long32 c)) = (0, 32 + c.toNat) ∧
    (r ≠ 1 → r ≠ 2 → planarCtrl (controlByte (.raw c r)) = (c.toNat, r.toNat))

/-! ## Values and memories -/

/-- R137: the value of a delta byte, its range, and that no two bytes have the same value. -/
def Obligations.DeltaValues : Prop :=
  (∀ b : Byte, deltaValue b =
    if b.getLsbD 0 then -(((b >>> 1).toNat : Int) + 1) else ((b >>> 1).toNat : Int)) ∧
  (∀ b : Byte, -128 ≤ deltaValue b ∧ deltaValue b ≤ 127) ∧
  (∀ b c : Byte, deltaValue b = deltaValue c → b = c)

/-- R100: the XOR of two pixels is bitwise over the whole pixel: over the 16-bit word of a `Pix2`, over
each byte of a `Pix3` independently. -/
def Obligations.PixelXor : Prop :=
  ∀ p q : Pixel,
    Pixel.word (Pixel.xor p q) = Pixel.word p ^^^ Pixel.word q ∧
    (Pixel.xor p q).b0 = p.b0 ^^^ q.b0 ∧ (Pixel.xor p q).b1 = p.b1 ^^^ q.b1 ∧
    (Pixel.xor p q).b2 = p.b2 ^^^ q.b2

/-- R48: a pixel read returns the last pixel written at its index, a lane read the last byte written to
that lane; writing a pixel leaves every other pixel as it was, writing a lane every other lane of the pixel
and every other pixel. -/
def Obligations.NativeReadWrite : Prop :=
  (∀ (s : State) (i : Nat) (v : Pixel), i < s.area → ∃ t,
    memWrite i v s = .ok () t ∧ memRead i t = .ok (Pixel.fit s.pb v) t ∧
    ∀ j, j ≠ i → j < s.area → memRead j t = .ok (s.pixelAt j) t) ∧
  (∀ (s : State) (i k : Nat) (b : Byte), i < s.area → k < s.pb.toNat → ∃ t,
    memWriteLane i k b s = .ok () t ∧ memReadLane i k t = .ok b t ∧
    ∀ j l, j < s.area → l < s.pb.toNat → ¬ (j = i ∧ l = k) →
      memReadLane j l t = .ok (s.pixelByte (j * s.pb.toNat + l)) t)

/-- R144, R145: the RGBA of a 15-bit and of a 16-bit pixel, each channel its field of the word moved to
the top of a byte, low bits zero, alpha 255; bit 15 of a 15-bit pixel is ignored. -/
def Obligations.WordConversions : Prop :=
  ∀ p : Pixel,
    rgba 15 p = rgba 15 { p with b1 := p.b1 &&& 0x7F } ∧
    (∃ r g b : Byte, rgba 15 p = [r, g, b, 255] ∧
      r.toNat = ((Pixel.word p).toNat &&& 0x7C00) >>> 7 ∧
      g.toNat = ((Pixel.word p).toNat &&& 0x03E0) >>> 2 ∧
      b.toNat = ((Pixel.word p).toNat &&& 0x001F) <<< 3 ∧
      r ≤ 0xF8 ∧ g ≤ 0xF8 ∧ b ≤ 0xF8 ∧ r &&& 7 = 0 ∧ g &&& 7 = 0 ∧ b &&& 7 = 0) ∧
    (∃ r g b : Byte, rgba 16 p = [r, g, b, 255] ∧
      r.toNat = ((Pixel.word p).toNat &&& 0xF800) >>> 8 ∧
      g.toNat = ((Pixel.word p).toNat &&& 0x07E0) >>> 3 ∧
      b.toNat = ((Pixel.word p).toNat &&& 0x001F) <<< 3 ∧
      r ≤ 0xF8 ∧ g ≤ 0xFC ∧ b ≤ 0xF8 ∧ r &&& 7 = 0 ∧ g &&& 3 = 0 ∧ b &&& 7 = 0)

/-- R146, R147: the RGBA of a 24-bit and of a 32-bit pixel, its byte lanes reordered. -/
def Obligations.ByteConversions : Prop :=
  ∀ p : Pixel,
    rgba 24 p = [p.b2, p.b1, p.b0, 255] ∧ rgba 32 p = [p.b2, p.b1, p.b0, p.b3]

/-! ## The call -/

/-- The number of each outcome of a call, and that the numbers differ (the spec's decision D18 for the
values, D11 and D12 for codes 7 and 8). -/
def Obligations.StatusCodes : Prop :=
  [Status.noCall, .ok, .error .invalidDimensions, .error .unsupportedDepth, .error .streamUnderrun,
    .error .lengthMismatch, .error .unknownOpcode, .error .bufferLengthMismatch,
    .error .rasterOverflow, .error .badMarker].map Status.code =
    [none, some 0, some 1, some 2, some 3, some 4, some 5, some 6, some 7, some 8] ∧
  ∀ a b : Status, a.code = b.code → a = b

/-- Power-on: idle, no result (10_state.md section 10; the spec's decision D27). -/
def Obligations.PowerOn : Prop :=
  State.reset.phase = .idle ∧ State.reset.status = .noCall ∧ State.reset.errPos = 0 ∧
  State.reset.outLen = 0

/-- The start of a call: the first call the host has still to make is latched, its bytes are placed in
`IN`, and the engine's registers take the values of 10_state.md section 10 (decisions D3, D4, D6, D14,
D18 of the spec); `MIX` is all ones of the call's pixel width where the scanline engine can run. The
calls still to make are the model's own field (log 1); that the buffers hold nothing afterwards is the
model's reading (log 4); that `X` and `ROWS_LEFT` are 0 for a negative source size is its choice (log 7). -/
def Obligations.CallStart : Prop :=
  ∀ (s : State) (c : Call) (rest : List Call), ¬ s.Busy → s.calls = c :: rest →
    ∃ t, step s = .next t ∧ t.calls = rest ∧ t.phase = .validate ∧
      t.inLen = c.input.length ∧ (∀ a, a < c.input.length → t.input.read a = c.input[a]?) ∧
      t.srcW = c.srcW ∧ t.srcH = c.srcH ∧
      t.dstL = c.dstL ∧ t.dstT = c.dstT ∧ t.dstR = c.dstR ∧ t.dstB = c.dstB ∧ t.bpp = c.bpp ∧
      t.cur = 0 ∧ t.orderStart = 0 ∧ t.x = c.srcW.toNat ∧ t.rowsLeft = c.srcH.toNat ∧
      t.line = none ∧ t.prevLine = none ∧ t.lastOp = none ∧
      (c.bpp = 15 ∨ c.bpp = 16 → t.mix = ⟨0xFF, 0xFF, 0, 0⟩) ∧
      (c.bpp = 24 → t.mix = ⟨0xFF, 0xFF, 0xFF, 0⟩) ∧
      t.colour1 = ⟨0, 0, 0, 0⟩ ∧ t.colour2 = ⟨0, 0, 0, 0⟩ ∧ t.toggle = .second ∧
      t.mask = 0 ∧ t.mixMask = 0 ∧
      t.op = .fill ∧ t.count = 0 ∧ t.insert = false ∧ t.fixed = none ∧
      t.plane = 0 ∧ t.krow = 0 ∧ t.col = 0 ∧ t.run = 0 ∧ t.collen = 0 ∧ t.replen = 0 ∧
      t.status = s.status ∧ t.errPos = s.errPos ∧ t.outLen = s.outLen ∧
      t.pixels = [] ∧ t.out = []

/-- A core with no call in progress and none to come stays as it is: the result of the last call stands
(log 1). -/
def Obligations.IdleStays : Prop :=
  ∀ s : State, ¬ s.Busy → s.calls = [] → step s = .next s

/-- The pre-check: a source size below 1 or an inverted rectangle fails the call, whatever the depth, with
`ERR_POS` 0, before any stream byte is read; nothing else changes. That this comes before the depth, and
the code for a source size, are the spec's decision D19; that `NATIVE` and `OUT` stay is log 21. -/
def Obligations.GeometryRejected : Prop :=
  ∀ s : State, s.phase = .validate →
    (s.srcW < 1 ∨ s.srcH < 1 ∨ s.dstR < s.dstL ∨ s.dstB < s.dstT) →
    step s = .next
      { s with status := .error .invalidDimensions, errPos := 0, outLen := 0, phase := .failed }

/-- R82: a depth that is not 15, 16, 24 or 32 fails the call with UnsupportedDepth at position 0, and
nothing else changes; that `NATIVE` and `OUT` stay is log 21. -/
def Obligations.DepthRejected : Prop :=
  ∀ s : State, s.phase = .validate → s.geometryOk = true →
    s.bpp ≠ 15 → s.bpp ≠ 16 → s.bpp ≠ 24 → s.bpp ≠ 32 →
    step s = .next
      { s with status := .error .unsupportedDepth, errPos := 0, outLen := 0, phase := .failed }

/-- R10, R11, R12, R83: for good geometry and a supported depth, `PB` is 2 for depths 15 and 16, 3 for 24
and 4 for 32, `DST_W` and `DST_H` are the sides of the inclusive rectangle and both positive, the engine
that runs next is the scanline engine at `PB` 2 and 3 and the planar engine at `PB` 4, and nothing else
changes. -/
def Obligations.ValidateDispatches : Prop :=
  ∀ s : State, s.phase = .validate →
    1 ≤ s.srcW → 1 ≤ s.srcH → s.dstL ≤ s.dstR → s.dstT ≤ s.dstB →
    (s.bpp = 15 ∨ s.bpp = 16 ∨ s.bpp = 24 ∨ s.bpp = 32) →
    ∃ t, step s = .next t ∧
      t = { s with pb := t.pb, dstW := t.dstW, dstH := t.dstH, phase := t.phase } ∧
      t.pb = (if s.bpp = 24 then .three else if s.bpp = 32 then .four else .two) ∧
      t.dstW = s.dstR - s.dstL + 1 ∧ t.dstH = s.dstB - s.dstT + 1 ∧ 0 < t.dstW ∧ 0 < t.dstH ∧
      t.phase = (if t.pb = .four then .planar else .scan)

/-- The post-check: a destination larger than the source raster on either axis fails the call at
position 0 (the spec's decision D20), and nothing else changes: no byte of `OUT` is written; that it and
`NATIVE` keep what they held is log 21. -/
def Obligations.OversizeRejected : Prop :=
  ∀ s : State, s.phase = .normalize → (s.srcW < s.dstW ∨ s.srcH < s.dstH) →
    step s = .next
      { s with status := .error .bufferLengthMismatch, errPos := 0, outLen := 0, phase := .failed }

/-- R85: where the post-check passes, the call ends in `DONE` with `STATUS` OK, `ERR_POS` 0 and `OUT_LEN`
four bytes for each pixel of the destination; no other register changes and only `OUT` is written. -/
def Obligations.NormalizeEnds : Prop :=
  ∀ s : State, s.phase = .normalize → s.dstW ≤ s.srcW → s.dstH ≤ s.srcH →
    ∃ t, step s = .next t ∧
      t = { s with
        out := t.out, status := .ok, errPos := 0,
        outLen := s.dstW.toNat * s.dstH.toNat * 4, phase := .done }

/-- The normalizer: output pixel `(x, y)` is the RGBA of native pixel `(x, y)`, R at the lowest address,
row-major; no byte past the output is written. The output being the top-left corner is the spec's
decision D20. -/
def Obligations.NormalizerOutput : Prop :=
  ∀ s t : State, s.phase = .normalize → s.dstW ≤ s.srcW → s.dstH ≤ s.srcH → step s = .next t →
    (∀ x y j, x < s.dstW.toNat → y < s.dstH.toNat → j < 4 →
      t.hostOut ((y * s.dstW.toNat + x) * 4 + j) =
        (rgba s.bpp (s.pixelAt (y * s.srcW.toNat + x)))[j]?) ∧
    (∀ a, s.dstW.toNat * s.dstH.toNat * 4 ≤ a → t.out.read a = s.out.read a)

/-! ## Fetch -/

/-- A STEP RUNS THE DECODED INSTRUCTION: in phase `SCAN` with bytes left, and in phase `PLANAR` at byte 0
(the marker) or within a row (a control byte), where the bytes at the cursor decode to an instruction the
step is that instruction's meaning on the state with `ORDER_START` at the instruction and the cursor past
its header. That the marker is due exactly while the cursor is at byte 0 is DEDUCED (log 9). -/
def Obligations.StepRunsDecoded : Prop :=
  ∀ (s : State) (c : Ctx) (i : Instr) (len : Nat),
    (s.phase = .scan ∧ s.cur < s.inLen ∧ c = .scan ∨
     s.phase = .planar ∧ s.cur = 0 ∧ c = .marker ∨
     s.phase = .planar ∧ s.cur ≠ 0 ∧ s.col < s.width ∧ c = .control) →
    decode c s.headerBytes = .instr i len →
    step s = exec i { s with orderStart := s.cur, cur := s.cur + len }

/-- A step runs the instruction whose encoding stands in `IN` at the cursor: what `headerBytes` and the
decoder make of it is that instruction, whatever bytes follow. -/
def Obligations.StepRunsEncoded : Prop :=
  ∀ (s : State) (i : Instr), i.wf = true →
    (s.phase = .scan ∧ i.ctx = .scan ∨
     s.phase = .planar ∧ s.cur = 0 ∧ i.ctx = .marker ∨
     s.phase = .planar ∧ s.cur ≠ 0 ∧ s.col < s.width ∧ i.ctx = .control) →
    s.cur + (encode i).length ≤ s.inLen →
    (∀ k, k < (encode i).length → some (s.inByte (s.cur + k)) = (encode i)[k]?) →
    step s = exec i { s with orderStart := s.cur, cur := s.cur + (encode i).length }

/-- A scanline header the stream ends inside fails the call with StreamUnderrun at the order's start; no
pixel and no engine register but `ORDER_START` and `CUR` changes. The position is the spec's decision
D18, `CUR` at the end of the stream log 17; that `NATIVE` and `OUT` stay is log 21. -/
def Obligations.TruncatedHeader : Prop :=
  ∀ s : State, s.phase = .scan → s.cur < s.inLen →
    (s.inLen = s.cur + 1 ∧
        (0xF0 ≤ s.inByte s.cur ∧ s.inByte s.cur < 0xF9 ∨
         0xC0 ≤ s.inByte s.cur ∧ s.inByte s.cur < 0xF0 ∧ s.inByte s.cur &&& 0x0F = 0 ∨
         s.inByte s.cur < 0xC0 ∧ s.inByte s.cur &&& 0x1F = 0) ∨
      s.inLen = s.cur + 2 ∧ 0xF0 ≤ s.inByte s.cur ∧ s.inByte s.cur < 0xF9) →
    step s = .next
      { s with
        orderStart := s.cur, cur := s.inLen
        status := .error .streamUnderrun, errPos := s.cur, outLen := 0, phase := .failed }

/-- A planar stream with no first byte fails with StreamUnderrun, one whose first byte is not the marker
with BadMarker, both at position 0 (the spec's decisions D12, D18), and a planar row that wants a control
byte at the end of the stream fails with StreamUnderrun there. That the marker is due at byte 0 is log 9,
that `NATIVE` and `OUT` stay log 21. -/
def Obligations.PlanarHeaderFailures : Prop :=
  ∀ s : State, s.phase = .planar →
    (s.cur = 0 → s.inLen = 0 → step s = .next
      { s with
        orderStart := 0, status := .error .streamUnderrun, errPos := 0, outLen := 0
        phase := .failed }) ∧
    (s.cur = 0 → 0 < s.inLen → s.inByte 0 ≠ 0x10 → step s = .next
      { s with
        orderStart := 0, cur := 1, status := .error .badMarker, errPos := 0, outLen := 0
        phase := .failed }) ∧
    (s.cur ≠ 0 → s.col < s.width → s.cur = s.inLen → step s = .next
      { s with
        orderStart := s.cur, status := .error .streamUnderrun, errPos := s.cur, outLen := 0
        phase := .failed })

/-! ## The scanline orders

Each of these says that an order completes where the raster has room for its pixels and the stream holds
the bytes it reads, what pixels it writes, and, by the equation for the state after it, that no other
register, latch or byte changes. Which native pixel a stream pixel is (`streamIndex`: bottom row first)
is the spec's decision D2, and the pixel above is that of the line decoded before, D29. -/

/-- FILL, FILL.M: every pixel is the fill pixel, but the first is the mix pixel where the order before was
a Fill and a line is open. That the insertion is decided once, at the order's start, is the spec's
decision D8. -/
def Obligations.FillOrders : Prop :=
  ∀ i : Instr, ((∃ c, i = .fill c) ∨ (∃ m, i = .fillM m)) →
  ∀ s : State, s.ScanOk → s.written + headerCount i ≤ s.area →
    ∃ t, exec i s = .next t ∧
      t = { s.afterOrder (headerCount i) .fill with
        insert := if headerCount i = 0 then insertFlag s else false
        pixels := t.pixels } ∧
      WrotePixels s t (headerCount i) fun k =>
        if k = 0 ∧ insertFlag s = true then t.mixAt s.written else t.fillAt (s.written + k)

/-- MIX, MIX.M: every pixel is the mix pixel. -/
def Obligations.MixOrders : Prop :=
  ∀ i : Instr, ((∃ c, i = .mix c) ∨ (∃ m, i = .mixM m)) →
  ∀ s : State, s.ScanOk → s.written + headerCount i ≤ s.area →
    ∃ t, exec i s = .next t ∧
      t = { s.afterOrder (headerCount i) .mix with pixels := t.pixels } ∧
      WrotePixels s t (headerCount i) fun k => t.mixAt (s.written + k)

/-- SETMIX_MIX, SETMIX_MIX.M: the pixel at the cursor becomes `MIX`, then every pixel is the mix pixel with
it. -/
def Obligations.SetmixMixOrders : Prop :=
  ∀ i : Instr, ((∃ c, i = .setmixMix c) ∨ (∃ m, i = .setmixMixM m)) →
  ∀ s : State, s.ScanOk → s.written + headerCount i ≤ s.area → s.cur + s.pb.toNat ≤ s.inLen →
    ∃ t, exec i s = .next t ∧
      t = { s.afterOrder (headerCount i) .mix with
        cur := s.cur + s.pb.toNat, mix := s.streamPixel s.cur, pixels := t.pixels } ∧
      WrotePixels s t (headerCount i) fun k => t.mixAt (s.written + k)

/-- FOM, FOM.M: pixel `k` takes bit `k mod 8` of mask byte `k div 8` of the order: the mix pixel where it
is set, the fill pixel where it is clear. A mask byte is read before pixels 0, 8, 16, … of every order
(the spec's decision D6). -/
def Obligations.FomOrders : Prop :=
  ∀ i : Instr, ((∃ c, i = .fom c) ∨ (∃ m, i = .fomM m)) →
  ∀ s : State, s.ScanOk → s.written + headerCount i ≤ s.area →
    s.cur + (headerCount i + 7) / 8 ≤ s.inLen →
    ∃ t, exec i s = .next t ∧
      t = { s.afterOrder (headerCount i) .fom with
        cur := s.cur + (headerCount i + 7) / 8
        mask := if headerCount i = 0 then s.mask else s.inByte (s.cur + (headerCount i - 1) / 8)
        mixMask := if headerCount i = 0 then 0 else (1 : Byte) <<< ((headerCount i - 1) % 8)
        pixels := t.pixels } ∧
      WrotePixels s t (headerCount i) fun k =>
        if (s.inByte (s.cur + k / 8)).getLsbD (k % 8) then t.mixAt (s.written + k)
        else t.fillAt (s.written + k)

/-- SETMIX_FOM, SETMIX_FOM.M: the pixel at the cursor becomes `MIX`, and the mask bytes follow it. -/
def Obligations.SetmixFomOrders : Prop :=
  ∀ i : Instr, ((∃ c, i = .setmixFom c) ∨ (∃ m, i = .setmixFomM m)) →
  ∀ s : State, s.ScanOk → s.written + headerCount i ≤ s.area →
    s.cur + s.pb.toNat + (headerCount i + 7) / 8 ≤ s.inLen →
    ∃ t, exec i s = .next t ∧
      t = { s.afterOrder (headerCount i) .fom with
        cur := s.cur + s.pb.toNat + (headerCount i + 7) / 8
        mix := s.streamPixel s.cur
        mask :=
          if headerCount i = 0 then s.mask
          else s.inByte (s.cur + s.pb.toNat + (headerCount i - 1) / 8)
        mixMask := if headerCount i = 0 then 0 else (1 : Byte) <<< ((headerCount i - 1) % 8)
        pixels := t.pixels } ∧
      WrotePixels s t (headerCount i) fun k =>
        if (s.inByte (s.cur + s.pb.toNat + k / 8)).getLsbD (k % 8) then t.mixAt (s.written + k)
        else t.fillAt (s.written + k)

/-- FOM_S1, FOM_S2: eight pixels under the fixed mask 0x03 or 0x05, no stream byte read. -/
def Obligations.FixedFomOrders : Prop :=
  ∀ (i : Instr) (m : Byte), (i = .fomS1 ∧ m = 0x03 ∨ i = .fomS2 ∧ m = 0x05) →
  ∀ s : State, s.ScanOk → s.written + 8 ≤ s.area →
    ∃ t, exec i s = .next t ∧
      t = { s.afterOrder 8 .fom with
        fixed := some m, mask := m, mixMask := 0x80, pixels := t.pixels } ∧
      WrotePixels s t 8 fun k =>
        if m.getLsbD k then t.mixAt (s.written + k) else t.fillAt (s.written + k)

/-- COLOUR, COLOUR.M: the pixel at the cursor becomes `COLOUR2`, and every pixel is it. -/
def Obligations.ColourOrders : Prop :=
  ∀ i : Instr, ((∃ c, i = .colour c) ∨ (∃ m, i = .colourM m)) →
  ∀ s : State, s.ScanOk → s.written + headerCount i ≤ s.area → s.cur + s.pb.toNat ≤ s.inLen →
    ∃ t, exec i s = .next t ∧
      t = { s.afterOrder (headerCount i) .colour with
        cur := s.cur + s.pb.toNat, colour2 := s.streamPixel s.cur, pixels := t.pixels } ∧
      WrotePixels s t (headerCount i) fun _ => s.streamPixel s.cur

/-- COPY, COPY.M: every pixel is the next pixel of the stream. -/
def Obligations.CopyOrders : Prop :=
  ∀ i : Instr, ((∃ c, i = .copy c) ∨ (∃ m, i = .copyM m)) →
  ∀ s : State, s.ScanOk → s.written + headerCount i ≤ s.area →
    s.cur + headerCount i * s.pb.toNat ≤ s.inLen →
    ∃ t, exec i s = .next t ∧
      t = { s.afterOrder (headerCount i) .copy with
        cur := s.cur + headerCount i * s.pb.toNat, pixels := t.pixels } ∧
      WrotePixels s t (headerCount i) fun k => s.streamPixel (s.cur + k * s.pb.toNat)

/-- BICOLOUR, BICOLOUR.M: the two pixels at the cursor become `COLOUR1` and `COLOUR2`; an order of count
`N` writes `2N - 1` pixels (none for `N = 0`), `COLOUR2` and `COLOUR1` in turn, `COLOUR2` first and last.
The order of the two colours is the spec's decision D5, the restart of `TOGGLE` D7. -/
def Obligations.BicolourOrders : Prop :=
  ∀ i : Instr, ((∃ c, i = .bicolour c) ∨ (∃ m, i = .bicolourM m)) →
  ∀ s : State, s.ScanOk → s.written + (2 * headerCount i - 1) ≤ s.area →
    s.cur + 2 * s.pb.toNat ≤ s.inLen →
    ∃ t, exec i s = .next t ∧
      t = { s.afterOrder (2 * headerCount i - 1) .bicolour with
        cur := s.cur + 2 * s.pb.toNat
        colour1 := s.streamPixel s.cur, colour2 := s.streamPixel (s.cur + s.pb.toNat)
        toggle := if headerCount i = 0 then .second else .first
        pixels := t.pixels } ∧
      WrotePixels s t (2 * headerCount i - 1) fun k =>
        if k % 2 = 0 then s.streamPixel (s.cur + s.pb.toNat) else s.streamPixel s.cur

/-- WHITE and BLACK: one pixel of all ones (0xFFFF, or three bytes FF) or of all zeros, in whichever of the
two pixel widths. -/
def Obligations.WhiteBlackOrders : Prop :=
  ∀ s : State, s.ScanOk → s.written < s.area →
    (∃ t, exec .white s = .next t ∧
      t = { s.afterOrder 1 .white with pixels := t.pixels } ∧
      WrotePixels s t 1 fun _ =>
        if s.pb = .two then ⟨0xFF, 0xFF, 0, 0⟩ else ⟨0xFF, 0xFF, 0xFF, 0⟩) ∧
    (∃ t, exec .black s = .next t ∧
      t = { s.afterOrder 1 .black with pixels := t.pixels } ∧
      WrotePixels s t 1 fun _ => ⟨0, 0, 0, 0⟩)

/-- The five reserved rows fail the call with UnknownOpcode at the order's start once their header is
read, whatever their count: the failure entry is their whole effect, on every state of the scanline
engine. The point of detection is the spec's decision D9; that `NATIVE` and `OUT` stay is log 21. -/
def Obligations.ReservedOrdersFail : Prop :=
  ∀ i : Instr,
    ((∃ c, i = .reserved5 c) ∨ (∃ m, i = .reserved5M m) ∨
      i = .reservedB ∨ i = .reservedC ∨ i = .reservedF) →
  ∀ s : State, s.phase = .scan → s.pb ≠ .four →
    exec i s = .next
      { s with
        status := .error .unknownOpcode, errPos := s.orderStart, outLen := 0, phase := .failed }

/-- R112 at the level of a step: a reserved control byte whose own header the stream holds whole (three
bytes for 0xF5, two for 0xA0, one for any other) takes the cursor past that header and fails the call
there, whatever the count; `LAST_OP` and the raster stay. The point of detection is the spec's decision D9;
that `NATIVE` and `OUT` stay is log 21. -/
def Obligations.ReservedBytesFail : Prop :=
  ∀ (s : State) (len : Nat), s.phase = .scan → s.pb ≠ .four →
    (0xA0 ≤ s.inByte s.cur ∧ s.inByte s.cur < 0xC0 ∨
      s.inByte s.cur = 0xF5 ∨ s.inByte s.cur = 0xFB ∨ s.inByte s.cur = 0xFC ∨
      s.inByte s.cur = 0xFF) →
    len = (if s.inByte s.cur = 0xF5 then 3 else if s.inByte s.cur = 0xA0 then 2 else 1) →
    s.cur + len ≤ s.inLen →
    step s = .next
      { s with
        orderStart := s.cur, cur := s.cur + len
        status := .error .unknownOpcode, errPos := s.cur, outLen := 0, phase := .failed }

/-- WHERE AN ORDER OVERFLOWS: a valid order that writes more pixels than the raster has left, with the
bytes it reads before the first pixel without a place in the stream (its operand pixels, and the data of
the pixels that do have one), reads exactly those bytes, fills the raster and fails the call with
RasterOverflow at its start, whatever the stream holds after them: the slot comes before its pixel's
literal or mask byte. The code is the spec's decision D11, the priority D28; that `OUT` stays is log 21. -/
def Obligations.OrderOverflows : Prop :=
  ∀ (i : Instr) (op : Nat), headerOpcode i = some op → (effOp op).isSome = true →
  ∀ s : State, s.ScanOk → s.area < s.written + pixelsOf i →
    s.cur + dataBytesFor s.pb i (s.area - s.written) ≤ s.inLen →
    ∃ t, exec i s = .next t ∧ t.phase = .failed ∧ t.status = .error .rasterOverflow ∧
      t.errPos = s.orderStart ∧ t.outLen = 0 ∧ t.out = s.out ∧ t.written = s.area ∧
      t.cur = s.cur + dataBytesFor s.pb i (s.area - s.written)

/-- WHERE AN ORDER UNDERRUNS: a valid order for which the stream holds fewer bytes than it reads for its
operand pixels and for those of its pixels that have a place in the raster reads all that is left and fails
the call with StreamUnderrun at its start, also where it would overflow the raster later. The position is
decision D18 of the spec, the priority D28; that `OUT` stays is log 21. -/
def Obligations.OrderUnderruns : Prop :=
  ∀ (i : Instr) (op : Nat), headerOpcode i = some op → (effOp op).isSome = true →
  ∀ s : State, s.ScanOk → s.cur ≤ s.inLen →
    s.inLen < s.cur + dataBytesFor s.pb i (min (pixelsOf i) (s.area - s.written)) →
    ∃ t, exec i s = .next t ∧ t.phase = .failed ∧ t.status = .error .streamUnderrun ∧
      t.errPos = s.orderStart ∧ t.outLen = 0 ∧ t.out = s.out ∧ t.cur = s.inLen

/-- The end of a scanline stream: a full raster goes on to the normalizer; any other fails with
StreamUnderrun at `IN_LEN` (the spec's decision D10). Nothing else changes; that `NATIVE` and `OUT` stay
after the failure is log 21. -/
def Obligations.ScanEnds : Prop :=
  ∀ s : State, s.phase = .scan → s.cur = s.inLen →
    (s.rowsLeft = 0 → s.width ≤ s.x → step s = .next { s with phase := .normalize }) ∧
    (s.rowsLeft ≠ 0 ∨ s.x < s.width → step s = .next
      { s with
        status := .error .streamUnderrun, errPos := s.inLen, outLen := 0, phase := .failed })

/-! ## The planar engine -/

/-- MARKER: the marker byte begins the loops at plane 0, its first row, column 0, running value 0 (log
10); nothing else changes. -/
def Obligations.MarkerEntersPlanes : Prop :=
  ∀ s : State, s.phase = .planar → s.pb = .four →
    exec .marker s = .next { s with plane := 0, krow := 0, col := 0, run := 0 }

/-- LONG16, LONG32, RAW on the first decoded row of a plane: `COLLEN` literals from the stream, then
`REPLEN` repeats of the running value, which is the last literal; the row's other pixels, the other lanes
and every other register stay. A run with no literal yet repeats the row's initial 0 (decision D14 of
the spec). -/
def Obligations.LiteralRuns : Prop :=
  ∀ (i : Instr) (c r : Nat), i.ctx = .control → planarCtrl (controlByte i) = (c, r) →
  ∀ s : State, s.PlanarOk → s.krow = 0 → s.col + c + r ≤ s.width → s.cur + c ≤ s.inLen →
    ∃ t, exec i s = .next t ∧
      t = { s with
        collen := c, replen := r, cur := s.cur + c, col := s.col + c + r
        run := if c = 0 then s.run else (s.inByte (s.cur + (c - 1))).toNat
        pixels := t.pixels } ∧
      WroteLanes s t (c + r) fun k =>
        if k < c then s.inByte (s.cur + k) else BitVec.ofInt 8 t.run

/-- LONG16, LONG32, RAW on every later row: `COLLEN` deltas from the stream, then `REPLEN` repeats of the
running delta, each added modulo 256 to the same lane of the pixel of the row decoded before in the same
column. The modulus is decision D15 of the spec, the row's initial running value D14. -/
def Obligations.DeltaRuns : Prop :=
  ∀ (i : Instr) (c r : Nat), i.ctx = .control → planarCtrl (controlByte i) = (c, r) →
  ∀ s : State, s.PlanarOk → s.krow ≠ 0 → s.col + c + r ≤ s.width → s.cur + c ≤ s.inLen →
    ∃ t, exec i s = .next t ∧
      t = { s with
        collen := c, replen := r, cur := s.cur + c, col := s.col + c + r
        run := if c = 0 then s.run else deltaValue (s.inByte (s.cur + (c - 1)))
        pixels := t.pixels } ∧
      WroteLanes s t (c + r) fun k =>
        BitVec.ofNat 8
          ((((s.pixelByte ((s.planarUpIndex + k) * 4 + s.planarLane)).toNat : Int) +
            (if k < c then deltaValue (s.inByte (s.cur + k)) else t.run)) % 256).toNat

/-- WHERE A PLANAR RUN OVERFLOWS: a run that passes the end of its row fails the call with RasterOverflow
at its control byte before any of its data is read (the spec's decisions D11, D16); only `COLLEN` and
`REPLEN` change besides; that `NATIVE` and `OUT` stay is log 21. -/
def Obligations.PlanarOverruns : Prop :=
  ∀ (i : Instr) (c r : Nat), i.ctx = .control → planarCtrl (controlByte i) = (c, r) →
  ∀ s : State, s.phase = .planar → s.pb = .four → s.width < s.col + c + r →
    exec i s = .next
      { s with
        collen := c, replen := r
        status := .error .rasterOverflow, errPos := s.orderStart, outLen := 0, phase := .failed }

/-- WHERE A PLANAR RUN UNDERRUNS: a run within its row whose data passes the end of the stream reads all
that is left and fails the call with StreamUnderrun at its control byte (decisions D17, D18); that `OUT`
stays is log 21. -/
def Obligations.PlanarUnderruns : Prop :=
  ∀ (i : Instr) (c r : Nat), i.ctx = .control → planarCtrl (controlByte i) = (c, r) →
  ∀ s : State, s.PlanarOk → s.col + c + r ≤ s.width → s.cur ≤ s.inLen → s.inLen < s.cur + c →
    ∃ t, exec i s = .next t ∧ t.phase = .failed ∧ t.status = .error .streamUnderrun ∧
      t.errPos = s.orderStart ∧ t.outLen = 0 ∧ t.out = s.out ∧ t.cur = s.inLen

/-- The planar loops: at the end of a row the next row of the plane begins, after the last row the next
plane, each at column 0 with running value 0 (decision D14 of the spec; a step of its own, log 10); after
the last row of plane 3 a stream read to its end goes on to the normalizer and any other fails with
LengthMismatch at the bytes read (decision D17). Nothing else changes; that `NATIVE` and `OUT` stay after
that failure is log 21. -/
def Obligations.PlanarLoops : Prop :=
  ∀ s : State, s.phase = .planar → s.cur ≠ 0 → s.width ≤ s.col →
    (s.krow + 1 < s.height → step s = .next { s with krow := s.krow + 1, col := 0, run := 0 }) ∧
    (s.height ≤ s.krow + 1 → s.plane < 3 →
      step s = .next { s with plane := s.plane + 1, krow := 0, col := 0, run := 0 }) ∧
    (s.height ≤ s.krow + 1 → 3 ≤ s.plane → s.cur = s.inLen →
      step s = .next { s with phase := .normalize }) ∧
    (s.height ≤ s.krow + 1 → 3 ≤ s.plane → s.cur ≠ s.inLen →
      step s = .next
        { s with
          status := .error .lengthMismatch, errPos := s.cur, outLen := 0, phase := .failed })

/-! ## The whole machine -/

/-- The invariant holds at power-on, and so does the one about what the engines have written. -/
def Obligations.ResetInv : Prop := State.reset.Inv ∧ State.reset.RasterInv

/-- THE INVARIANT EVERY STEP KEEPS: memories in canonical form, the cursor within the stream, the latches
the pre-check let through, the line and loop registers in range, the result registers as the phase says.
The phases are the spec's decision D1, the rows of the lines D2, `OUT_LEN` after a failure D21, the results
before the first call D27. -/
def Obligations.StepKeepsInv : Prop :=
  ∀ s t : State, s.Inv → step s = .next t → t.Inv

/-- A state with the invariant always steps: no fault and no refusal of the model (log 11, log 12) is
reached, so no access outside a buffer is ever made. -/
def Obligations.InvSteps : Prop :=
  ∀ s : State, s.Inv → ∃ t, step s = .next t

/-- R102 and R140 as an invariant: what the engines have passed they have written in this call, so that
when a call reaches the normalizer every byte of the native buffer has been written in it. The row of each
scanline is the spec's decision D2. -/
def Obligations.StepKeepsRaster : Prop :=
  ∀ s t : State, s.Inv → s.RasterInv → step s = .next t → t.RasterInv

/-- R13, R42: during a call no step writes a configuration latch or the input stream, and the calls still
to make stay. -/
def Obligations.LatchesReadOnly : Prop :=
  ∀ s t : State, s.Busy → step s = .next t →
    t.inLen = s.inLen ∧ t.srcW = s.srcW ∧ t.srcH = s.srcH ∧
    t.dstL = s.dstL ∧ t.dstT = s.dstT ∧ t.dstR = s.dstR ∧ t.dstB = s.dstB ∧ t.bpp = s.bpp ∧
    t.input = s.input ∧ t.calls = s.calls

/-- R14, R15: during a call the cursor never moves backwards and never passes the end of the stream. -/
def Obligations.CursorMoves : Prop :=
  ∀ s t : State, s.Busy → s.cur ≤ s.inLen → step s = .next t → s.cur ≤ t.cur ∧ t.cur ≤ t.inLen

/-- The phases follow each other as 10_state.md section 1 says (the spec's decision D1 for their names). -/
def Obligations.PhaseOrder : Prop :=
  ∀ s t : State, step s = .next t →
    (¬ s.Busy → t.phase = .validate ∨ t = s) ∧
    (s.phase = .validate → t.phase = .scan ∨ t.phase = .planar ∨ t.phase = .failed) ∧
    (s.phase = .scan → t.phase = .scan ∨ t.phase = .normalize ∨ t.phase = .failed) ∧
    (s.phase = .planar → t.phase = .planar ∨ t.phase = .normalize ∨ t.phase = .failed) ∧
    (s.phase = .normalize → t.phase = .done ∨ t.phase = .failed)

/-- The result registers change at the end of a call only, and no step of a call before its end changes
`OUT`: a step that leaves a call in progress keeps all four, one that ends it in a failure keeps `OUT`, sets
`OUT_LEN` to 0 and leaves a failure's code, and with no call in progress the result registers stay, when the
next call starts too, and `OUT` stays until then. `OUT_LEN` 0 after a failure is the spec's decision D21;
that `OUT` stays there is log 21, and that the start of a call empties it is log 4. -/
def Obligations.ResultsAtEnd : Prop :=
  ∀ s t : State, step s = .next t →
    (s.Busy → t.Busy →
      t.status = s.status ∧ t.errPos = s.errPos ∧ t.outLen = s.outLen ∧ t.out = s.out) ∧
    (s.Busy → t.phase = .failed → t.out = s.out ∧ t.outLen = 0 ∧ ∃ e, t.status = .error e) ∧
    (¬ s.Busy →
      t.status = s.status ∧ t.errPos = s.errPos ∧ t.outLen = s.outLen ∧
      t.out = if s.calls = [] then s.out else [])

/-- `MIX` is written by the SetMix orders only, `COLOUR1` by the Bicolour orders only, `COLOUR2` by the
Colour and Bicolour orders only (10_state.md section 5): every other instruction leaves each of them. -/
def Obligations.PixelRegisterWriters : Prop :=
  ∀ (i : Instr) (s t : State), exec i s = .next t →
    (headerOpcode i ≠ some 6 → headerOpcode i ≠ some 7 → t.mix = s.mix) ∧
    (headerOpcode i ≠ some 8 → t.colour1 = s.colour1) ∧
    (headerOpcode i ≠ some 3 → headerOpcode i ≠ some 8 → t.colour2 = s.colour2)

/-- The two engines keep apart: no scanline order changes a planar register and no planar byte a scanline
one (10_state.md sections 4 to 6). -/
def Obligations.EnginesApart : Prop :=
  ∀ (i : Instr) (s t : State), exec i s = .next t →
    (i.ctx = .scan →
      t.plane = s.plane ∧ t.krow = s.krow ∧ t.col = s.col ∧ t.run = s.run ∧
      t.collen = s.collen ∧ t.replen = s.replen) ∧
    (i.ctx ≠ .scan →
      t.x = s.x ∧ t.rowsLeft = s.rowsLeft ∧ t.line = s.line ∧ t.prevLine = s.prevLine ∧
      t.lastOp = s.lastOp ∧ t.mask = s.mask ∧ t.mixMask = s.mixMask ∧ t.toggle = s.toggle ∧
      t.op = s.op ∧ t.count = s.count ∧ t.insert = s.insert ∧ t.fixed = s.fixed ∧
      t.mix = s.mix ∧ t.colour1 = s.colour1 ∧ t.colour2 = s.colour2)

/-- R89: every call ends, in a number of steps bounded by its stream and its raster's height, whatever the
state of the core before it. What counts as one step is the model's choice (log 8). -/
def Obligations.CallTerminates : Prop :=
  ∀ (s : State) (c : Call) (rest : List Call), ¬ s.Busy → s.calls = c :: rest →
    ∃ n t, n ≤ c.input.length + 4 * c.srcH.toNat + 4 ∧ Sys2Proof.core.run n s = .next t ∧
      t.Ended ∧ t.calls = rest

/-- R90: the outcome of a call depends on its stream and descriptor alone: from any two states with no
call in progress, the same call gives the same outcome, after the same number of steps (what counts as one step is the
model's choice, log 8). -/
def Obligations.OutcomeFunctionOfCall : Prop :=
  ∀ (s s' : State) (c : Call) (n : Nat) (t : State),
    ¬ s.Busy → ¬ s'.Busy → s.calls = [c] → s'.calls = [c] →
    1 ≤ n → Sys2Proof.core.run n s = .next t → t.Ended →
    ∃ t', Sys2Proof.core.run n s' = .next t' ∧ t'.Ended ∧ t'.callResult = t.callResult

end
end

