-- ==== Sys2Proof/Laws/Memory.lean ====
section
/-! SUPPORT. Laws of the memories: a read after a write, and the canonical form that every write keeps
(20_memory.md R48). -/

namespace Sys2Proof.Machine

@[simp] theorem Memory.read_nil (a : Nat) : Memory.read [] a = none := rfl

theorem Memory.read_write (m : Memory) (a : Nat) (b : Byte) (c : Nat) :
    (m.write a b).read c = if c = a then some b else m.read c := by
  induction m with
  | nil => simp [Memory.write, Memory.read, eq_comm]
  | cons cell m ih =>
    obtain ⟨k, v⟩ := cell
    simp only [Memory.write]
    split
    · simp only [Memory.read]
      by_cases h : c = a
      · simp [h]
      · simp [h, Ne.symm h]
    · split
      · next heq =>
        subst heq
        simp only [Memory.read, eq_comm (a := c)]
        split <;> rfl
      · simp only [Memory.read, ih]
        by_cases h : c = a
        · subst h
          have : k ≠ c := by omega
          simp [this]
        · simp [h]

@[simp] theorem Memory.read_write_self (m : Memory) (a : Nat) (b : Byte) :
    (m.write a b).read a = some b := by simp [Memory.read_write]

theorem Memory.read_write_ne (m : Memory) {a c : Nat} (b : Byte) (h : c ≠ a) :
    (m.write a b).read c = m.read c := by simp [Memory.read_write, h]

theorem Memory.mem_write {m : Memory} {a : Nat} {b : Byte} {cell : Host.Cell}
    (h : cell ∈ m.write a b) : cell = (a, b) ∨ cell ∈ m := by
  induction m with
  | nil => simpa [Memory.write] using h
  | cons c m ih =>
    obtain ⟨k, v⟩ := c
    simp only [Memory.write] at h
    split at h
    · simpa using h
    · split at h
      · rcases List.mem_cons.mp h with h | h
        · exact .inl h
        · exact .inr (List.mem_cons_of_mem _ h)
      · rcases List.mem_cons.mp h with h | h
        · exact .inr (h ▸ List.mem_cons_self)
        · rcases ih h with h | h
          · exact .inl h
          · exact .inr (List.mem_cons_of_mem _ h)

/-- Writing a byte keeps the canonical form. -/
theorem Memory.wf_write {m : Memory} (h : m.wf) (a : Nat) (b : Byte) : (m.write a b).wf := by
  induction m with
  | nil => simp [Memory.write]
  | cons c m ih =>
    obtain ⟨k, v⟩ := c
    obtain ⟨hk, hm⟩ := List.pairwise_cons.mp h
    simp only [Memory.write]
    split
    · next hlt =>
      refine List.pairwise_cons.mpr ⟨?_, h⟩
      intro q hq
      rcases List.mem_cons.mp hq with hq | hq
      · simpa [hq] using hlt
      · exact Nat.lt_trans hlt (hk q hq)
    · split
      · next heq =>
        subst heq
        exact List.pairwise_cons.mpr ⟨hk, hm⟩
      · next hnlt hne =>
        refine List.pairwise_cons.mpr ⟨?_, ih hm⟩
        intro q hq
        rcases Memory.mem_write hq with hq | hq
        · subst hq
          simp only
          omega
        · exact hk q hq

/-- Writing bytes at rising addresses keeps the canonical form. -/
theorem Memory.wf_writeList {m : Memory} (h : m.wf) (a : Nat) (bs : List Byte) :
    (m.writeList a bs).wf := by
  induction bs generalizing m a with
  | nil => exact h
  | cons b bs ih => exact ih (Memory.wf_write h a b) (a + 1)

/-- What every address reads as after bytes were written at rising addresses. -/
theorem Memory.read_writeList (m : Memory) (a : Nat) (bs : List Byte) (c : Nat) :
    (m.writeList a bs).read c =
      if a ≤ c ∧ c < a + bs.length then bs[c - a]? else m.read c := by
  induction bs generalizing m a with
  | nil =>
    have : ¬ (a ≤ c ∧ c < a) := by omega
    simp [Memory.writeList, this]
  | cons b bs ih =>
    simp only [Memory.writeList, ih, Memory.read_write, List.length_cons]
    by_cases h : c = a
    · subst h
      rw [if_neg (by omega), if_pos rfl, if_pos (by omega)]
      simp
    · by_cases h1 : a + 1 ≤ c ∧ c < a + 1 + bs.length
      · have h3 : c - a = (c - (a + 1)) + 1 := by omega
        rw [if_pos h1, if_pos (by omega), h3]
        simp
      · rw [if_neg h1, if_neg h, if_neg (by omega)]

end Sys2Proof.Machine
end

