-- ==== Sys2Proof/Laws/Raster.lean ====
section
/-! SUPPORT. Laws of the raster: the native index of a stream pixel, and pixels and lanes of the native
buffer after a write (20_memory.md R46 .. R49, 41_scanline_engine.md R92). -/

namespace Sys2Proof.Machine

/-! ## Indices -/

theorem row_lt {w h p : Nat} (hp : p < w * h) : p / w < h := by
  rcases Nat.eq_zero_or_pos w with rfl | hw
  · simp at hp
  · exact Nat.div_lt_of_lt_mul hp

theorem row_mul_add_lt {w h r c : Nat} (hr : r < h) (hc : c < w) : r * w + c < w * h := by
  calc r * w + c < r * w + w := by omega
    _ = (r + 1) * w := by ring
    _ ≤ h * w := Nat.mul_le_mul_right w hr
    _ = w * h := Nat.mul_comm h w

theorem row_mul_add_inj {w r c r' c' : Nat} (hc : c < w) (hc' : c' < w)
    (h : r * w + c = r' * w + c') : r = r' ∧ c = c' := by
  have hw : 0 < w := by omega
  have h1 : (r * w + c) / w = r := by
    rw [Nat.mul_comm, Nat.mul_add_div hw, Nat.div_eq_of_lt hc, Nat.add_zero]
  have h2 : (r' * w + c') / w = r' := by
    rw [Nat.mul_comm, Nat.mul_add_div hw, Nat.div_eq_of_lt hc', Nat.add_zero]
  have hr : r = r' := by rw [← h1, ← h2, h]
  subst hr
  exact ⟨rfl, by omega⟩

theorem State.streamIndex_lt {s : State} {p : Nat} (hp : p < s.area) : s.streamIndex p < s.area := by
  have hr := row_lt hp
  have hw : 0 < s.width := Nat.pos_of_ne_zero fun h => by
    simp only [State.area, h, Nat.zero_mul] at hp
    omega
  have hlt : s.height - 1 - p / s.width < s.height := by
    generalize p / s.width = q at hr ⊢
    omega
  exact row_mul_add_lt hlt (Nat.mod_lt _ hw)

theorem State.streamIndex_inj {s : State} {p q : Nat} (hp : p < s.area) (hq : q < s.area)
    (h : s.streamIndex p = s.streamIndex q) : p = q := by
  have hw : 0 < s.width := Nat.pos_of_ne_zero fun h => by
    simp only [State.area, h, Nat.zero_mul] at hp
    omega
  have h1 := row_lt hp
  have h2 := row_lt hq
  obtain ⟨ha, hb⟩ := row_mul_add_inj (Nat.mod_lt _ hw) (Nat.mod_lt _ hw) h
  have hd : p / s.width = q / s.width := by
    generalize p / s.width = d at h1 ha ⊢
    generalize q / s.width = e at h2 ha ⊢
    omega
  rw [← Nat.div_add_mod p s.width, ← Nat.div_add_mod q s.width, hd, hb]

/-- Every native pixel is some stream pixel. -/
theorem State.exists_streamIndex {s : State} {i : Nat} (hi : i < s.area) :
    ∃ p, p < s.area ∧ s.streamIndex p = i := by
  have hw : 0 < s.width := Nat.pos_of_ne_zero fun h => by
    simp only [State.area, h, Nat.zero_mul] at hi
    omega
  have hrow := row_lt hi
  have hmod := Nat.mod_lt i hw
  have hdm := Nat.div_add_mod i s.width
  generalize i / s.width = q at hrow hdm
  generalize i % s.width = c at hmod hdm
  have hlt : s.height - 1 - q < s.height := by omega
  refine ⟨(s.height - 1 - q) * s.width + c, row_mul_add_lt hlt hmod, ?_⟩
  have h1 : ((s.height - 1 - q) * s.width + c) / s.width = s.height - 1 - q := by
    rw [Nat.mul_comm, Nat.mul_add_div hw, Nat.div_eq_of_lt hmod, Nat.add_zero]
  have h2 : ((s.height - 1 - q) * s.width + c) % s.width = c := by
    rw [Nat.mul_comm, Nat.mul_add_mod, Nat.mod_eq_of_lt hmod]
  have h3 : s.height - 1 - (s.height - 1 - q) = q := by omega
  rw [State.streamIndex, h1, h2, h3, Nat.mul_comm]
  exact hdm

/-- The pixel one line back in the stream lies one row below in the native buffer. -/
theorem State.streamIndex_sub_width {s : State} {p : Nat} (hw : 0 < s.width) (hp : s.width ≤ p)
    (hlt : p < s.area) :
    (s.height - p / s.width) * s.width + p % s.width = s.streamIndex (p - s.width) := by
  have h1 : (p - s.width) / s.width = p / s.width - 1 := by
    conv_rhs => rw [show p = (p - s.width) + s.width by omega]
    rw [Nat.add_div_right _ hw, Nat.succ_sub_one]
  have h2 : (p - s.width) % s.width = p % s.width := by
    conv_rhs => rw [show p = (p - s.width) + s.width by omega]
    rw [Nat.add_mod_right]
  have h3 := row_lt hlt
  have h4 : 0 < p / s.width := Nat.div_pos hp hw
  rw [State.streamIndex, h1, h2]
  congr 2
  generalize p / s.width = d at h3 h4 ⊢
  omega

/-! ## Pixels of the native buffer -/

theorem PixelBytes.toNat_pos (pb : PixelBytes) : 0 < pb.toNat := by cases pb <;> decide

theorem Pixel.bytes_length (pb : PixelBytes) (p : Pixel) : (Pixel.bytes pb p).length = pb.toNat := by
  cases pb <;> rfl

theorem Pixel.fit_fit (pb : PixelBytes) (p : Pixel) : Pixel.fit pb (Pixel.fit pb p) = Pixel.fit pb p := by
  cases pb <;> rfl

/-- Two pixels' bytes do not overlap. -/
theorem byte_index_inj {n i j k l : Nat} (hk : k < n) (hl : l < n) (h : i * n + k = j * n + l) :
    i = j ∧ k = l := row_mul_add_inj hk hl h

/-- What every byte of the native buffer reads as after a pixel was stored. -/
theorem State.storePixel_read (s : State) (i : Nat) (v : Pixel) (a : Nat) :
    (s.storePixel i v).pixels.read a =
      if i * s.pb.toNat ≤ a ∧ a < i * s.pb.toNat + s.pb.toNat then
        (Pixel.bytes s.pb v)[a - i * s.pb.toNat]?
      else s.pixels.read a := by
  simp only [State.storePixel, Memory.read_writeList, Pixel.bytes_length]

theorem State.storePixel_pixelAt_self (s : State) (i : Nat) (v : Pixel) :
    (s.storePixel i v).pixelAt i = Pixel.fit s.pb v := by
  have hpb : (s.storePixel i v).pb = s.pb := rfl
  simp only [State.pixelAt, State.pixelByte, hpb, State.storePixel_read]
  cases s.pb <;> simp [Pixel.fit, PixelBytes.toNat, Pixel.bytes]

theorem State.storePixel_pixelAt_ne (s : State) {i j : Nat} (v : Pixel) (h : j ≠ i) :
    (s.storePixel i v).pixelAt j = s.pixelAt j := by
  have hpb : (s.storePixel i v).pb = s.pb := rfl
  have key : ∀ k, k < s.pb.toNat →
      (s.storePixel i v).pixelByte (j * s.pb.toNat + k) = s.pixelByte (j * s.pb.toNat + k) := by
    intro k hk
    have : ¬ (i * s.pb.toNat ≤ j * s.pb.toNat + k ∧
        j * s.pb.toNat + k < i * s.pb.toNat + s.pb.toNat) := by
      rintro ⟨h1, h2⟩
      obtain ⟨e, -⟩ := byte_index_inj (i := j) (j := i) (l := j * s.pb.toNat + k - i * s.pb.toNat)
        hk (by omega) (by omega)
      exact h e
    simp only [State.pixelByte, State.storePixel_read, if_neg this]
  simp only [State.pixelAt, hpb]
  cases hp : s.pb <;> simp only [hp, PixelBytes.toNat] at key <;>
    simp [Pixel.fit, PixelBytes.toNat] <;>
    first
      | exact ⟨by simpa using key 0 (by omega), key 1 (by omega)⟩
      | exact ⟨by simpa using key 0 (by omega), key 1 (by omega), key 2 (by omega)⟩
      | exact ⟨by simpa using key 0 (by omega), key 1 (by omega), key 2 (by omega), key 3 (by omega)⟩

/-- What every byte of the native buffer reads as after a lane was stored. -/
theorem State.storeLane_read (s : State) (i k : Nat) (b : Byte) (a : Nat) :
    (s.storeLane i k b).pixels.read a =
      if a = i * s.pb.toNat + k then some b else s.pixels.read a := by
  simp only [State.storeLane, Memory.read_write]

/-- Storing a pixel lists its bytes and unlists none. -/
theorem State.storePixel_has (s : State) (i : Nat) (v : Pixel) (a : Nat) :
    (s.storePixel i v).has a ↔
      (i * s.pb.toNat ≤ a ∧ a < i * s.pb.toNat + s.pb.toNat) ∨ s.has a := by
  simp only [State.has, State.storePixel_read]
  split
  · next h =>
    have : a - i * s.pb.toNat < (Pixel.bytes s.pb v).length := by
      rw [Pixel.bytes_length]
      omega
    simp [h, this]
  · next h => simp [h]

/-- Storing a lane lists its byte and unlists none. -/
theorem State.storeLane_has (s : State) (i k : Nat) (b : Byte) (a : Nat) :
    (s.storeLane i k b).has a ↔ a = i * s.pb.toNat + k ∨ s.has a := by
  simp only [State.has, State.storeLane_read]
  split <;> simp_all

end Sys2Proof.Machine
end

