-- ==== Sys2Proof/Laws/State.lean ====
section
/-! SUPPORT. One lemma per field for each named update of the state, so that no proof unfolds a record
update. Every one is true by definition. -/

namespace Sys2Proof.Machine

variable (s : State)

/-! ### `failEntry` -/

@[simp] theorem State.failEntry_phase (e : Failure) (pos : Nat) : (s.failEntry e pos).phase = .failed := rfl
@[simp] theorem State.failEntry_inLen (e : Failure) (pos : Nat) : (s.failEntry e pos).inLen = s.inLen := rfl
@[simp] theorem State.failEntry_srcW (e : Failure) (pos : Nat) : (s.failEntry e pos).srcW = s.srcW := rfl
@[simp] theorem State.failEntry_srcH (e : Failure) (pos : Nat) : (s.failEntry e pos).srcH = s.srcH := rfl
@[simp] theorem State.failEntry_dstL (e : Failure) (pos : Nat) : (s.failEntry e pos).dstL = s.dstL := rfl
@[simp] theorem State.failEntry_dstT (e : Failure) (pos : Nat) : (s.failEntry e pos).dstT = s.dstT := rfl
@[simp] theorem State.failEntry_dstR (e : Failure) (pos : Nat) : (s.failEntry e pos).dstR = s.dstR := rfl
@[simp] theorem State.failEntry_dstB (e : Failure) (pos : Nat) : (s.failEntry e pos).dstB = s.dstB := rfl
@[simp] theorem State.failEntry_bpp (e : Failure) (pos : Nat) : (s.failEntry e pos).bpp = s.bpp := rfl
@[simp] theorem State.failEntry_pb (e : Failure) (pos : Nat) : (s.failEntry e pos).pb = s.pb := rfl
@[simp] theorem State.failEntry_dstW (e : Failure) (pos : Nat) : (s.failEntry e pos).dstW = s.dstW := rfl
@[simp] theorem State.failEntry_dstH (e : Failure) (pos : Nat) : (s.failEntry e pos).dstH = s.dstH := rfl
@[simp] theorem State.failEntry_cur (e : Failure) (pos : Nat) : (s.failEntry e pos).cur = s.cur := rfl
@[simp] theorem State.failEntry_orderStart (e : Failure) (pos : Nat) : (s.failEntry e pos).orderStart = s.orderStart := rfl
@[simp] theorem State.failEntry_x (e : Failure) (pos : Nat) : (s.failEntry e pos).x = s.x := rfl
@[simp] theorem State.failEntry_rowsLeft (e : Failure) (pos : Nat) : (s.failEntry e pos).rowsLeft = s.rowsLeft := rfl
@[simp] theorem State.failEntry_line (e : Failure) (pos : Nat) : (s.failEntry e pos).line = s.line := rfl
@[simp] theorem State.failEntry_prevLine (e : Failure) (pos : Nat) : (s.failEntry e pos).prevLine = s.prevLine := rfl
@[simp] theorem State.failEntry_lastOp (e : Failure) (pos : Nat) : (s.failEntry e pos).lastOp = s.lastOp := rfl
@[simp] theorem State.failEntry_mask (e : Failure) (pos : Nat) : (s.failEntry e pos).mask = s.mask := rfl
@[simp] theorem State.failEntry_mixMask (e : Failure) (pos : Nat) : (s.failEntry e pos).mixMask = s.mixMask := rfl
@[simp] theorem State.failEntry_toggle (e : Failure) (pos : Nat) : (s.failEntry e pos).toggle = s.toggle := rfl
@[simp] theorem State.failEntry_op (e : Failure) (pos : Nat) : (s.failEntry e pos).op = s.op := rfl
@[simp] theorem State.failEntry_count (e : Failure) (pos : Nat) : (s.failEntry e pos).count = s.count := rfl
@[simp] theorem State.failEntry_insert (e : Failure) (pos : Nat) : (s.failEntry e pos).insert = s.insert := rfl
@[simp] theorem State.failEntry_fixed (e : Failure) (pos : Nat) : (s.failEntry e pos).fixed = s.fixed := rfl
@[simp] theorem State.failEntry_mix (e : Failure) (pos : Nat) : (s.failEntry e pos).mix = s.mix := rfl
@[simp] theorem State.failEntry_colour1 (e : Failure) (pos : Nat) : (s.failEntry e pos).colour1 = s.colour1 := rfl
@[simp] theorem State.failEntry_colour2 (e : Failure) (pos : Nat) : (s.failEntry e pos).colour2 = s.colour2 := rfl
@[simp] theorem State.failEntry_plane (e : Failure) (pos : Nat) : (s.failEntry e pos).plane = s.plane := rfl
@[simp] theorem State.failEntry_krow (e : Failure) (pos : Nat) : (s.failEntry e pos).krow = s.krow := rfl
@[simp] theorem State.failEntry_col (e : Failure) (pos : Nat) : (s.failEntry e pos).col = s.col := rfl
@[simp] theorem State.failEntry_run (e : Failure) (pos : Nat) : (s.failEntry e pos).run = s.run := rfl
@[simp] theorem State.failEntry_collen (e : Failure) (pos : Nat) : (s.failEntry e pos).collen = s.collen := rfl
@[simp] theorem State.failEntry_replen (e : Failure) (pos : Nat) : (s.failEntry e pos).replen = s.replen := rfl
@[simp] theorem State.failEntry_status (e : Failure) (pos : Nat) : (s.failEntry e pos).status = .error e := rfl
@[simp] theorem State.failEntry_errPos (e : Failure) (pos : Nat) : (s.failEntry e pos).errPos = pos := rfl
@[simp] theorem State.failEntry_outLen (e : Failure) (pos : Nat) : (s.failEntry e pos).outLen = 0 := rfl
@[simp] theorem State.failEntry_input (e : Failure) (pos : Nat) : (s.failEntry e pos).input = s.input := rfl
@[simp] theorem State.failEntry_pixels (e : Failure) (pos : Nat) : (s.failEntry e pos).pixels = s.pixels := rfl
@[simp] theorem State.failEntry_out (e : Failure) (pos : Nat) : (s.failEntry e pos).out = s.out := rfl
@[simp] theorem State.failEntry_calls (e : Failure) (pos : Nat) : (s.failEntry e pos).calls = s.calls := rfl

/-! ### `advance` -/

@[simp] theorem State.advance_phase (n : Nat) : (s.advance n).phase = s.phase := rfl
@[simp] theorem State.advance_inLen (n : Nat) : (s.advance n).inLen = s.inLen := rfl
@[simp] theorem State.advance_srcW (n : Nat) : (s.advance n).srcW = s.srcW := rfl
@[simp] theorem State.advance_srcH (n : Nat) : (s.advance n).srcH = s.srcH := rfl
@[simp] theorem State.advance_dstL (n : Nat) : (s.advance n).dstL = s.dstL := rfl
@[simp] theorem State.advance_dstT (n : Nat) : (s.advance n).dstT = s.dstT := rfl
@[simp] theorem State.advance_dstR (n : Nat) : (s.advance n).dstR = s.dstR := rfl
@[simp] theorem State.advance_dstB (n : Nat) : (s.advance n).dstB = s.dstB := rfl
@[simp] theorem State.advance_bpp (n : Nat) : (s.advance n).bpp = s.bpp := rfl
@[simp] theorem State.advance_pb (n : Nat) : (s.advance n).pb = s.pb := rfl
@[simp] theorem State.advance_dstW (n : Nat) : (s.advance n).dstW = s.dstW := rfl
@[simp] theorem State.advance_dstH (n : Nat) : (s.advance n).dstH = s.dstH := rfl
@[simp] theorem State.advance_cur (n : Nat) : (s.advance n).cur = s.cur + n := rfl
@[simp] theorem State.advance_orderStart (n : Nat) : (s.advance n).orderStart = s.orderStart := rfl
@[simp] theorem State.advance_x (n : Nat) : (s.advance n).x = s.x := rfl
@[simp] theorem State.advance_rowsLeft (n : Nat) : (s.advance n).rowsLeft = s.rowsLeft := rfl
@[simp] theorem State.advance_line (n : Nat) : (s.advance n).line = s.line := rfl
@[simp] theorem State.advance_prevLine (n : Nat) : (s.advance n).prevLine = s.prevLine := rfl
@[simp] theorem State.advance_lastOp (n : Nat) : (s.advance n).lastOp = s.lastOp := rfl
@[simp] theorem State.advance_mask (n : Nat) : (s.advance n).mask = s.mask := rfl
@[simp] theorem State.advance_mixMask (n : Nat) : (s.advance n).mixMask = s.mixMask := rfl
@[simp] theorem State.advance_toggle (n : Nat) : (s.advance n).toggle = s.toggle := rfl
@[simp] theorem State.advance_op (n : Nat) : (s.advance n).op = s.op := rfl
@[simp] theorem State.advance_count (n : Nat) : (s.advance n).count = s.count := rfl
@[simp] theorem State.advance_insert (n : Nat) : (s.advance n).insert = s.insert := rfl
@[simp] theorem State.advance_fixed (n : Nat) : (s.advance n).fixed = s.fixed := rfl
@[simp] theorem State.advance_mix (n : Nat) : (s.advance n).mix = s.mix := rfl
@[simp] theorem State.advance_colour1 (n : Nat) : (s.advance n).colour1 = s.colour1 := rfl
@[simp] theorem State.advance_colour2 (n : Nat) : (s.advance n).colour2 = s.colour2 := rfl
@[simp] theorem State.advance_plane (n : Nat) : (s.advance n).plane = s.plane := rfl
@[simp] theorem State.advance_krow (n : Nat) : (s.advance n).krow = s.krow := rfl
@[simp] theorem State.advance_col (n : Nat) : (s.advance n).col = s.col := rfl
@[simp] theorem State.advance_run (n : Nat) : (s.advance n).run = s.run := rfl
@[simp] theorem State.advance_collen (n : Nat) : (s.advance n).collen = s.collen := rfl
@[simp] theorem State.advance_replen (n : Nat) : (s.advance n).replen = s.replen := rfl
@[simp] theorem State.advance_status (n : Nat) : (s.advance n).status = s.status := rfl
@[simp] theorem State.advance_errPos (n : Nat) : (s.advance n).errPos = s.errPos := rfl
@[simp] theorem State.advance_outLen (n : Nat) : (s.advance n).outLen = s.outLen := rfl
@[simp] theorem State.advance_input (n : Nat) : (s.advance n).input = s.input := rfl
@[simp] theorem State.advance_pixels (n : Nat) : (s.advance n).pixels = s.pixels := rfl
@[simp] theorem State.advance_out (n : Nat) : (s.advance n).out = s.out := rfl
@[simp] theorem State.advance_calls (n : Nat) : (s.advance n).calls = s.calls := rfl

/-! ### `startOrder` -/

@[simp] theorem State.startOrder_phase : (s.startOrder).phase = s.phase := rfl
@[simp] theorem State.startOrder_inLen : (s.startOrder).inLen = s.inLen := rfl
@[simp] theorem State.startOrder_srcW : (s.startOrder).srcW = s.srcW := rfl
@[simp] theorem State.startOrder_srcH : (s.startOrder).srcH = s.srcH := rfl
@[simp] theorem State.startOrder_dstL : (s.startOrder).dstL = s.dstL := rfl
@[simp] theorem State.startOrder_dstT : (s.startOrder).dstT = s.dstT := rfl
@[simp] theorem State.startOrder_dstR : (s.startOrder).dstR = s.dstR := rfl
@[simp] theorem State.startOrder_dstB : (s.startOrder).dstB = s.dstB := rfl
@[simp] theorem State.startOrder_bpp : (s.startOrder).bpp = s.bpp := rfl
@[simp] theorem State.startOrder_pb : (s.startOrder).pb = s.pb := rfl
@[simp] theorem State.startOrder_dstW : (s.startOrder).dstW = s.dstW := rfl
@[simp] theorem State.startOrder_dstH : (s.startOrder).dstH = s.dstH := rfl
@[simp] theorem State.startOrder_cur : (s.startOrder).cur = s.cur := rfl
@[simp] theorem State.startOrder_orderStart : (s.startOrder).orderStart = s.cur := rfl
@[simp] theorem State.startOrder_x : (s.startOrder).x = s.x := rfl
@[simp] theorem State.startOrder_rowsLeft : (s.startOrder).rowsLeft = s.rowsLeft := rfl
@[simp] theorem State.startOrder_line : (s.startOrder).line = s.line := rfl
@[simp] theorem State.startOrder_prevLine : (s.startOrder).prevLine = s.prevLine := rfl
@[simp] theorem State.startOrder_lastOp : (s.startOrder).lastOp = s.lastOp := rfl
@[simp] theorem State.startOrder_mask : (s.startOrder).mask = s.mask := rfl
@[simp] theorem State.startOrder_mixMask : (s.startOrder).mixMask = s.mixMask := rfl
@[simp] theorem State.startOrder_toggle : (s.startOrder).toggle = s.toggle := rfl
@[simp] theorem State.startOrder_op : (s.startOrder).op = s.op := rfl
@[simp] theorem State.startOrder_count : (s.startOrder).count = s.count := rfl
@[simp] theorem State.startOrder_insert : (s.startOrder).insert = s.insert := rfl
@[simp] theorem State.startOrder_fixed : (s.startOrder).fixed = s.fixed := rfl
@[simp] theorem State.startOrder_mix : (s.startOrder).mix = s.mix := rfl
@[simp] theorem State.startOrder_colour1 : (s.startOrder).colour1 = s.colour1 := rfl
@[simp] theorem State.startOrder_colour2 : (s.startOrder).colour2 = s.colour2 := rfl
@[simp] theorem State.startOrder_plane : (s.startOrder).plane = s.plane := rfl
@[simp] theorem State.startOrder_krow : (s.startOrder).krow = s.krow := rfl
@[simp] theorem State.startOrder_col : (s.startOrder).col = s.col := rfl
@[simp] theorem State.startOrder_run : (s.startOrder).run = s.run := rfl
@[simp] theorem State.startOrder_collen : (s.startOrder).collen = s.collen := rfl
@[simp] theorem State.startOrder_replen : (s.startOrder).replen = s.replen := rfl
@[simp] theorem State.startOrder_status : (s.startOrder).status = s.status := rfl
@[simp] theorem State.startOrder_errPos : (s.startOrder).errPos = s.errPos := rfl
@[simp] theorem State.startOrder_outLen : (s.startOrder).outLen = s.outLen := rfl
@[simp] theorem State.startOrder_input : (s.startOrder).input = s.input := rfl
@[simp] theorem State.startOrder_pixels : (s.startOrder).pixels = s.pixels := rfl
@[simp] theorem State.startOrder_out : (s.startOrder).out = s.out := rfl
@[simp] theorem State.startOrder_calls : (s.startOrder).calls = s.calls := rfl

/-! ### `openLine` -/

@[simp] theorem State.openLine_phase : (s.openLine).phase = s.phase := rfl
@[simp] theorem State.openLine_inLen : (s.openLine).inLen = s.inLen := rfl
@[simp] theorem State.openLine_srcW : (s.openLine).srcW = s.srcW := rfl
@[simp] theorem State.openLine_srcH : (s.openLine).srcH = s.srcH := rfl
@[simp] theorem State.openLine_dstL : (s.openLine).dstL = s.dstL := rfl
@[simp] theorem State.openLine_dstT : (s.openLine).dstT = s.dstT := rfl
@[simp] theorem State.openLine_dstR : (s.openLine).dstR = s.dstR := rfl
@[simp] theorem State.openLine_dstB : (s.openLine).dstB = s.dstB := rfl
@[simp] theorem State.openLine_bpp : (s.openLine).bpp = s.bpp := rfl
@[simp] theorem State.openLine_pb : (s.openLine).pb = s.pb := rfl
@[simp] theorem State.openLine_dstW : (s.openLine).dstW = s.dstW := rfl
@[simp] theorem State.openLine_dstH : (s.openLine).dstH = s.dstH := rfl
@[simp] theorem State.openLine_cur : (s.openLine).cur = s.cur := rfl
@[simp] theorem State.openLine_orderStart : (s.openLine).orderStart = s.orderStart := rfl
@[simp] theorem State.openLine_x : (s.openLine).x = 0 := rfl
@[simp] theorem State.openLine_rowsLeft : (s.openLine).rowsLeft = s.rowsLeft - 1 := rfl
@[simp] theorem State.openLine_line : (s.openLine).line = some (s.rowsLeft - 1) := rfl
@[simp] theorem State.openLine_prevLine : (s.openLine).prevLine = s.line := rfl
@[simp] theorem State.openLine_lastOp : (s.openLine).lastOp = s.lastOp := rfl
@[simp] theorem State.openLine_mask : (s.openLine).mask = s.mask := rfl
@[simp] theorem State.openLine_mixMask : (s.openLine).mixMask = s.mixMask := rfl
@[simp] theorem State.openLine_toggle : (s.openLine).toggle = s.toggle := rfl
@[simp] theorem State.openLine_op : (s.openLine).op = s.op := rfl
@[simp] theorem State.openLine_count : (s.openLine).count = s.count := rfl
@[simp] theorem State.openLine_insert : (s.openLine).insert = s.insert := rfl
@[simp] theorem State.openLine_fixed : (s.openLine).fixed = s.fixed := rfl
@[simp] theorem State.openLine_mix : (s.openLine).mix = s.mix := rfl
@[simp] theorem State.openLine_colour1 : (s.openLine).colour1 = s.colour1 := rfl
@[simp] theorem State.openLine_colour2 : (s.openLine).colour2 = s.colour2 := rfl
@[simp] theorem State.openLine_plane : (s.openLine).plane = s.plane := rfl
@[simp] theorem State.openLine_krow : (s.openLine).krow = s.krow := rfl
@[simp] theorem State.openLine_col : (s.openLine).col = s.col := rfl
@[simp] theorem State.openLine_run : (s.openLine).run = s.run := rfl
@[simp] theorem State.openLine_collen : (s.openLine).collen = s.collen := rfl
@[simp] theorem State.openLine_replen : (s.openLine).replen = s.replen := rfl
@[simp] theorem State.openLine_status : (s.openLine).status = s.status := rfl
@[simp] theorem State.openLine_errPos : (s.openLine).errPos = s.errPos := rfl
@[simp] theorem State.openLine_outLen : (s.openLine).outLen = s.outLen := rfl
@[simp] theorem State.openLine_input : (s.openLine).input = s.input := rfl
@[simp] theorem State.openLine_pixels : (s.openLine).pixels = s.pixels := rfl
@[simp] theorem State.openLine_out : (s.openLine).out = s.out := rfl
@[simp] theorem State.openLine_calls : (s.openLine).calls = s.calls := rfl

/-! ### `nextColumn` -/

@[simp] theorem State.nextColumn_phase : (s.nextColumn).phase = s.phase := rfl
@[simp] theorem State.nextColumn_inLen : (s.nextColumn).inLen = s.inLen := rfl
@[simp] theorem State.nextColumn_srcW : (s.nextColumn).srcW = s.srcW := rfl
@[simp] theorem State.nextColumn_srcH : (s.nextColumn).srcH = s.srcH := rfl
@[simp] theorem State.nextColumn_dstL : (s.nextColumn).dstL = s.dstL := rfl
@[simp] theorem State.nextColumn_dstT : (s.nextColumn).dstT = s.dstT := rfl
@[simp] theorem State.nextColumn_dstR : (s.nextColumn).dstR = s.dstR := rfl
@[simp] theorem State.nextColumn_dstB : (s.nextColumn).dstB = s.dstB := rfl
@[simp] theorem State.nextColumn_bpp : (s.nextColumn).bpp = s.bpp := rfl
@[simp] theorem State.nextColumn_pb : (s.nextColumn).pb = s.pb := rfl
@[simp] theorem State.nextColumn_dstW : (s.nextColumn).dstW = s.dstW := rfl
@[simp] theorem State.nextColumn_dstH : (s.nextColumn).dstH = s.dstH := rfl
@[simp] theorem State.nextColumn_cur : (s.nextColumn).cur = s.cur := rfl
@[simp] theorem State.nextColumn_orderStart : (s.nextColumn).orderStart = s.orderStart := rfl
@[simp] theorem State.nextColumn_x : (s.nextColumn).x = s.x + 1 := rfl
@[simp] theorem State.nextColumn_rowsLeft : (s.nextColumn).rowsLeft = s.rowsLeft := rfl
@[simp] theorem State.nextColumn_line : (s.nextColumn).line = s.line := rfl
@[simp] theorem State.nextColumn_prevLine : (s.nextColumn).prevLine = s.prevLine := rfl
@[simp] theorem State.nextColumn_lastOp : (s.nextColumn).lastOp = s.lastOp := rfl
@[simp] theorem State.nextColumn_mask : (s.nextColumn).mask = s.mask := rfl
@[simp] theorem State.nextColumn_mixMask : (s.nextColumn).mixMask = s.mixMask := rfl
@[simp] theorem State.nextColumn_toggle : (s.nextColumn).toggle = s.toggle := rfl
@[simp] theorem State.nextColumn_op : (s.nextColumn).op = s.op := rfl
@[simp] theorem State.nextColumn_count : (s.nextColumn).count = s.count := rfl
@[simp] theorem State.nextColumn_insert : (s.nextColumn).insert = s.insert := rfl
@[simp] theorem State.nextColumn_fixed : (s.nextColumn).fixed = s.fixed := rfl
@[simp] theorem State.nextColumn_mix : (s.nextColumn).mix = s.mix := rfl
@[simp] theorem State.nextColumn_colour1 : (s.nextColumn).colour1 = s.colour1 := rfl
@[simp] theorem State.nextColumn_colour2 : (s.nextColumn).colour2 = s.colour2 := rfl
@[simp] theorem State.nextColumn_plane : (s.nextColumn).plane = s.plane := rfl
@[simp] theorem State.nextColumn_krow : (s.nextColumn).krow = s.krow := rfl
@[simp] theorem State.nextColumn_col : (s.nextColumn).col = s.col := rfl
@[simp] theorem State.nextColumn_run : (s.nextColumn).run = s.run := rfl
@[simp] theorem State.nextColumn_collen : (s.nextColumn).collen = s.collen := rfl
@[simp] theorem State.nextColumn_replen : (s.nextColumn).replen = s.replen := rfl
@[simp] theorem State.nextColumn_status : (s.nextColumn).status = s.status := rfl
@[simp] theorem State.nextColumn_errPos : (s.nextColumn).errPos = s.errPos := rfl
@[simp] theorem State.nextColumn_outLen : (s.nextColumn).outLen = s.outLen := rfl
@[simp] theorem State.nextColumn_input : (s.nextColumn).input = s.input := rfl
@[simp] theorem State.nextColumn_pixels : (s.nextColumn).pixels = s.pixels := rfl
@[simp] theorem State.nextColumn_out : (s.nextColumn).out = s.out := rfl
@[simp] theorem State.nextColumn_calls : (s.nextColumn).calls = s.calls := rfl

/-! ### `storePixel` -/

@[simp] theorem State.storePixel_phase (i : Nat) (v : Pixel) : (s.storePixel i v).phase = s.phase := rfl
@[simp] theorem State.storePixel_inLen (i : Nat) (v : Pixel) : (s.storePixel i v).inLen = s.inLen := rfl
@[simp] theorem State.storePixel_srcW (i : Nat) (v : Pixel) : (s.storePixel i v).srcW = s.srcW := rfl
@[simp] theorem State.storePixel_srcH (i : Nat) (v : Pixel) : (s.storePixel i v).srcH = s.srcH := rfl
@[simp] theorem State.storePixel_dstL (i : Nat) (v : Pixel) : (s.storePixel i v).dstL = s.dstL := rfl
@[simp] theorem State.storePixel_dstT (i : Nat) (v : Pixel) : (s.storePixel i v).dstT = s.dstT := rfl
@[simp] theorem State.storePixel_dstR (i : Nat) (v : Pixel) : (s.storePixel i v).dstR = s.dstR := rfl
@[simp] theorem State.storePixel_dstB (i : Nat) (v : Pixel) : (s.storePixel i v).dstB = s.dstB := rfl
@[simp] theorem State.storePixel_bpp (i : Nat) (v : Pixel) : (s.storePixel i v).bpp = s.bpp := rfl
@[simp] theorem State.storePixel_pb (i : Nat) (v : Pixel) : (s.storePixel i v).pb = s.pb := rfl
@[simp] theorem State.storePixel_dstW (i : Nat) (v : Pixel) : (s.storePixel i v).dstW = s.dstW := rfl
@[simp] theorem State.storePixel_dstH (i : Nat) (v : Pixel) : (s.storePixel i v).dstH = s.dstH := rfl
@[simp] theorem State.storePixel_cur (i : Nat) (v : Pixel) : (s.storePixel i v).cur = s.cur := rfl
@[simp] theorem State.storePixel_orderStart (i : Nat) (v : Pixel) : (s.storePixel i v).orderStart = s.orderStart := rfl
@[simp] theorem State.storePixel_x (i : Nat) (v : Pixel) : (s.storePixel i v).x = s.x := rfl
@[simp] theorem State.storePixel_rowsLeft (i : Nat) (v : Pixel) : (s.storePixel i v).rowsLeft = s.rowsLeft := rfl
@[simp] theorem State.storePixel_line (i : Nat) (v : Pixel) : (s.storePixel i v).line = s.line := rfl
@[simp] theorem State.storePixel_prevLine (i : Nat) (v : Pixel) : (s.storePixel i v).prevLine = s.prevLine := rfl
@[simp] theorem State.storePixel_lastOp (i : Nat) (v : Pixel) : (s.storePixel i v).lastOp = s.lastOp := rfl
@[simp] theorem State.storePixel_mask (i : Nat) (v : Pixel) : (s.storePixel i v).mask = s.mask := rfl
@[simp] theorem State.storePixel_mixMask (i : Nat) (v : Pixel) : (s.storePixel i v).mixMask = s.mixMask := rfl
@[simp] theorem State.storePixel_toggle (i : Nat) (v : Pixel) : (s.storePixel i v).toggle = s.toggle := rfl
@[simp] theorem State.storePixel_op (i : Nat) (v : Pixel) : (s.storePixel i v).op = s.op := rfl
@[simp] theorem State.storePixel_count (i : Nat) (v : Pixel) : (s.storePixel i v).count = s.count := rfl
@[simp] theorem State.storePixel_insert (i : Nat) (v : Pixel) : (s.storePixel i v).insert = s.insert := rfl
@[simp] theorem State.storePixel_fixed (i : Nat) (v : Pixel) : (s.storePixel i v).fixed = s.fixed := rfl
@[simp] theorem State.storePixel_mix (i : Nat) (v : Pixel) : (s.storePixel i v).mix = s.mix := rfl
@[simp] theorem State.storePixel_colour1 (i : Nat) (v : Pixel) : (s.storePixel i v).colour1 = s.colour1 := rfl
@[simp] theorem State.storePixel_colour2 (i : Nat) (v : Pixel) : (s.storePixel i v).colour2 = s.colour2 := rfl
@[simp] theorem State.storePixel_plane (i : Nat) (v : Pixel) : (s.storePixel i v).plane = s.plane := rfl
@[simp] theorem State.storePixel_krow (i : Nat) (v : Pixel) : (s.storePixel i v).krow = s.krow := rfl
@[simp] theorem State.storePixel_col (i : Nat) (v : Pixel) : (s.storePixel i v).col = s.col := rfl
@[simp] theorem State.storePixel_run (i : Nat) (v : Pixel) : (s.storePixel i v).run = s.run := rfl
@[simp] theorem State.storePixel_collen (i : Nat) (v : Pixel) : (s.storePixel i v).collen = s.collen := rfl
@[simp] theorem State.storePixel_replen (i : Nat) (v : Pixel) : (s.storePixel i v).replen = s.replen := rfl
@[simp] theorem State.storePixel_status (i : Nat) (v : Pixel) : (s.storePixel i v).status = s.status := rfl
@[simp] theorem State.storePixel_errPos (i : Nat) (v : Pixel) : (s.storePixel i v).errPos = s.errPos := rfl
@[simp] theorem State.storePixel_outLen (i : Nat) (v : Pixel) : (s.storePixel i v).outLen = s.outLen := rfl
@[simp] theorem State.storePixel_input (i : Nat) (v : Pixel) : (s.storePixel i v).input = s.input := rfl
@[simp] theorem State.storePixel_pixels (i : Nat) (v : Pixel) : (s.storePixel i v).pixels = s.pixels.writeList (i * s.pb.toNat) (Pixel.bytes s.pb v) := rfl
@[simp] theorem State.storePixel_out (i : Nat) (v : Pixel) : (s.storePixel i v).out = s.out := rfl
@[simp] theorem State.storePixel_calls (i : Nat) (v : Pixel) : (s.storePixel i v).calls = s.calls := rfl

/-! ### `storeLane` -/

@[simp] theorem State.storeLane_phase (i k : Nat) (b : Byte) : (s.storeLane i k b).phase = s.phase := rfl
@[simp] theorem State.storeLane_inLen (i k : Nat) (b : Byte) : (s.storeLane i k b).inLen = s.inLen := rfl
@[simp] theorem State.storeLane_srcW (i k : Nat) (b : Byte) : (s.storeLane i k b).srcW = s.srcW := rfl
@[simp] theorem State.storeLane_srcH (i k : Nat) (b : Byte) : (s.storeLane i k b).srcH = s.srcH := rfl
@[simp] theorem State.storeLane_dstL (i k : Nat) (b : Byte) : (s.storeLane i k b).dstL = s.dstL := rfl
@[simp] theorem State.storeLane_dstT (i k : Nat) (b : Byte) : (s.storeLane i k b).dstT = s.dstT := rfl
@[simp] theorem State.storeLane_dstR (i k : Nat) (b : Byte) : (s.storeLane i k b).dstR = s.dstR := rfl
@[simp] theorem State.storeLane_dstB (i k : Nat) (b : Byte) : (s.storeLane i k b).dstB = s.dstB := rfl
@[simp] theorem State.storeLane_bpp (i k : Nat) (b : Byte) : (s.storeLane i k b).bpp = s.bpp := rfl
@[simp] theorem State.storeLane_pb (i k : Nat) (b : Byte) : (s.storeLane i k b).pb = s.pb := rfl
@[simp] theorem State.storeLane_dstW (i k : Nat) (b : Byte) : (s.storeLane i k b).dstW = s.dstW := rfl
@[simp] theorem State.storeLane_dstH (i k : Nat) (b : Byte) : (s.storeLane i k b).dstH = s.dstH := rfl
@[simp] theorem State.storeLane_cur (i k : Nat) (b : Byte) : (s.storeLane i k b).cur = s.cur := rfl
@[simp] theorem State.storeLane_orderStart (i k : Nat) (b : Byte) : (s.storeLane i k b).orderStart = s.orderStart := rfl
@[simp] theorem State.storeLane_x (i k : Nat) (b : Byte) : (s.storeLane i k b).x = s.x := rfl
@[simp] theorem State.storeLane_rowsLeft (i k : Nat) (b : Byte) : (s.storeLane i k b).rowsLeft = s.rowsLeft := rfl
@[simp] theorem State.storeLane_line (i k : Nat) (b : Byte) : (s.storeLane i k b).line = s.line := rfl
@[simp] theorem State.storeLane_prevLine (i k : Nat) (b : Byte) : (s.storeLane i k b).prevLine = s.prevLine := rfl
@[simp] theorem State.storeLane_lastOp (i k : Nat) (b : Byte) : (s.storeLane i k b).lastOp = s.lastOp := rfl
@[simp] theorem State.storeLane_mask (i k : Nat) (b : Byte) : (s.storeLane i k b).mask = s.mask := rfl
@[simp] theorem State.storeLane_mixMask (i k : Nat) (b : Byte) : (s.storeLane i k b).mixMask = s.mixMask := rfl
@[simp] theorem State.storeLane_toggle (i k : Nat) (b : Byte) : (s.storeLane i k b).toggle = s.toggle := rfl
@[simp] theorem State.storeLane_op (i k : Nat) (b : Byte) : (s.storeLane i k b).op = s.op := rfl
@[simp] theorem State.storeLane_count (i k : Nat) (b : Byte) : (s.storeLane i k b).count = s.count := rfl
@[simp] theorem State.storeLane_insert (i k : Nat) (b : Byte) : (s.storeLane i k b).insert = s.insert := rfl
@[simp] theorem State.storeLane_fixed (i k : Nat) (b : Byte) : (s.storeLane i k b).fixed = s.fixed := rfl
@[simp] theorem State.storeLane_mix (i k : Nat) (b : Byte) : (s.storeLane i k b).mix = s.mix := rfl
@[simp] theorem State.storeLane_colour1 (i k : Nat) (b : Byte) : (s.storeLane i k b).colour1 = s.colour1 := rfl
@[simp] theorem State.storeLane_colour2 (i k : Nat) (b : Byte) : (s.storeLane i k b).colour2 = s.colour2 := rfl
@[simp] theorem State.storeLane_plane (i k : Nat) (b : Byte) : (s.storeLane i k b).plane = s.plane := rfl
@[simp] theorem State.storeLane_krow (i k : Nat) (b : Byte) : (s.storeLane i k b).krow = s.krow := rfl
@[simp] theorem State.storeLane_col (i k : Nat) (b : Byte) : (s.storeLane i k b).col = s.col := rfl
@[simp] theorem State.storeLane_run (i k : Nat) (b : Byte) : (s.storeLane i k b).run = s.run := rfl
@[simp] theorem State.storeLane_collen (i k : Nat) (b : Byte) : (s.storeLane i k b).collen = s.collen := rfl
@[simp] theorem State.storeLane_replen (i k : Nat) (b : Byte) : (s.storeLane i k b).replen = s.replen := rfl
@[simp] theorem State.storeLane_status (i k : Nat) (b : Byte) : (s.storeLane i k b).status = s.status := rfl
@[simp] theorem State.storeLane_errPos (i k : Nat) (b : Byte) : (s.storeLane i k b).errPos = s.errPos := rfl
@[simp] theorem State.storeLane_outLen (i k : Nat) (b : Byte) : (s.storeLane i k b).outLen = s.outLen := rfl
@[simp] theorem State.storeLane_input (i k : Nat) (b : Byte) : (s.storeLane i k b).input = s.input := rfl
@[simp] theorem State.storeLane_pixels (i k : Nat) (b : Byte) : (s.storeLane i k b).pixels = s.pixels.write (i * s.pb.toNat + k) b := rfl
@[simp] theorem State.storeLane_out (i k : Nat) (b : Byte) : (s.storeLane i k b).out = s.out := rfl
@[simp] theorem State.storeLane_calls (i k : Nat) (b : Byte) : (s.storeLane i k b).calls = s.calls := rfl

/-! ### `beginOrder` -/

@[simp] theorem State.beginOrder_phase (n : Nat) : (s.beginOrder n).phase = s.phase := rfl
@[simp] theorem State.beginOrder_inLen (n : Nat) : (s.beginOrder n).inLen = s.inLen := rfl
@[simp] theorem State.beginOrder_srcW (n : Nat) : (s.beginOrder n).srcW = s.srcW := rfl
@[simp] theorem State.beginOrder_srcH (n : Nat) : (s.beginOrder n).srcH = s.srcH := rfl
@[simp] theorem State.beginOrder_dstL (n : Nat) : (s.beginOrder n).dstL = s.dstL := rfl
@[simp] theorem State.beginOrder_dstT (n : Nat) : (s.beginOrder n).dstT = s.dstT := rfl
@[simp] theorem State.beginOrder_dstR (n : Nat) : (s.beginOrder n).dstR = s.dstR := rfl
@[simp] theorem State.beginOrder_dstB (n : Nat) : (s.beginOrder n).dstB = s.dstB := rfl
@[simp] theorem State.beginOrder_bpp (n : Nat) : (s.beginOrder n).bpp = s.bpp := rfl
@[simp] theorem State.beginOrder_pb (n : Nat) : (s.beginOrder n).pb = s.pb := rfl
@[simp] theorem State.beginOrder_dstW (n : Nat) : (s.beginOrder n).dstW = s.dstW := rfl
@[simp] theorem State.beginOrder_dstH (n : Nat) : (s.beginOrder n).dstH = s.dstH := rfl
@[simp] theorem State.beginOrder_cur (n : Nat) : (s.beginOrder n).cur = s.cur := rfl
@[simp] theorem State.beginOrder_orderStart (n : Nat) : (s.beginOrder n).orderStart = s.orderStart := rfl
@[simp] theorem State.beginOrder_x (n : Nat) : (s.beginOrder n).x = s.x := rfl
@[simp] theorem State.beginOrder_rowsLeft (n : Nat) : (s.beginOrder n).rowsLeft = s.rowsLeft := rfl
@[simp] theorem State.beginOrder_line (n : Nat) : (s.beginOrder n).line = s.line := rfl
@[simp] theorem State.beginOrder_prevLine (n : Nat) : (s.beginOrder n).prevLine = s.prevLine := rfl
@[simp] theorem State.beginOrder_lastOp (n : Nat) : (s.beginOrder n).lastOp = s.lastOp := rfl
@[simp] theorem State.beginOrder_mask (n : Nat) : (s.beginOrder n).mask = s.mask := rfl
@[simp] theorem State.beginOrder_mixMask (n : Nat) : (s.beginOrder n).mixMask = 0 := rfl
@[simp] theorem State.beginOrder_toggle (n : Nat) : (s.beginOrder n).toggle = s.toggle := rfl
@[simp] theorem State.beginOrder_op (n : Nat) : (s.beginOrder n).op = s.op := rfl
@[simp] theorem State.beginOrder_count (n : Nat) : (s.beginOrder n).count = n := rfl
@[simp] theorem State.beginOrder_insert (n : Nat) : (s.beginOrder n).insert = false := rfl
@[simp] theorem State.beginOrder_fixed (n : Nat) : (s.beginOrder n).fixed = none := rfl
@[simp] theorem State.beginOrder_mix (n : Nat) : (s.beginOrder n).mix = s.mix := rfl
@[simp] theorem State.beginOrder_colour1 (n : Nat) : (s.beginOrder n).colour1 = s.colour1 := rfl
@[simp] theorem State.beginOrder_colour2 (n : Nat) : (s.beginOrder n).colour2 = s.colour2 := rfl
@[simp] theorem State.beginOrder_plane (n : Nat) : (s.beginOrder n).plane = s.plane := rfl
@[simp] theorem State.beginOrder_krow (n : Nat) : (s.beginOrder n).krow = s.krow := rfl
@[simp] theorem State.beginOrder_col (n : Nat) : (s.beginOrder n).col = s.col := rfl
@[simp] theorem State.beginOrder_run (n : Nat) : (s.beginOrder n).run = s.run := rfl
@[simp] theorem State.beginOrder_collen (n : Nat) : (s.beginOrder n).collen = s.collen := rfl
@[simp] theorem State.beginOrder_replen (n : Nat) : (s.beginOrder n).replen = s.replen := rfl
@[simp] theorem State.beginOrder_status (n : Nat) : (s.beginOrder n).status = s.status := rfl
@[simp] theorem State.beginOrder_errPos (n : Nat) : (s.beginOrder n).errPos = s.errPos := rfl
@[simp] theorem State.beginOrder_outLen (n : Nat) : (s.beginOrder n).outLen = s.outLen := rfl
@[simp] theorem State.beginOrder_input (n : Nat) : (s.beginOrder n).input = s.input := rfl
@[simp] theorem State.beginOrder_pixels (n : Nat) : (s.beginOrder n).pixels = s.pixels := rfl
@[simp] theorem State.beginOrder_out (n : Nat) : (s.beginOrder n).out = s.out := rfl
@[simp] theorem State.beginOrder_calls (n : Nat) : (s.beginOrder n).calls = s.calls := rfl

/-! ### `latchOp` -/

@[simp] theorem State.latchOp_phase (o : EffOp) : (s.latchOp o).phase = s.phase := rfl
@[simp] theorem State.latchOp_inLen (o : EffOp) : (s.latchOp o).inLen = s.inLen := rfl
@[simp] theorem State.latchOp_srcW (o : EffOp) : (s.latchOp o).srcW = s.srcW := rfl
@[simp] theorem State.latchOp_srcH (o : EffOp) : (s.latchOp o).srcH = s.srcH := rfl
@[simp] theorem State.latchOp_dstL (o : EffOp) : (s.latchOp o).dstL = s.dstL := rfl
@[simp] theorem State.latchOp_dstT (o : EffOp) : (s.latchOp o).dstT = s.dstT := rfl
@[simp] theorem State.latchOp_dstR (o : EffOp) : (s.latchOp o).dstR = s.dstR := rfl
@[simp] theorem State.latchOp_dstB (o : EffOp) : (s.latchOp o).dstB = s.dstB := rfl
@[simp] theorem State.latchOp_bpp (o : EffOp) : (s.latchOp o).bpp = s.bpp := rfl
@[simp] theorem State.latchOp_pb (o : EffOp) : (s.latchOp o).pb = s.pb := rfl
@[simp] theorem State.latchOp_dstW (o : EffOp) : (s.latchOp o).dstW = s.dstW := rfl
@[simp] theorem State.latchOp_dstH (o : EffOp) : (s.latchOp o).dstH = s.dstH := rfl
@[simp] theorem State.latchOp_cur (o : EffOp) : (s.latchOp o).cur = s.cur := rfl
@[simp] theorem State.latchOp_orderStart (o : EffOp) : (s.latchOp o).orderStart = s.orderStart := rfl
@[simp] theorem State.latchOp_x (o : EffOp) : (s.latchOp o).x = s.x := rfl
@[simp] theorem State.latchOp_rowsLeft (o : EffOp) : (s.latchOp o).rowsLeft = s.rowsLeft := rfl
@[simp] theorem State.latchOp_line (o : EffOp) : (s.latchOp o).line = s.line := rfl
@[simp] theorem State.latchOp_prevLine (o : EffOp) : (s.latchOp o).prevLine = s.prevLine := rfl
@[simp] theorem State.latchOp_lastOp (o : EffOp) : (s.latchOp o).lastOp = some o := rfl
@[simp] theorem State.latchOp_mask (o : EffOp) : (s.latchOp o).mask = s.mask := rfl
@[simp] theorem State.latchOp_mixMask (o : EffOp) : (s.latchOp o).mixMask = s.mixMask := rfl
@[simp] theorem State.latchOp_toggle (o : EffOp) : (s.latchOp o).toggle = s.toggle := rfl
@[simp] theorem State.latchOp_op (o : EffOp) : (s.latchOp o).op = o := rfl
@[simp] theorem State.latchOp_count (o : EffOp) : (s.latchOp o).count = s.count := rfl
@[simp] theorem State.latchOp_insert (o : EffOp) : (s.latchOp o).insert = s.insert := rfl
@[simp] theorem State.latchOp_fixed (o : EffOp) : (s.latchOp o).fixed = s.fixed := rfl
@[simp] theorem State.latchOp_mix (o : EffOp) : (s.latchOp o).mix = s.mix := rfl
@[simp] theorem State.latchOp_colour1 (o : EffOp) : (s.latchOp o).colour1 = s.colour1 := rfl
@[simp] theorem State.latchOp_colour2 (o : EffOp) : (s.latchOp o).colour2 = s.colour2 := rfl
@[simp] theorem State.latchOp_plane (o : EffOp) : (s.latchOp o).plane = s.plane := rfl
@[simp] theorem State.latchOp_krow (o : EffOp) : (s.latchOp o).krow = s.krow := rfl
@[simp] theorem State.latchOp_col (o : EffOp) : (s.latchOp o).col = s.col := rfl
@[simp] theorem State.latchOp_run (o : EffOp) : (s.latchOp o).run = s.run := rfl
@[simp] theorem State.latchOp_collen (o : EffOp) : (s.latchOp o).collen = s.collen := rfl
@[simp] theorem State.latchOp_replen (o : EffOp) : (s.latchOp o).replen = s.replen := rfl
@[simp] theorem State.latchOp_status (o : EffOp) : (s.latchOp o).status = s.status := rfl
@[simp] theorem State.latchOp_errPos (o : EffOp) : (s.latchOp o).errPos = s.errPos := rfl
@[simp] theorem State.latchOp_outLen (o : EffOp) : (s.latchOp o).outLen = s.outLen := rfl
@[simp] theorem State.latchOp_input (o : EffOp) : (s.latchOp o).input = s.input := rfl
@[simp] theorem State.latchOp_pixels (o : EffOp) : (s.latchOp o).pixels = s.pixels := rfl
@[simp] theorem State.latchOp_out (o : EffOp) : (s.latchOp o).out = s.out := rfl
@[simp] theorem State.latchOp_calls (o : EffOp) : (s.latchOp o).calls = s.calls := rfl

/-! ### `countDown` -/

@[simp] theorem State.countDown_phase : (s.countDown).phase = s.phase := rfl
@[simp] theorem State.countDown_inLen : (s.countDown).inLen = s.inLen := rfl
@[simp] theorem State.countDown_srcW : (s.countDown).srcW = s.srcW := rfl
@[simp] theorem State.countDown_srcH : (s.countDown).srcH = s.srcH := rfl
@[simp] theorem State.countDown_dstL : (s.countDown).dstL = s.dstL := rfl
@[simp] theorem State.countDown_dstT : (s.countDown).dstT = s.dstT := rfl
@[simp] theorem State.countDown_dstR : (s.countDown).dstR = s.dstR := rfl
@[simp] theorem State.countDown_dstB : (s.countDown).dstB = s.dstB := rfl
@[simp] theorem State.countDown_bpp : (s.countDown).bpp = s.bpp := rfl
@[simp] theorem State.countDown_pb : (s.countDown).pb = s.pb := rfl
@[simp] theorem State.countDown_dstW : (s.countDown).dstW = s.dstW := rfl
@[simp] theorem State.countDown_dstH : (s.countDown).dstH = s.dstH := rfl
@[simp] theorem State.countDown_cur : (s.countDown).cur = s.cur := rfl
@[simp] theorem State.countDown_orderStart : (s.countDown).orderStart = s.orderStart := rfl
@[simp] theorem State.countDown_x : (s.countDown).x = s.x := rfl
@[simp] theorem State.countDown_rowsLeft : (s.countDown).rowsLeft = s.rowsLeft := rfl
@[simp] theorem State.countDown_line : (s.countDown).line = s.line := rfl
@[simp] theorem State.countDown_prevLine : (s.countDown).prevLine = s.prevLine := rfl
@[simp] theorem State.countDown_lastOp : (s.countDown).lastOp = s.lastOp := rfl
@[simp] theorem State.countDown_mask : (s.countDown).mask = s.mask := rfl
@[simp] theorem State.countDown_mixMask : (s.countDown).mixMask = s.mixMask := rfl
@[simp] theorem State.countDown_toggle : (s.countDown).toggle = s.toggle := rfl
@[simp] theorem State.countDown_op : (s.countDown).op = s.op := rfl
@[simp] theorem State.countDown_count : (s.countDown).count = s.count - 1 := rfl
@[simp] theorem State.countDown_insert : (s.countDown).insert = s.insert := rfl
@[simp] theorem State.countDown_fixed : (s.countDown).fixed = s.fixed := rfl
@[simp] theorem State.countDown_mix : (s.countDown).mix = s.mix := rfl
@[simp] theorem State.countDown_colour1 : (s.countDown).colour1 = s.colour1 := rfl
@[simp] theorem State.countDown_colour2 : (s.countDown).colour2 = s.colour2 := rfl
@[simp] theorem State.countDown_plane : (s.countDown).plane = s.plane := rfl
@[simp] theorem State.countDown_krow : (s.countDown).krow = s.krow := rfl
@[simp] theorem State.countDown_col : (s.countDown).col = s.col := rfl
@[simp] theorem State.countDown_run : (s.countDown).run = s.run := rfl
@[simp] theorem State.countDown_collen : (s.countDown).collen = s.collen := rfl
@[simp] theorem State.countDown_replen : (s.countDown).replen = s.replen := rfl
@[simp] theorem State.countDown_status : (s.countDown).status = s.status := rfl
@[simp] theorem State.countDown_errPos : (s.countDown).errPos = s.errPos := rfl
@[simp] theorem State.countDown_outLen : (s.countDown).outLen = s.outLen := rfl
@[simp] theorem State.countDown_input : (s.countDown).input = s.input := rfl
@[simp] theorem State.countDown_pixels : (s.countDown).pixels = s.pixels := rfl
@[simp] theorem State.countDown_out : (s.countDown).out = s.out := rfl
@[simp] theorem State.countDown_calls : (s.countDown).calls = s.calls := rfl

/-! ### `nextPlanarColumn` -/

@[simp] theorem State.nextPlanarColumn_phase : (s.nextPlanarColumn).phase = s.phase := rfl
@[simp] theorem State.nextPlanarColumn_inLen : (s.nextPlanarColumn).inLen = s.inLen := rfl
@[simp] theorem State.nextPlanarColumn_srcW : (s.nextPlanarColumn).srcW = s.srcW := rfl
@[simp] theorem State.nextPlanarColumn_srcH : (s.nextPlanarColumn).srcH = s.srcH := rfl
@[simp] theorem State.nextPlanarColumn_dstL : (s.nextPlanarColumn).dstL = s.dstL := rfl
@[simp] theorem State.nextPlanarColumn_dstT : (s.nextPlanarColumn).dstT = s.dstT := rfl
@[simp] theorem State.nextPlanarColumn_dstR : (s.nextPlanarColumn).dstR = s.dstR := rfl
@[simp] theorem State.nextPlanarColumn_dstB : (s.nextPlanarColumn).dstB = s.dstB := rfl
@[simp] theorem State.nextPlanarColumn_bpp : (s.nextPlanarColumn).bpp = s.bpp := rfl
@[simp] theorem State.nextPlanarColumn_pb : (s.nextPlanarColumn).pb = s.pb := rfl
@[simp] theorem State.nextPlanarColumn_dstW : (s.nextPlanarColumn).dstW = s.dstW := rfl
@[simp] theorem State.nextPlanarColumn_dstH : (s.nextPlanarColumn).dstH = s.dstH := rfl
@[simp] theorem State.nextPlanarColumn_cur : (s.nextPlanarColumn).cur = s.cur := rfl
@[simp] theorem State.nextPlanarColumn_orderStart : (s.nextPlanarColumn).orderStart = s.orderStart := rfl
@[simp] theorem State.nextPlanarColumn_x : (s.nextPlanarColumn).x = s.x := rfl
@[simp] theorem State.nextPlanarColumn_rowsLeft : (s.nextPlanarColumn).rowsLeft = s.rowsLeft := rfl
@[simp] theorem State.nextPlanarColumn_line : (s.nextPlanarColumn).line = s.line := rfl
@[simp] theorem State.nextPlanarColumn_prevLine : (s.nextPlanarColumn).prevLine = s.prevLine := rfl
@[simp] theorem State.nextPlanarColumn_lastOp : (s.nextPlanarColumn).lastOp = s.lastOp := rfl
@[simp] theorem State.nextPlanarColumn_mask : (s.nextPlanarColumn).mask = s.mask := rfl
@[simp] theorem State.nextPlanarColumn_mixMask : (s.nextPlanarColumn).mixMask = s.mixMask := rfl
@[simp] theorem State.nextPlanarColumn_toggle : (s.nextPlanarColumn).toggle = s.toggle := rfl
@[simp] theorem State.nextPlanarColumn_op : (s.nextPlanarColumn).op = s.op := rfl
@[simp] theorem State.nextPlanarColumn_count : (s.nextPlanarColumn).count = s.count := rfl
@[simp] theorem State.nextPlanarColumn_insert : (s.nextPlanarColumn).insert = s.insert := rfl
@[simp] theorem State.nextPlanarColumn_fixed : (s.nextPlanarColumn).fixed = s.fixed := rfl
@[simp] theorem State.nextPlanarColumn_mix : (s.nextPlanarColumn).mix = s.mix := rfl
@[simp] theorem State.nextPlanarColumn_colour1 : (s.nextPlanarColumn).colour1 = s.colour1 := rfl
@[simp] theorem State.nextPlanarColumn_colour2 : (s.nextPlanarColumn).colour2 = s.colour2 := rfl
@[simp] theorem State.nextPlanarColumn_plane : (s.nextPlanarColumn).plane = s.plane := rfl
@[simp] theorem State.nextPlanarColumn_krow : (s.nextPlanarColumn).krow = s.krow := rfl
@[simp] theorem State.nextPlanarColumn_col : (s.nextPlanarColumn).col = s.col + 1 := rfl
@[simp] theorem State.nextPlanarColumn_run : (s.nextPlanarColumn).run = s.run := rfl
@[simp] theorem State.nextPlanarColumn_collen : (s.nextPlanarColumn).collen = s.collen := rfl
@[simp] theorem State.nextPlanarColumn_replen : (s.nextPlanarColumn).replen = s.replen := rfl
@[simp] theorem State.nextPlanarColumn_status : (s.nextPlanarColumn).status = s.status := rfl
@[simp] theorem State.nextPlanarColumn_errPos : (s.nextPlanarColumn).errPos = s.errPos := rfl
@[simp] theorem State.nextPlanarColumn_outLen : (s.nextPlanarColumn).outLen = s.outLen := rfl
@[simp] theorem State.nextPlanarColumn_input : (s.nextPlanarColumn).input = s.input := rfl
@[simp] theorem State.nextPlanarColumn_pixels : (s.nextPlanarColumn).pixels = s.pixels := rfl
@[simp] theorem State.nextPlanarColumn_out : (s.nextPlanarColumn).out = s.out := rfl
@[simp] theorem State.nextPlanarColumn_calls : (s.nextPlanarColumn).calls = s.calls := rfl

/-! ### `setRun` -/

@[simp] theorem State.setRun_phase (r : Int) : (s.setRun r).phase = s.phase := rfl
@[simp] theorem State.setRun_inLen (r : Int) : (s.setRun r).inLen = s.inLen := rfl
@[simp] theorem State.setRun_srcW (r : Int) : (s.setRun r).srcW = s.srcW := rfl
@[simp] theorem State.setRun_srcH (r : Int) : (s.setRun r).srcH = s.srcH := rfl
@[simp] theorem State.setRun_dstL (r : Int) : (s.setRun r).dstL = s.dstL := rfl
@[simp] theorem State.setRun_dstT (r : Int) : (s.setRun r).dstT = s.dstT := rfl
@[simp] theorem State.setRun_dstR (r : Int) : (s.setRun r).dstR = s.dstR := rfl
@[simp] theorem State.setRun_dstB (r : Int) : (s.setRun r).dstB = s.dstB := rfl
@[simp] theorem State.setRun_bpp (r : Int) : (s.setRun r).bpp = s.bpp := rfl
@[simp] theorem State.setRun_pb (r : Int) : (s.setRun r).pb = s.pb := rfl
@[simp] theorem State.setRun_dstW (r : Int) : (s.setRun r).dstW = s.dstW := rfl
@[simp] theorem State.setRun_dstH (r : Int) : (s.setRun r).dstH = s.dstH := rfl
@[simp] theorem State.setRun_cur (r : Int) : (s.setRun r).cur = s.cur := rfl
@[simp] theorem State.setRun_orderStart (r : Int) : (s.setRun r).orderStart = s.orderStart := rfl
@[simp] theorem State.setRun_x (r : Int) : (s.setRun r).x = s.x := rfl
@[simp] theorem State.setRun_rowsLeft (r : Int) : (s.setRun r).rowsLeft = s.rowsLeft := rfl
@[simp] theorem State.setRun_line (r : Int) : (s.setRun r).line = s.line := rfl
@[simp] theorem State.setRun_prevLine (r : Int) : (s.setRun r).prevLine = s.prevLine := rfl
@[simp] theorem State.setRun_lastOp (r : Int) : (s.setRun r).lastOp = s.lastOp := rfl
@[simp] theorem State.setRun_mask (r : Int) : (s.setRun r).mask = s.mask := rfl
@[simp] theorem State.setRun_mixMask (r : Int) : (s.setRun r).mixMask = s.mixMask := rfl
@[simp] theorem State.setRun_toggle (r : Int) : (s.setRun r).toggle = s.toggle := rfl
@[simp] theorem State.setRun_op (r : Int) : (s.setRun r).op = s.op := rfl
@[simp] theorem State.setRun_count (r : Int) : (s.setRun r).count = s.count := rfl
@[simp] theorem State.setRun_insert (r : Int) : (s.setRun r).insert = s.insert := rfl
@[simp] theorem State.setRun_fixed (r : Int) : (s.setRun r).fixed = s.fixed := rfl
@[simp] theorem State.setRun_mix (r : Int) : (s.setRun r).mix = s.mix := rfl
@[simp] theorem State.setRun_colour1 (r : Int) : (s.setRun r).colour1 = s.colour1 := rfl
@[simp] theorem State.setRun_colour2 (r : Int) : (s.setRun r).colour2 = s.colour2 := rfl
@[simp] theorem State.setRun_plane (r : Int) : (s.setRun r).plane = s.plane := rfl
@[simp] theorem State.setRun_krow (r : Int) : (s.setRun r).krow = s.krow := rfl
@[simp] theorem State.setRun_col (r : Int) : (s.setRun r).col = s.col := rfl
@[simp] theorem State.setRun_run (r : Int) : (s.setRun r).run = r := rfl
@[simp] theorem State.setRun_collen (r : Int) : (s.setRun r).collen = s.collen := rfl
@[simp] theorem State.setRun_replen (r : Int) : (s.setRun r).replen = s.replen := rfl
@[simp] theorem State.setRun_status (r : Int) : (s.setRun r).status = s.status := rfl
@[simp] theorem State.setRun_errPos (r : Int) : (s.setRun r).errPos = s.errPos := rfl
@[simp] theorem State.setRun_outLen (r : Int) : (s.setRun r).outLen = s.outLen := rfl
@[simp] theorem State.setRun_input (r : Int) : (s.setRun r).input = s.input := rfl
@[simp] theorem State.setRun_pixels (r : Int) : (s.setRun r).pixels = s.pixels := rfl
@[simp] theorem State.setRun_out (r : Int) : (s.setRun r).out = s.out := rfl
@[simp] theorem State.setRun_calls (r : Int) : (s.setRun r).calls = s.calls := rfl

/-! ### `latchRun` -/

@[simp] theorem State.latchRun_phase (c : Byte) : (s.latchRun c).phase = s.phase := rfl
@[simp] theorem State.latchRun_inLen (c : Byte) : (s.latchRun c).inLen = s.inLen := rfl
@[simp] theorem State.latchRun_srcW (c : Byte) : (s.latchRun c).srcW = s.srcW := rfl
@[simp] theorem State.latchRun_srcH (c : Byte) : (s.latchRun c).srcH = s.srcH := rfl
@[simp] theorem State.latchRun_dstL (c : Byte) : (s.latchRun c).dstL = s.dstL := rfl
@[simp] theorem State.latchRun_dstT (c : Byte) : (s.latchRun c).dstT = s.dstT := rfl
@[simp] theorem State.latchRun_dstR (c : Byte) : (s.latchRun c).dstR = s.dstR := rfl
@[simp] theorem State.latchRun_dstB (c : Byte) : (s.latchRun c).dstB = s.dstB := rfl
@[simp] theorem State.latchRun_bpp (c : Byte) : (s.latchRun c).bpp = s.bpp := rfl
@[simp] theorem State.latchRun_pb (c : Byte) : (s.latchRun c).pb = s.pb := rfl
@[simp] theorem State.latchRun_dstW (c : Byte) : (s.latchRun c).dstW = s.dstW := rfl
@[simp] theorem State.latchRun_dstH (c : Byte) : (s.latchRun c).dstH = s.dstH := rfl
@[simp] theorem State.latchRun_cur (c : Byte) : (s.latchRun c).cur = s.cur := rfl
@[simp] theorem State.latchRun_orderStart (c : Byte) : (s.latchRun c).orderStart = s.orderStart := rfl
@[simp] theorem State.latchRun_x (c : Byte) : (s.latchRun c).x = s.x := rfl
@[simp] theorem State.latchRun_rowsLeft (c : Byte) : (s.latchRun c).rowsLeft = s.rowsLeft := rfl
@[simp] theorem State.latchRun_line (c : Byte) : (s.latchRun c).line = s.line := rfl
@[simp] theorem State.latchRun_prevLine (c : Byte) : (s.latchRun c).prevLine = s.prevLine := rfl
@[simp] theorem State.latchRun_lastOp (c : Byte) : (s.latchRun c).lastOp = s.lastOp := rfl
@[simp] theorem State.latchRun_mask (c : Byte) : (s.latchRun c).mask = s.mask := rfl
@[simp] theorem State.latchRun_mixMask (c : Byte) : (s.latchRun c).mixMask = s.mixMask := rfl
@[simp] theorem State.latchRun_toggle (c : Byte) : (s.latchRun c).toggle = s.toggle := rfl
@[simp] theorem State.latchRun_op (c : Byte) : (s.latchRun c).op = s.op := rfl
@[simp] theorem State.latchRun_count (c : Byte) : (s.latchRun c).count = s.count := rfl
@[simp] theorem State.latchRun_insert (c : Byte) : (s.latchRun c).insert = s.insert := rfl
@[simp] theorem State.latchRun_fixed (c : Byte) : (s.latchRun c).fixed = s.fixed := rfl
@[simp] theorem State.latchRun_mix (c : Byte) : (s.latchRun c).mix = s.mix := rfl
@[simp] theorem State.latchRun_colour1 (c : Byte) : (s.latchRun c).colour1 = s.colour1 := rfl
@[simp] theorem State.latchRun_colour2 (c : Byte) : (s.latchRun c).colour2 = s.colour2 := rfl
@[simp] theorem State.latchRun_plane (c : Byte) : (s.latchRun c).plane = s.plane := rfl
@[simp] theorem State.latchRun_krow (c : Byte) : (s.latchRun c).krow = s.krow := rfl
@[simp] theorem State.latchRun_col (c : Byte) : (s.latchRun c).col = s.col := rfl
@[simp] theorem State.latchRun_run (c : Byte) : (s.latchRun c).run = s.run := rfl
@[simp] theorem State.latchRun_collen (c : Byte) : (s.latchRun c).collen = (planarCtrl c).1 := rfl
@[simp] theorem State.latchRun_replen (c : Byte) : (s.latchRun c).replen = (planarCtrl c).2 := rfl
@[simp] theorem State.latchRun_status (c : Byte) : (s.latchRun c).status = s.status := rfl
@[simp] theorem State.latchRun_errPos (c : Byte) : (s.latchRun c).errPos = s.errPos := rfl
@[simp] theorem State.latchRun_outLen (c : Byte) : (s.latchRun c).outLen = s.outLen := rfl
@[simp] theorem State.latchRun_input (c : Byte) : (s.latchRun c).input = s.input := rfl
@[simp] theorem State.latchRun_pixels (c : Byte) : (s.latchRun c).pixels = s.pixels := rfl
@[simp] theorem State.latchRun_out (c : Byte) : (s.latchRun c).out = s.out := rfl
@[simp] theorem State.latchRun_calls (c : Byte) : (s.latchRun c).calls = s.calls := rfl

/-! ### `enterPlanes` -/

@[simp] theorem State.enterPlanes_phase : (s.enterPlanes).phase = s.phase := rfl
@[simp] theorem State.enterPlanes_inLen : (s.enterPlanes).inLen = s.inLen := rfl
@[simp] theorem State.enterPlanes_srcW : (s.enterPlanes).srcW = s.srcW := rfl
@[simp] theorem State.enterPlanes_srcH : (s.enterPlanes).srcH = s.srcH := rfl
@[simp] theorem State.enterPlanes_dstL : (s.enterPlanes).dstL = s.dstL := rfl
@[simp] theorem State.enterPlanes_dstT : (s.enterPlanes).dstT = s.dstT := rfl
@[simp] theorem State.enterPlanes_dstR : (s.enterPlanes).dstR = s.dstR := rfl
@[simp] theorem State.enterPlanes_dstB : (s.enterPlanes).dstB = s.dstB := rfl
@[simp] theorem State.enterPlanes_bpp : (s.enterPlanes).bpp = s.bpp := rfl
@[simp] theorem State.enterPlanes_pb : (s.enterPlanes).pb = s.pb := rfl
@[simp] theorem State.enterPlanes_dstW : (s.enterPlanes).dstW = s.dstW := rfl
@[simp] theorem State.enterPlanes_dstH : (s.enterPlanes).dstH = s.dstH := rfl
@[simp] theorem State.enterPlanes_cur : (s.enterPlanes).cur = s.cur := rfl
@[simp] theorem State.enterPlanes_orderStart : (s.enterPlanes).orderStart = s.orderStart := rfl
@[simp] theorem State.enterPlanes_x : (s.enterPlanes).x = s.x := rfl
@[simp] theorem State.enterPlanes_rowsLeft : (s.enterPlanes).rowsLeft = s.rowsLeft := rfl
@[simp] theorem State.enterPlanes_line : (s.enterPlanes).line = s.line := rfl
@[simp] theorem State.enterPlanes_prevLine : (s.enterPlanes).prevLine = s.prevLine := rfl
@[simp] theorem State.enterPlanes_lastOp : (s.enterPlanes).lastOp = s.lastOp := rfl
@[simp] theorem State.enterPlanes_mask : (s.enterPlanes).mask = s.mask := rfl
@[simp] theorem State.enterPlanes_mixMask : (s.enterPlanes).mixMask = s.mixMask := rfl
@[simp] theorem State.enterPlanes_toggle : (s.enterPlanes).toggle = s.toggle := rfl
@[simp] theorem State.enterPlanes_op : (s.enterPlanes).op = s.op := rfl
@[simp] theorem State.enterPlanes_count : (s.enterPlanes).count = s.count := rfl
@[simp] theorem State.enterPlanes_insert : (s.enterPlanes).insert = s.insert := rfl
@[simp] theorem State.enterPlanes_fixed : (s.enterPlanes).fixed = s.fixed := rfl
@[simp] theorem State.enterPlanes_mix : (s.enterPlanes).mix = s.mix := rfl
@[simp] theorem State.enterPlanes_colour1 : (s.enterPlanes).colour1 = s.colour1 := rfl
@[simp] theorem State.enterPlanes_colour2 : (s.enterPlanes).colour2 = s.colour2 := rfl
@[simp] theorem State.enterPlanes_plane : (s.enterPlanes).plane = 0 := rfl
@[simp] theorem State.enterPlanes_krow : (s.enterPlanes).krow = 0 := rfl
@[simp] theorem State.enterPlanes_col : (s.enterPlanes).col = 0 := rfl
@[simp] theorem State.enterPlanes_run : (s.enterPlanes).run = 0 := rfl
@[simp] theorem State.enterPlanes_collen : (s.enterPlanes).collen = s.collen := rfl
@[simp] theorem State.enterPlanes_replen : (s.enterPlanes).replen = s.replen := rfl
@[simp] theorem State.enterPlanes_status : (s.enterPlanes).status = s.status := rfl
@[simp] theorem State.enterPlanes_errPos : (s.enterPlanes).errPos = s.errPos := rfl
@[simp] theorem State.enterPlanes_outLen : (s.enterPlanes).outLen = s.outLen := rfl
@[simp] theorem State.enterPlanes_input : (s.enterPlanes).input = s.input := rfl
@[simp] theorem State.enterPlanes_pixels : (s.enterPlanes).pixels = s.pixels := rfl
@[simp] theorem State.enterPlanes_out : (s.enterPlanes).out = s.out := rfl
@[simp] theorem State.enterPlanes_calls : (s.enterPlanes).calls = s.calls := rfl

end Sys2Proof.Machine
end

