-- ==== Sys2Proof/Laws/Ops.lean ====
section
/-! SUPPORT. What each shared operation of Machine/Ops.lean and Machine/Operands.lean can do, once. -/

namespace Sys2Proof.Machine

variable {α β : Type}

@[simp] theorem Eff.andThen_ok (a : α) (s : State) (k : α → State → Eff β) :
    (Eff.ok a s).andThen k = k a s := rfl
@[simp] theorem Eff.andThen_failed (s : State) (k : α → State → Eff β) :
    (Eff.failed s).andThen k = .failed s := rfl
@[simp] theorem Eff.andThen_fault (f : Fault) (k : α → State → Eff β) :
    (Eff.fault f).andThen k = .fault f := rfl
@[simp] theorem Eff.outcome_ok (a : α) (s : State) : (Eff.ok a s).outcome = .next s := rfl
@[simp] theorem Eff.outcome_failed (s : State) : (Eff.failed s : Eff α).outcome = .next s := rfl
@[simp] theorem Eff.outcome_fault (f : Fault) : (Eff.fault f : Eff α).outcome = .fault f := rfl

theorem Eff.andThen_assoc {γ : Type} (e : Eff α) (f : α → State → Eff β) (g : β → State → Eff γ) :
    (e.andThen f).andThen g = e.andThen fun a s => (f a s).andThen g := by
  cases e <;> rfl

/-- A sequence goes on only where its first piece did. -/
theorem Eff.andThen_eq_ok {e : Eff α} {k : α → State → Eff β} {b : β} {t : State}
    (h : e.andThen k = .ok b t) : ∃ a s, e = .ok a s ∧ k a s = .ok b t := by
  cases e with
  | ok a s => exact ⟨a, s, rfl, h⟩
  | failed s => simp at h
  | fault f => simp at h

/-- A sequence has failed where its first piece failed, or where that went on and the rest failed. -/
theorem Eff.andThen_eq_failed {e : Eff α} {k : α → State → Eff β} {t : State}
    (h : e.andThen k = .failed t) : e = .failed t ∨ ∃ a s, e = .ok a s ∧ k a s = .failed t := by
  cases e with
  | ok a s => exact .inr ⟨a, s, rfl, h⟩
  | failed s => simp_all
  | fault f => simp at h

/-! ## Failures -/

/-- Entering a failure writes the result registers and `PHASE`, and nothing else
(60_exceptions.md R159). -/
theorem raise_eq (e : Failure) (pos : Nat) (s : State) :
    (raise e pos s : Eff α) = .failed (s.failEntry e pos) := rfl

/-! ## Stream reads -/

theorem readByte_ok {s : State} (h : s.cur < s.inLen) :
    readByte s = .ok (s.inByte s.cur) (s.advance 1) := by
  simp [readByte, Nat.not_le.mpr h]

theorem readByte_underrun {s : State} (h : s.inLen ≤ s.cur) :
    readByte s = .failed (s.failEntry .streamUnderrun s.orderStart) := by
  simp [readByte, h, raise]

@[simp] theorem State.advance_inByte (s : State) (n a : Nat) :
    (s.advance n).inByte a = s.inByte a := rfl

theorem State.advance_advance (s : State) (m n : Nat) :
    (s.advance m).advance n = s.advance (m + n) := by
  simp [State.advance, Nat.add_assoc]

@[simp] theorem State.advance_zero (s : State) : s.advance 0 = s := rfl

theorem readPixel_ok {s : State} (hpb : s.pb ≠ .four) (h : s.cur + s.pb.toNat ≤ s.inLen) :
    readPixel s = .ok (s.streamPixel s.cur) (s.advance s.pb.toNat) := by
  unfold readPixel State.streamPixel
  cases hp : s.pb with
  | two =>
    simp only [hp, PixelBytes.toNat] at h
    rw [readByte_ok (by omega)]
    simp only [Eff.andThen_ok]
    rw [readByte_ok (by simp only [State.advance_cur, State.advance_inLen]; omega)]
    simp [State.advance_advance, Pixel.fit, PixelBytes.toNat]
  | three =>
    simp only [hp, PixelBytes.toNat] at h
    rw [readByte_ok (by omega)]
    simp only [Eff.andThen_ok]
    rw [readByte_ok (by simp only [State.advance_cur, State.advance_inLen]; omega)]
    simp only [Eff.andThen_ok, State.advance_advance]
    rw [readByte_ok (by simp only [State.advance_cur, State.advance_inLen]; omega)]
    simp [State.advance_advance, Pixel.fit, PixelBytes.toNat]
  | four => exact absurd hp hpb

theorem readPixel_underrun {s : State} (hpb : s.pb ≠ .four) (hcur : s.cur ≤ s.inLen)
    (h : s.inLen < s.cur + s.pb.toNat) :
    readPixel s =
      .failed ((s.advance (s.inLen - s.cur)).failEntry .streamUnderrun s.orderStart) := by
  unfold readPixel
  by_cases h0 : s.inLen ≤ s.cur
  · have e : s.inLen - s.cur = 0 := by omega
    cases hp : s.pb with
    | two => simp [readByte_underrun h0, e]
    | three => simp [readByte_underrun h0, e]
    | four => exact absurd hp hpb
  · have r0 := readByte_ok (s := s) (by omega)
    by_cases h1 : s.inLen ≤ s.cur + 1
    · have e : s.inLen - s.cur = 1 := by omega
      have r1 := readByte_underrun (s := s.advance 1) (by simpa using h1)
      cases hp : s.pb with
      | two => simp [r0, r1, e]
      | three => simp [r0, r1, e]
      | four => exact absurd hp hpb
    · have e : s.inLen - s.cur = 2 := by
        cases hp : s.pb <;> simp only [hp, PixelBytes.toNat] at h
        · omega
        · omega
        · exact absurd hp hpb
      have r1 := readByte_ok (s := s.advance 1)
        (by simp only [State.advance_cur, State.advance_inLen]; omega)
      have r2 := readByte_underrun (s := s.advance 2)
        (by simp only [State.advance_cur, State.advance_inLen]; omega)
      cases hp : s.pb with
      | two => simp only [hp, PixelBytes.toNat] at h; omega
      | three => simp [r0, r1, r2, e, State.advance_advance]
      | four => exact absurd hp hpb

/-! ## Accesses to the native buffer -/

theorem memRead_ok {s : State} {i : Nat} (h : i < s.area) : memRead i s = .ok (s.pixelAt i) s := by
  simp [memRead, h]

theorem memWrite_ok {s : State} {i : Nat} (v : Pixel) (h : i < s.area) :
    memWrite i v s = .ok () (s.storePixel i v) := by
  simp [memWrite, h]

theorem memReadLane_ok {s : State} {i : Nat} (k : Nat) (h : i < s.area) :
    memReadLane i k s = .ok (s.pixelByte (i * s.pb.toNat + k)) s := by
  simp [memReadLane, h]

theorem memWriteLane_ok {s : State} {i : Nat} (k : Nat) (b : Byte) (h : i < s.area) :
    memWriteLane i k b s = .ok () (s.storeLane i k b) := by
  simp [memWriteLane, h]

/-! ## Planar sums -/

/-- The sum of a byte and a delta is their sum as integers, modulo 256 (43_planar_engine.md R138). -/
theorem addDelta_eq (a : Byte) (d : Int) :
    addDelta a d = BitVec.ofNat 8 (((a.toNat : Int) + d) % 256).toNat := by
  apply BitVec.eq_of_toNat_eq
  simp [addDelta, BitVec.toNat_ofInt]
  omega

end Sys2Proof.Machine
end

