-- ==== Sys2Proof/Laws/Frames.lean ====
section
/-! SUPPORT. What running a piece of an engine can do at all, on every state: which registers it may
change, where a failure is entered from, and how the cursor moves. One lemma for each shared operation. -/

namespace Sys2Proof.Machine

variable {α β : Type}

/-! ## Claims about a piece of an engine -/

/-- `P` holds of the state the piece goes on in, `F` of the state it has failed in, and it makes no access
outside a buffer unless `X`. -/
def Eff.Sat (X : Prop) (P F : State → Prop) : Eff α → Prop
  | .ok _ t => P t
  | .failed t => F t
  | .fault _ => X

theorem Eff.Sat.andThen {X : Prop} {P Q F : State → Prop} {e : Eff α} {k : α → State → Eff β}
    (h : e.Sat X P F) (hk : ∀ a t, P t → (k a t).Sat X Q F) : (e.andThen k).Sat X Q F := by
  cases e with
  | ok a t => exact hk a t h
  | failed t => exact h
  | fault f => exact h

theorem Eff.Sat.mono {X : Prop} {P P' F F' : State → Prop} {e : Eff α} (h : e.Sat X P F)
    (hP : ∀ t, P t → P' t) (hF : ∀ t, F t → F' t) : e.Sat X P' F' := by
  cases e with
  | ok a t => exact hP t h
  | failed t => exact hF t h
  | fault f => exact h

/-- What a step that ran the piece answers. -/
theorem Eff.Sat.outcome {X : Prop} {P F : State → Prop} {e : Eff α} {t : State} (h : e.Sat X P F)
    (ht : e.outcome = .next t) : P t ∨ F t := by
  cases e with
  | ok a s => simp only [Eff.outcome_ok, Host.Outcome.next.injEq] at ht; exact .inl (ht ▸ h)
  | failed s => simp only [Eff.outcome_failed, Host.Outcome.next.injEq] at ht; exact .inr (ht ▸ h)
  | fault f => simp at ht

/-- A piece that makes no access outside a buffer answers a next state. -/
theorem Eff.Sat.next {P F : State → Prop} {e : Eff α} (h : e.Sat False P F) :
    ∃ t, e.outcome = .next t ∧ (P t ∨ F t) := by
  cases e with
  | ok a s => exact ⟨s, rfl, .inl h⟩
  | failed s => exact ⟨s, rfl, .inr h⟩
  | fault f => exact h.elim

/-! ## The body of a scanline order -/

/-- `s` with the registers a body may change taken from `t`. -/
def State.withBody (s t : State) : State :=
  { s with
    cur := t.cur, x := t.x, rowsLeft := t.rowsLeft, line := t.line, prevLine := t.prevLine
    mask := t.mask, mixMask := t.mixMask, toggle := t.toggle, count := t.count, insert := t.insert
    pixels := t.pixels }

/-- From `s` to `t` only those registers changed, and the cursor moved on within the stream. -/
structure BodyFrame (s t : State) : Prop where
  same : t = s.withBody t
  mono : s.cur ≤ t.cur
  bound : s.cur ≤ s.inLen → t.cur ≤ s.inLen

/-- A failure entered at the order's start, from a state such a piece can reach. -/
def BodyFailed (s t : State) : Prop := ∃ u e, BodyFrame s u ∧ t = u.failEntry e s.orderStart

theorem BodyFrame.refl (s : State) : BodyFrame s s := ⟨rfl, Nat.le_refl _, id⟩

theorem BodyFrame.trans {s t u : State} (h : BodyFrame s t) (g : BodyFrame t u) : BodyFrame s u := by
  have hl : t.inLen = s.inLen := by rw [h.same]; rfl
  refine ⟨?_, Nat.le_trans h.mono g.mono, fun hs => hl ▸ g.bound (hl ▸ h.bound hs)⟩
  calc u = t.withBody u := g.same
    _ = (s.withBody t).withBody u := by rw [← h.same]
    _ = s.withBody u := rfl

theorem BodyFrame.orderStart {s t : State} (h : BodyFrame s t) : t.orderStart = s.orderStart := by
  rw [h.same]; rfl

theorem BodyFailed.trans {s t u : State} (h : BodyFrame s t) (g : BodyFailed t u) : BodyFailed s u := by
  obtain ⟨v, e, hv, rfl⟩ := g
  exact ⟨v, e, h.trans hv, by rw [h.orderStart]⟩

/-- The claim a piece of a body satisfies from `s`, and again from every state it reaches. -/
abbrev Eff.Body (s : State) (e : Eff α) : Prop := e.Sat True (BodyFrame s) (BodyFailed s)

theorem Eff.Body.andThen {s : State} {e : Eff α} {k : α → State → Eff β} (h : e.Body s)
    (hk : ∀ a t, (k a t).Body t) : (e.andThen k).Body s := by
  refine Eff.Sat.andThen h fun a t ht => ?_
  exact (hk a t).mono (fun _ => ht.trans) fun _ => BodyFailed.trans ht

theorem Eff.Body.ok {s t : State} (a : α) (same : t = s.withBody t) (cur : t.cur = s.cur) :
    (Eff.ok a t).Body s :=
  ⟨same, Nat.le_of_eq cur.symm, fun h => cur ▸ h⟩

theorem raise_body (e : Failure) (s : State) : (raise e s.orderStart s : Eff α).Body s :=
  ⟨s, e, .refl s, rfl⟩

theorem readByte_body (s : State) : (readByte s).Body s := by
  unfold readByte
  split
  · exact raise_body _ s
  · exact ⟨rfl, Nat.le_succ _, fun _ => by simp only [State.advance_cur]; omega⟩

theorem readPixel_body (s : State) : (readPixel s).Body s := by
  unfold readPixel
  split
  · exact (readByte_body s).andThen fun _ t => (readByte_body t).andThen fun _ u => .ok _ rfl rfl
  · exact (readByte_body s).andThen fun _ t => (readByte_body t).andThen fun _ u =>
      (readByte_body u).andThen fun _ v => .ok _ rfl rfl
  · trivial

theorem memRead_body (i : Nat) (s : State) : (memRead i s).Body s := by
  unfold memRead
  split
  · exact .ok _ rfl rfl
  · trivial

theorem memWrite_body (i : Nat) (v : Pixel) (s : State) : (memWrite i v s).Body s := by
  unfold memWrite
  split
  · exact .ok _ rfl rfl
  · trivial

theorem slot_body (s : State) : (slot s).Body s := by
  unfold slot
  split
  · split
    · exact raise_body _ s
    · exact .ok _ rfl rfl
  · exact .ok _ rfl rfl

theorem putPixel_body (v : Pixel) (s : State) : (putPixel v s).Body s := by
  unfold putPixel
  split
  · trivial
  · exact (memWrite_body _ v s).andThen fun _ t => .ok _ rfl rfl

theorem above_body (s : State) : (above s).Body s := by
  unfold above
  split
  · exact .ok _ rfl rfl
  · exact (memRead_body _ s).andThen fun _ t => .ok _ rfl rfl

theorem fillPix_body (s : State) : (fillPix s).Body s :=
  (above_body s).andThen fun _ _ => .ok _ rfl rfl

theorem mixPix_body (s : State) : (mixPix s).Body s := by
  refine (above_body s).andThen fun a t => ?_
  cases a <;> exact .ok _ rfl rfl

theorem nextMaskBit_body (s : State) : (nextMaskBit s).Body s := by
  unfold nextMaskBit
  split
  · split
    · exact .ok _ rfl rfl
    · have h := readByte_body { s with mixMask := 0 }
      refine Eff.Sat.andThen (P := BodyFrame s) (h.mono (fun t ht => ?_) fun t ht => ?_) fun b t ht => ?_
      · exact BodyFrame.trans (t := { s with mixMask := 0 }) ⟨rfl, Nat.le_refl _, id⟩ ht
      · exact .trans (t := { s with mixMask := 0 }) ⟨rfl, Nat.le_refl _, id⟩ ht
      · exact ht.trans ⟨rfl, Nat.le_refl _, id⟩
  · exact .ok _ rfl rfl

theorem fillSource_body (s : State) : (fillSource s).Body s := by
  unfold fillSource
  split
  · exact (mixPix_body s).andThen fun _ t => .ok _ rfl rfl
  · exact fillPix_body s

theorem fomPixel_body (s : State) : (fomPixel s).Body s := by
  refine (nextMaskBit_body s).andThen fun _ t => ?_
  split
  · exact mixPix_body t
  · exact fillPix_body t

theorem emit_body {source : State → Eff Pixel} (h : ∀ s, (source s).Body s) (s : State) :
    (emit source s).Body s :=
  (slot_body s).andThen fun _ t => (h t).andThen fun v u => (putPixel_body v u).andThen fun _ _ =>
    .ok _ rfl rfl

theorem bicolourTurn_body (s : State) : (bicolourTurn s).Body s := by
  refine (slot_body s).andThen fun _ t => ?_
  dsimp only
  split
  · exact (putPixel_body _ t).andThen fun _ u => .ok _ rfl rfl
  · exact (putPixel_body _ t).andThen fun _ u => .ok _ rfl rfl

theorem bodyTurn_body (op : EffOp) (s : State) : (bodyTurn op s).Body s := by
  cases op
  · exact emit_body fillSource_body s
  · exact emit_body mixPix_body s
  · exact emit_body fomPixel_body s
  · exact emit_body (fun t => .ok _ rfl rfl) s
  · exact emit_body readPixel_body s
  · exact bicolourTurn_body s
  · exact emit_body (fun t => .ok _ rfl rfl) s
  · exact emit_body (fun t => .ok _ rfl rfl) s

theorem bodyLoop_body {turn : State → Eff Unit} (h : ∀ s, (turn s).Body s) (fuel : Nat) (s : State) :
    (bodyLoop turn fuel s).Body s := by
  induction fuel generalizing s with
  | zero => exact .ok _ rfl rfl
  | succ fuel ih =>
    unfold bodyLoop
    split
    · exact .ok _ rfl rfl
    · exact (h s).andThen fun _ t => ih t

/-- A body changes the registers of `BodyFrame` only, and fails at the order's start only. -/
theorem orderBody_body (s : State) : (orderBody s).Body s := bodyLoop_body (bodyTurn_body _) _ s

/-! ## A whole scanline order -/

/-- `s` with the registers a scanline order may change taken from `t`. -/
def State.withOrder (s t : State) : State :=
  { s.withBody t with
    lastOp := t.lastOp, op := t.op, fixed := t.fixed, mix := t.mix, colour1 := t.colour1
    colour2 := t.colour2 }

/-- From `s` to `t` only those registers changed, and the cursor moved on within the stream. -/
structure OrderFrame (s t : State) : Prop where
  same : t = s.withOrder t
  mono : s.cur ≤ t.cur
  bound : s.cur ≤ s.inLen → t.cur ≤ s.inLen

/-- A failure entered at the order's start, from a state an order can reach. -/
def OrderFailed (s t : State) : Prop := ∃ u e, OrderFrame s u ∧ t = u.failEntry e s.orderStart

theorem BodyFrame.order {s t : State} (h : BodyFrame s t) : OrderFrame s t := by
  refine ⟨?_, h.mono, h.bound⟩
  have := h.same
  rw [this]
  rfl

theorem OrderFrame.trans {s t u : State} (h : OrderFrame s t) (g : OrderFrame t u) :
    OrderFrame s u := by
  have hl : t.inLen = s.inLen := by rw [h.same]; rfl
  refine ⟨?_, Nat.le_trans h.mono g.mono, fun hs => hl ▸ g.bound (hl ▸ h.bound hs)⟩
  calc u = t.withOrder u := g.same
    _ = (s.withOrder t).withOrder u := by rw [← h.same]
    _ = s.withOrder u := rfl

theorem OrderFrame.orderStart {s t : State} (h : OrderFrame s t) : t.orderStart = s.orderStart := by
  rw [h.same]; rfl

theorem OrderFailed.trans {s t u : State} (h : OrderFrame s t) (g : OrderFailed t u) :
    OrderFailed s u := by
  obtain ⟨v, e, hv, rfl⟩ := g
  exact ⟨v, e, h.trans hv, by rw [h.orderStart]⟩

/-- The claim a piece of an order satisfies. -/
abbrev Eff.Order (s : State) (e : Eff α) : Prop := e.Sat True (OrderFrame s) (OrderFailed s)

theorem Eff.Body.order {s : State} {e : Eff α} (h : e.Body s) : e.Order s :=
  h.mono (fun _ => BodyFrame.order) fun _ ⟨u, f, hu, ht⟩ => ⟨u, f, hu.order, ht⟩

theorem Eff.Order.andThen {s : State} {e : Eff α} {k : α → State → Eff β} (h : e.Order s)
    (hk : ∀ a t, (k a t).Order t) : (e.andThen k).Order s := by
  refine Eff.Sat.andThen h fun a t ht => ?_
  exact (hk a t).mono (fun _ => ht.trans) fun _ => OrderFailed.trans ht

theorem Eff.Order.ok {s t : State} (a : α) (same : t = s.withOrder t) (cur : t.cur = s.cur) :
    (Eff.ok a t).Order s :=
  ⟨same, Nat.le_of_eq cur.symm, fun h => cur ▸ h⟩

theorem startPlain_order (s : State) : (startPlain s).Order s := .ok _ rfl rfl
theorem startFill_order (s : State) : (startFill s).Order s := .ok _ rfl rfl
theorem startFixed_order (m : Byte) (s : State) : (startFixed m s).Order s := .ok _ rfl rfl
theorem startColour_order (s : State) : (startColour s).Order s :=
  (readPixel_body s).order.andThen fun _ _ => .ok _ rfl rfl
theorem startSetMix_order (s : State) : (startSetMix s).Order s :=
  (readPixel_body s).order.andThen fun _ _ => .ok _ rfl rfl
theorem startBicolour_order (s : State) : (startBicolour s).Order s := by
  refine (readPixel_body s).order.andThen fun p t => ?_
  have h := (readPixel_body { t with colour1 := p }).order
  have g : OrderFrame t { t with colour1 := p } := ⟨rfl, Nat.le_refl _, id⟩
  refine Eff.Sat.andThen (P := OrderFrame t) (h.mono (fun u hu => g.trans hu) fun u hu => ?_)
    fun q u hu => ?_
  · exact .trans g hu
  · exact hu.trans ⟨rfl, Nat.le_refl _, id⟩

theorem runOrder_order {start : State → Eff Unit} (h : ∀ s, (start s).Order s) (count : Nat)
    (op : EffOp) (s : State) : (runOrder count start op s).Order s := by
  have g : OrderFrame s (s.beginOrder count) := ⟨rfl, Nat.le_refl _, id⟩
  refine Eff.Sat.andThen (P := OrderFrame s)
    ((h (s.beginOrder count)).mono (fun u hu => g.trans hu) fun u hu => .trans g hu) fun _ t ht => ?_
  have ht' : OrderFrame s (t.latchOp op) := ht.trans ⟨rfl, Nat.le_refl _, id⟩
  exact (orderBody_body _).order.mono (fun _ hu => ht'.trans hu) fun _ hu => .trans ht' hu

theorem unknownOrder_order (s : State) : (unknownOrder s).Order s := (raise_body _ s).order

/-! ## A planar control byte -/

/-- `s` with the registers a planar instruction may change taken from `t`. -/
def State.withPlanar (s t : State) : State :=
  { s with
    cur := t.cur, plane := t.plane, krow := t.krow, col := t.col, run := t.run, collen := t.collen
    replen := t.replen, pixels := t.pixels }

/-- From `s` to `t` only those registers changed, and the cursor moved on within the stream. -/
structure PlanarFrame (s t : State) : Prop where
  same : t = s.withPlanar t
  mono : s.cur ≤ t.cur
  bound : s.cur ≤ s.inLen → t.cur ≤ s.inLen

/-- A failure entered at the control byte, from a state its run can reach. -/
def PlanarFailed (s t : State) : Prop := ∃ u e, PlanarFrame s u ∧ t = u.failEntry e s.orderStart

theorem PlanarFrame.trans {s t u : State} (h : PlanarFrame s t) (g : PlanarFrame t u) :
    PlanarFrame s u := by
  have hl : t.inLen = s.inLen := by rw [h.same]; rfl
  refine ⟨?_, Nat.le_trans h.mono g.mono, fun hs => hl ▸ g.bound (hl ▸ h.bound hs)⟩
  calc u = t.withPlanar u := g.same
    _ = (s.withPlanar t).withPlanar u := by rw [← h.same]
    _ = s.withPlanar u := rfl

theorem PlanarFrame.orderStart {s t : State} (h : PlanarFrame s t) : t.orderStart = s.orderStart := by
  rw [h.same]; rfl

theorem PlanarFailed.trans {s t u : State} (h : PlanarFrame s t) (g : PlanarFailed t u) :
    PlanarFailed s u := by
  obtain ⟨v, e, hv, rfl⟩ := g
  exact ⟨v, e, h.trans hv, by rw [h.orderStart]⟩

/-- The claim a piece of a planar run satisfies. -/
abbrev Eff.Planar (s : State) (e : Eff α) : Prop := e.Sat True (PlanarFrame s) (PlanarFailed s)

theorem Eff.Planar.andThen {s : State} {e : Eff α} {k : α → State → Eff β} (h : e.Planar s)
    (hk : ∀ a t, (k a t).Planar t) : (e.andThen k).Planar s := by
  refine Eff.Sat.andThen h fun a t ht => ?_
  exact (hk a t).mono (fun _ => ht.trans) fun _ => PlanarFailed.trans ht

theorem Eff.Planar.ok {s t : State} (a : α) (same : t = s.withPlanar t) (cur : t.cur = s.cur) :
    (Eff.ok a t).Planar s :=
  ⟨same, Nat.le_of_eq cur.symm, fun h => cur ▸ h⟩

theorem readByte_planar (s : State) : (readByte s).Planar s := by
  unfold readByte
  split
  · exact ⟨s, .streamUnderrun, ⟨rfl, Nat.le_refl _, id⟩, rfl⟩
  · exact ⟨rfl, Nat.le_succ _, fun _ => by simp only [State.advance_cur]; omega⟩

theorem putLane_planar (b : Byte) (s : State) : (putLane b s).Planar s := by
  refine Eff.Planar.andThen ?_ fun _ t => .ok _ rfl rfl
  unfold memWriteLane
  split
  · exact .ok _ rfl rfl
  · trivial

theorem putDelta_planar (s : State) : (putDelta s).Planar s := by
  refine Eff.Planar.andThen ?_ fun _ t => putLane_planar _ t
  unfold memReadLane
  split
  · exact .ok _ rfl rfl
  · trivial

theorem setRun_planar {s : State} {r : Int} {e : Eff α} (h : e.Planar (s.setRun r)) : e.Planar s := by
  have g : PlanarFrame s (s.setRun r) := ⟨rfl, Nat.le_refl _, id⟩
  exact h.mono (fun _ hu => g.trans hu) fun _ hu => .trans g hu

theorem repeatTimes_planar {turn : State → Eff Unit} (h : ∀ s, (turn s).Planar s) (n : Nat)
    (s : State) : (repeatTimes turn n s).Planar s := by
  induction n generalizing s with
  | zero => exact .ok _ rfl rfl
  | succ n ih => exact (h s).andThen fun _ t => ih t

theorem literalRun_planar (s : State) : (literalRun s).Planar s :=
  (repeatTimes_planar (fun t => (readByte_planar t).andThen fun _ _ =>
      setRun_planar (putLane_planar _ _)) _ s).andThen fun _ t =>
    repeatTimes_planar (fun u => putLane_planar _ u) _ t

theorem deltaRun_planar (s : State) : (deltaRun s).Planar s :=
  (repeatTimes_planar (fun t => (readByte_planar t).andThen fun _ _ =>
      setRun_planar (putDelta_planar _)) _ s).andThen fun _ t =>
    repeatTimes_planar (fun u => putDelta_planar u) _ t

theorem runControl_planar (c : Byte) (s : State) : (runControl (s.latchRun c)).Planar s := by
  have g : PlanarFrame s (s.latchRun c) := ⟨rfl, Nat.le_refl _, id⟩
  have key : (runControl (s.latchRun c)).Planar (s.latchRun c) := by
    unfold runControl
    split
    · exact ⟨_, .rasterOverflow, ⟨rfl, Nat.le_refl _, id⟩, rfl⟩
    · split
      · exact literalRun_planar _
      · exact deltaRun_planar _
  exact key.mono (fun _ hu => g.trans hu) fun _ hu => .trans g hu

/-! ## Every instruction -/

theorem inScan_next {run : State → Eff Unit} {s t : State} (h : inScan run s = .next t) :
    s.phase = .scan ∧ s.pb ≠ .four ∧ (run s).outcome = .next t := by
  unfold inScan at h
  split at h
  · next hc => exact ⟨hc.1, hc.2, h⟩
  · simp at h

theorem inPlanar_next {run : State → Eff Unit} {s t : State} (h : inPlanar run s = .next t) :
    s.phase = .planar ∧ s.pb = .four ∧ (run s).outcome = .next t := by
  unfold inPlanar at h
  split at h
  · next hc => exact ⟨hc.1, hc.2, h⟩
  · simp at h

/-- A scanline order that answers a next state runs in phase `SCAN`, and changes the registers of
`OrderFrame` only or has failed at its start. -/
theorem exec_scan_next {i : Instr} {s t : State} (hc : i.ctx = .scan) (h : exec i s = .next t) :
    s.phase = .scan ∧ s.pb ≠ .four ∧ (OrderFrame s t ∨ OrderFailed s t) := by
  have key : ∀ {run : State → Eff Unit}, (run s).Order s → inScan run s = .next t →
      s.phase = .scan ∧ s.pb ≠ .four ∧ (OrderFrame s t ∨ OrderFailed s t) := fun hr hn =>
    let ⟨h1, h2, h3⟩ := inScan_next hn
    ⟨h1, h2, hr.outcome h3⟩
  cases i with
  | fill c => exact key (runOrder_order startFill_order _ _ s) h
  | mix c => exact key (runOrder_order startPlain_order _ _ s) h
  | fom c => exact key (runOrder_order startPlain_order _ _ s) h
  | colour c => exact key (runOrder_order startColour_order _ _ s) h
  | copy c => exact key (runOrder_order startPlain_order _ _ s) h
  | reserved5 c => exact key (unknownOrder_order s) h
  | setmixMix c => exact key (runOrder_order startSetMix_order _ _ s) h
  | setmixFom c => exact key (runOrder_order startSetMix_order _ _ s) h
  | bicolour c => exact key (runOrder_order startBicolour_order _ _ s) h
  | fillM n => exact key (runOrder_order startFill_order _ _ s) h
  | mixM n => exact key (runOrder_order startPlain_order _ _ s) h
  | fomM n => exact key (runOrder_order startPlain_order _ _ s) h
  | colourM n => exact key (runOrder_order startColour_order _ _ s) h
  | copyM n => exact key (runOrder_order startPlain_order _ _ s) h
  | reserved5M n => exact key (unknownOrder_order s) h
  | setmixMixM n => exact key (runOrder_order startSetMix_order _ _ s) h
  | setmixFomM n => exact key (runOrder_order startSetMix_order _ _ s) h
  | bicolourM n => exact key (runOrder_order startBicolour_order _ _ s) h
  | fomS1 => exact key (runOrder_order (startFixed_order _) _ _ s) h
  | fomS2 => exact key (runOrder_order (startFixed_order _) _ _ s) h
  | reservedB => exact key (unknownOrder_order s) h
  | reservedC => exact key (unknownOrder_order s) h
  | white => exact key (runOrder_order startPlain_order _ _ s) h
  | black => exact key (runOrder_order startPlain_order _ _ s) h
  | reservedF => exact key (unknownOrder_order s) h
  | marker => cases hc
  | long16 c => cases hc
  | long32 c => cases hc
  | raw c r => cases hc

/-- A planar instruction that answers a next state runs in phase `PLANAR`, and changes the registers of
`PlanarFrame` only or has failed at its control byte. -/
theorem exec_planar_next {i : Instr} {s t : State} (hc : i.ctx ≠ .scan) (h : exec i s = .next t) :
    s.phase = .planar ∧ s.pb = .four ∧ (PlanarFrame s t ∨ PlanarFailed s t) := by
  have key : ∀ {run : State → Eff Unit}, (run s).Planar s → inPlanar run s = .next t →
      s.phase = .planar ∧ s.pb = .four ∧ (PlanarFrame s t ∨ PlanarFailed s t) := fun hr hn =>
    let ⟨h1, h2, h3⟩ := inPlanar_next hn
    ⟨h1, h2, hr.outcome h3⟩
  cases i with
  | marker => exact key (run := fun s => .ok () s.enterPlanes) (.ok _ rfl rfl) h
  | long16 c =>
    exact key (run := fun s => runControl (s.latchRun (c ++ (1 : BitVec 4)))) (runControl_planar _ s) h
  | long32 c =>
    exact key (run := fun s => runControl (s.latchRun (c ++ (2 : BitVec 4)))) (runControl_planar _ s) h
  | raw c r =>
    exact key (run := fun s => runControl (s.latchRun (c ++ r))) (runControl_planar _ s) h
  | _ => exact absurd rfl hc

end Sys2Proof.Machine
end

