-- ==== Sys2Proof/Laws/Scanline.lean ====
section
/-! SUPPORT. The scanline engine's turns and loops: what opening a slot, one turn of a body and a run of
turns answer (41_scanline_engine.md section 2, 42_scanline_orders.md). -/

namespace Sys2Proof.Machine

/-! ## Opening a slot -/

/-- The state with the slot of stream pixel `p` open. -/
def State.openAt (s : State) (p : Nat) : State :=
  { s with
    x := p % s.width
    rowsLeft := s.height - 1 - p / s.width
    line := some (s.height - 1 - p / s.width)
    prevLine := if p / s.width = 0 then none else some (s.height - p / s.width) }

theorem State.written_of_line {s : State} (hr : s.rowsLeft < s.height) :
    s.written = (s.height - s.rowsLeft - 1) * s.width + s.x := by
  obtain ⟨d, hd⟩ : ∃ d, s.height - s.rowsLeft = d + 1 := ⟨s.height - s.rowsLeft - 1, by omega⟩
  simp only [State.written, hd, Nat.add_sub_cancel, Nat.succ_mul]
  omega

/-- `Slot()` where the raster has room opens the slot of the next stream pixel. -/
theorem slot_ok {s : State} (hl : s.LineOk) (hw : 0 < s.width) (hp : s.written < s.area) :
    slot s = .ok () (s.openAt s.written) := by
  obtain ⟨hx, hl⟩ := hl
  unfold slot
  by_cases hfull : s.width ≤ s.x
  · have hxw : s.x = s.width := by omega
    have hwr : s.written = (s.height - s.rowsLeft) * s.width := by
      simp only [State.written, hxw]
      omega
    have hr : s.height - s.rowsLeft < s.height := by
      rw [hwr, State.area, Nat.mul_comm s.width] at hp
      exact Nat.lt_of_mul_lt_mul_right hp
    have hr0 : s.rowsLeft ≠ 0 := by omega
    have hdiv : s.written / s.width = s.height - s.rowsLeft := by
      rw [hwr, Nat.mul_div_cancel _ hw]
    have hmod : s.written % s.width = 0 := by rw [hwr, Nat.mul_mod_left]
    have hle : s.rowsLeft ≤ s.height := by
      rcases hl with ⟨-, -, h, -⟩ | ⟨-, h, -⟩ <;> omega
    rw [if_pos hfull, if_neg hr0]
    congr 1
    have e1 : s.height - 1 - (s.height - s.rowsLeft) = s.rowsLeft - 1 := by omega
    simp only [State.openLine, State.openAt, hdiv, hmod, e1]
    congr 1
    rcases hl with ⟨h1, h2, h3, h4⟩ | ⟨h1, h2, h3⟩
    · rw [if_pos (by omega), h1]
    · rw [if_neg (by omega), h1]
      congr 1
      omega
  · have hlt : s.x < s.width := by omega
    rcases hl with ⟨-, h, -⟩ | ⟨h1, h2, h3⟩
    · omega
    · have hwr := State.written_of_line h2
      have hdiv : s.written / s.width = s.height - s.rowsLeft - 1 := by
        rw [hwr, Nat.mul_comm, Nat.mul_add_div hw, Nat.div_eq_of_lt hlt, Nat.add_zero]
      have hmod : s.written % s.width = s.x := by
        rw [hwr, Nat.mul_comm, Nat.mul_add_mod, Nat.mod_eq_of_lt hlt]
      rw [if_neg hfull]
      congr 1
      have e1 : s.height - 1 - (s.height - s.rowsLeft - 1) = s.rowsLeft := by omega
      have e2 : s.height - (s.height - s.rowsLeft - 1) = s.rowsLeft + 1 := by omega
      have e3 : (if s.height - s.rowsLeft - 1 = 0 then none else some (s.rowsLeft + 1)) =
          s.prevLine := by
        rw [h3]
        by_cases h : s.rowsLeft + 1 < s.height
        · rw [if_neg (by omega), if_pos h]
        · rw [if_pos (by omega), if_neg h]
      simp only [State.openAt, hdiv, hmod, e1, e2, e3, ← h1]

/-- `Slot()` on a full raster raises RasterOverflow (41_scanline_engine.md R92). -/
theorem slot_overflow {s : State} (hl : s.LineOk) (hw : 0 < s.width) (hp : s.area ≤ s.written) :
    slot s = .failed (s.failEntry .rasterOverflow s.orderStart) := by
  obtain ⟨hx, hl⟩ := hl
  have key : s.x = s.width ∧ s.rowsLeft = 0 := by
    rcases hl with ⟨h1, h2, h3, h4⟩ | ⟨h1, h2, h3⟩
    · refine ⟨h2, ?_⟩
      have : s.written = 0 := by simp [State.written, h2, h3]
      rw [this, State.area] at hp
      have := Nat.le_zero.mp hp
      rcases Nat.mul_eq_zero.mp this with h | h
      · omega
      · omega
    · rw [State.written_of_line h2, State.area] at hp
      obtain ⟨d, hd⟩ : ∃ d, s.height = d + 1 + s.rowsLeft := ⟨s.height - s.rowsLeft - 1, by omega⟩
      have e : s.height - s.rowsLeft - 1 = d := by omega
      rw [e] at hp
      have hexp : s.width * s.height = d * s.width + s.width + s.rowsLeft * s.width := by
        rw [hd]
        ring
      rw [hexp] at hp
      have h0 : s.rowsLeft = 0 := by
        by_contra h
        have : 1 * s.width ≤ s.rowsLeft * s.width := Nat.mul_le_mul_right _ (by omega)
        omega
      rw [h0, Nat.zero_mul] at hp
      omega
  simp [slot, key.1, key.2, raise]

/-! ## The open slot -/

@[simp] theorem State.openAt_srcW (s : State) (p : Nat) : (s.openAt p).srcW = s.srcW := rfl
@[simp] theorem State.openAt_srcH (s : State) (p : Nat) : (s.openAt p).srcH = s.srcH := rfl
@[simp] theorem State.openAt_pixelAt (s : State) (p i : Nat) :
    (s.openAt p).pixelAt i = s.pixelAt i := rfl
@[simp] theorem State.openAt_mix (s : State) (p : Nat) : (s.openAt p).mix = s.mix := rfl

/-- `Above()` in an open slot. -/
theorem above_openAt {s : State} {p : Nat} (hw : 0 < s.width) (hp : p < s.area) :
    above (s.openAt p) = .ok (s.aboveAt p) (s.openAt p) := by
  unfold above State.aboveAt
  by_cases h : p < s.width
  · have h0 : p / s.width = 0 := Nat.div_eq_of_lt h
    have e : (s.openAt p).prevLine = none := by simp [State.openAt, h0]
    simp only [e, if_pos h]
  · have h0 : p / s.width ≠ 0 := by
      have := Nat.div_pos (Nat.le_of_not_lt h) hw
      omega
    have e : (s.openAt p).prevLine = some (s.height - p / s.width) := by simp [State.openAt, h0]
    have ex : (s.openAt p).x = p % s.width := rfl
    have hi := State.streamIndex_sub_width hw (Nat.le_of_not_lt h) hp
    have hlt : s.streamIndex (p - s.width) < s.area := State.streamIndex_lt (by omega)
    have hm := memRead_ok (s := s.openAt p) (i := s.streamIndex (p - s.width)) hlt
    simp only [e, ex, if_neg h, State.width, State.openAt_srcW] at hm ⊢
    rw [show (s.height - p / s.srcW.toNat) * s.srcW.toNat + p % s.srcW.toNat =
      s.streamIndex (p - s.srcW.toNat) from hi, hm]
    rfl

theorem fillPix_openAt {s : State} {p : Nat} (hw : 0 < s.width) (hp : p < s.area) :
    fillPix (s.openAt p) = .ok (s.fillAt p) (s.openAt p) := by
  simp [fillPix, above_openAt hw hp, State.fillAt]

theorem mixPix_openAt {s : State} {p : Nat} (hw : 0 < s.width) (hp : p < s.area) :
    mixPix (s.openAt p) = .ok (s.mixAt p) (s.openAt p) := by
  simp only [mixPix, above_openAt hw hp, Eff.andThen_ok, State.mixAt]
  cases s.aboveAt p <;> rfl

/-- `Put(v)` in an open slot writes the pixel of that slot. -/
theorem putPixel_ok {t : State} {l i : Nat} (v : Pixel) (hl : t.line = some l)
    (hi : l * t.width + t.x = i) (hlt : i < t.area) :
    putPixel v t = .ok () (t.storePixel i v).nextColumn := by
  simp [putPixel, hl, hi, memWrite_ok v hlt]

/-! ## A run of turns -/

/-- The registers a turn of a body may change besides the line registers and the buffer. -/
structure TurnRegs where
  cur : Nat
  mask : Byte
  mixMask : Byte
  insert : Bool
  toggle : Toggle
  count : Nat

/-- Those registers of a state. -/
def State.turnRegs (s : State) : TurnRegs :=
  ⟨s.cur, s.mask, s.mixMask, s.insert, s.toggle, s.count⟩

/-- A state with those registers replaced. -/
def State.setTurn (s : State) (r : TurnRegs) : State :=
  { s with
    cur := r.cur
    mask := r.mask
    mixMask := r.mixMask
    insert := r.insert
    toggle := r.toggle
    count := r.count }

/-- The state of an order begun in `s` after `k` pixels, with the given registers and buffer. -/
def State.staged (s : State) (k : Nat) (r : TurnRegs) (m : Memory) : State :=
  { (s.moved k).setTurn r with pixels := m }

theorem State.staged_zero (s : State) : s.staged 0 s.turnRegs s.pixels = s := rfl

theorem State.staged_outer (s : State) (k : Nat) (r : TurnRegs) (m : Memory) :
    (s.staged k r m).srcW = s.srcW ∧ (s.staged k r m).srcH = s.srcH ∧ (s.staged k r m).pb = s.pb ∧
    (s.staged k r m).mix = s.mix ∧ (s.staged k r m).colour1 = s.colour1 ∧
    (s.staged k r m).colour2 = s.colour2 ∧ (s.staged k r m).fixed = s.fixed ∧
    (s.staged k r m).inLen = s.inLen ∧ (s.staged k r m).input = s.input ∧
    (s.staged k r m).orderStart = s.orderStart ∧ (s.staged k r m).op = s.op := by
  simp only [State.staged, State.setTurn, State.moved]
  split <;> simp

section
variable (s : State) (k : Nat) (r : TurnRegs) (m : Memory)

@[simp] theorem State.staged_srcW : (s.staged k r m).srcW = s.srcW := (s.staged_outer k r m).1
@[simp] theorem State.staged_srcH : (s.staged k r m).srcH = s.srcH := (s.staged_outer k r m).2.1
@[simp] theorem State.staged_pb : (s.staged k r m).pb = s.pb := (s.staged_outer k r m).2.2.1
@[simp] theorem State.staged_mix : (s.staged k r m).mix = s.mix := (s.staged_outer k r m).2.2.2.1
@[simp] theorem State.staged_colour1 : (s.staged k r m).colour1 = s.colour1 :=
  (s.staged_outer k r m).2.2.2.2.1
@[simp] theorem State.staged_colour2 : (s.staged k r m).colour2 = s.colour2 :=
  (s.staged_outer k r m).2.2.2.2.2.1
@[simp] theorem State.staged_fixed : (s.staged k r m).fixed = s.fixed :=
  (s.staged_outer k r m).2.2.2.2.2.2.1
@[simp] theorem State.staged_inLen : (s.staged k r m).inLen = s.inLen :=
  (s.staged_outer k r m).2.2.2.2.2.2.2.1
@[simp] theorem State.staged_input : (s.staged k r m).input = s.input :=
  (s.staged_outer k r m).2.2.2.2.2.2.2.2.1
@[simp] theorem State.staged_orderStart : (s.staged k r m).orderStart = s.orderStart :=
  (s.staged_outer k r m).2.2.2.2.2.2.2.2.2.1
@[simp] theorem State.staged_op : (s.staged k r m).op = s.op :=
  (s.staged_outer k r m).2.2.2.2.2.2.2.2.2.2
@[simp] theorem State.staged_cur : (s.staged k r m).cur = r.cur := rfl
@[simp] theorem State.staged_mask : (s.staged k r m).mask = r.mask := rfl
@[simp] theorem State.staged_mixMask : (s.staged k r m).mixMask = r.mixMask := rfl
@[simp] theorem State.staged_insert : (s.staged k r m).insert = r.insert := rfl
@[simp] theorem State.staged_toggle : (s.staged k r m).toggle = r.toggle := rfl
@[simp] theorem State.staged_count : (s.staged k r m).count = r.count := rfl
@[simp] theorem State.staged_pixels : (s.staged k r m).pixels = m := rfl
@[simp] theorem State.staged_inByte (a : Nat) : (s.staged k r m).inByte a = s.inByte a := by
  simp [State.inByte]
@[simp] theorem State.staged_streamIndex (p : Nat) :
    (s.staged k r m).streamIndex p = s.streamIndex p := by
  simp [State.streamIndex, State.width, State.height]
@[simp] theorem State.staged_streamPixel (a : Nat) :
    (s.staged k r m).streamPixel a = s.streamPixel a := by
  simp [State.streamPixel]

end

/-- After `k` pixels the raster is written `k` further. -/
theorem State.staged_written {s : State} (hl : s.LineOk) {k : Nat} (hk : s.written + k ≤ s.area)
    (hw : 0 < s.width) (r : TurnRegs) (m : Memory) :
    (s.staged k r m).LineOk ∧ (s.staged k r m).written = s.written + k := by
  rcases Nat.eq_zero_or_pos k with rfl | hk0
  · exact ⟨hl, rfl⟩
  · have hne : k ≠ 0 := by omega
    have hrow : (s.written + k - 1) / s.width < s.height := row_lt (w := s.width)
      (by simp only [State.area] at hk; omega)
    have hdm := Nat.div_add_mod (s.written + k - 1) s.width
    have hmod := Nat.mod_lt (s.written + k - 1) hw
    have hx : (s.staged k r m).x = (s.written + k - 1) % s.width + 1 := by
      simp [State.staged, State.setTurn, State.moved, hne]
    have hrl : (s.staged k r m).rowsLeft = s.height - ((s.written + k - 1) / s.width + 1) := by
      simp [State.staged, State.setTurn, State.moved, hne]
    have hli : (s.staged k r m).line = some (s.height - ((s.written + k - 1) / s.width + 1)) := by
      simp [State.staged, State.setTurn, State.moved, hne]
    have hpl : (s.staged k r m).prevLine =
        if (s.written + k - 1) / s.width = 0 then none
        else some (s.height - (s.written + k - 1) / s.width) := by
      simp [State.staged, State.setTurn, State.moved, hne]
    have hsw : (s.staged k r m).width = s.width := by simp [State.width]
    have hsh : (s.staged k r m).height = s.height := by simp [State.height]
    generalize hq : (s.written + k - 1) / s.width = q at *
    generalize hc : (s.written + k - 1) % s.width = c at *
    constructor
    · refine ⟨by rw [hx, hsw]; omega, .inr ⟨by rw [hli, hrl], by rw [hrl, hsh]; omega, ?_⟩⟩
      rw [hpl, hrl, hsh]
      by_cases h : q = 0
      · rw [if_pos h, if_neg (by omega)]
      · rw [if_neg h, if_pos (by omega)]
        congr 1
        omega
    · rw [State.written, hx, hrl, hsw, hsh]
      have : s.height - (s.height - (q + 1)) = q + 1 := by omega
      rw [this, Nat.succ_mul, Nat.mul_comm q]
      omega

/-- Every index below the end of the raster is in range, also in a later state of the order. -/
theorem State.staged_area (s : State) (k : Nat) (r : TurnRegs) (m : Memory) :
    (s.staged k r m).area = s.area := by
  simp [State.area, State.width, State.height]

/-- One turn of a body that emits: the slot, the source's pixel, the write, the count. -/
theorem emit_staged {source : State → Eff Pixel} {s : State} (hl : s.LineOk) (hw : 0 < s.width)
    {k : Nat} (hk : s.written + k < s.area) {r r' : TurnRegs} {m : Memory} {v : Pixel}
    (hsrc : source ((s.staged k r m).openAt (s.written + k)) =
      .ok v (((s.staged k r m).openAt (s.written + k)).setTurn { r' with count := r'.count + 1 })) :
    emit source (s.staged k r m) =
      .ok () (s.staged (k + 1) r'
        (m.writeList (s.streamIndex (s.written + k) * s.pb.toNat) (Pixel.bytes s.pb v))) := by
  obtain ⟨hl', hwr⟩ := State.staged_written hl (Nat.le_of_lt hk) hw r m
  have hw' : 0 < (s.staged k r m).width := by simpa [State.width] using hw
  have hslot := slot_ok hl' hw' (by rw [hwr, State.staged_area]; exact hk)
  rw [hwr] at hslot
  simp only [emit, hslot, Eff.andThen_ok, hsrc]
  have hi : s.streamIndex (s.written + k) < s.area := State.streamIndex_lt hk
  rw [putPixel_ok (l := s.height - 1 - (s.written + k) / s.width)
    (i := s.streamIndex (s.written + k)) v]
  · simp only [Eff.andThen_ok]
    congr 1
    have hne : k + 1 ≠ 0 := by omega
    have e : ∀ q : Nat, s.srcH.toNat - 1 - q = s.srcH.toNat - (q + 1) := fun q => by omega
    simp only [State.staged, State.moved, hne, if_false, State.setTurn, State.openAt,
      State.storePixel, State.nextColumn, State.countDown, State.width, State.height]
    by_cases h0 : k = 0 <;> simp [h0, e]
  · simp [State.setTurn, State.openAt, State.width, State.height]
  · simp [State.setTurn, State.openAt, State.width, State.height, State.streamIndex]
  · simpa [State.setTurn, State.openAt, State.area, State.width, State.height] using hi

theorem State.pixelAt_congr {t u : State} (hp : u.pixels = t.pixels) (hb : u.pb = t.pb) (i : Nat) :
    u.pixelAt i = t.pixelAt i := by
  simp [State.pixelAt, State.pixelByte, hp, hb]

theorem State.aboveAt_congr {t u : State} (hp : u.pixels = t.pixels) (hb : u.pb = t.pb)
    (hw : u.srcW = t.srcW) (hh : u.srcH = t.srcH) (p : Nat) : u.aboveAt p = t.aboveAt p := by
  simp [State.aboveAt, State.streamIndex, State.width, State.height, hw, hh,
    State.pixelAt_congr hp hb]

/-- The above pixel of a stream pixel does not depend on what is written at it or after it. -/
theorem State.aboveAt_write {t u : State} {p q : Nat} {v : Pixel} (hw : 0 < t.width)
    (hq : q < t.area) (hpq : p ≤ q) (hW : u.srcW = t.srcW) (hH : u.srcH = t.srcH)
    (hb : u.pb = t.pb)
    (hu : u.pixels = t.pixels.writeList (t.streamIndex q * t.pb.toNat) (Pixel.bytes t.pb v)) :
    u.aboveAt p = t.aboveAt p := by
  have e : u.aboveAt p = (t.storePixel (t.streamIndex q) v).aboveAt p :=
    State.aboveAt_congr (by simp [hu]) (by simp [hb]) (by simp [hW]) (by simp [hH]) p
  rw [e]
  have hi : ∀ j, (t.storePixel (t.streamIndex q) v).streamIndex j = t.streamIndex j := fun _ => rfl
  have hs : (t.storePixel (t.streamIndex q) v).width = t.width := rfl
  by_cases h : p < t.width
  · simp only [State.aboveAt, hs, if_pos h]
  · simp only [State.aboveAt, hs, if_neg h, hi]
    rw [State.storePixel_pixelAt_ne]
    intro e
    have := State.streamIndex_inj (s := t) (by omega) hq e
    omega

/-- A run of `k` turns of a body: the loop comes to the state staged `k` pixels on, whose buffer holds
the pixels the turns made and is otherwise unchanged. -/
theorem bodyLoop_run {turn : State → Eff Unit} {s : State} (hw : 0 < s.width) {n : Nat}
    (room : s.written + n ≤ s.area) (r : Nat → TurnRegs) (f : Nat → Option Pixel → Pixel)
    (hcount : ∀ k, k < n → (r k).count ≠ 0)
    (hturn : ∀ k m, k < n → turn (s.staged k (r k) m) =
      .ok () (s.staged (k + 1) (r (k + 1))
        (m.writeList (s.streamIndex (s.written + k) * s.pb.toNat)
          (Pixel.bytes s.pb (f k ((s.staged k (r k) m).aboveAt (s.written + k))))))) :
    ∀ k, k ≤ n → ∃ m,
      (∀ fuel, bodyLoop turn (fuel + k) (s.staged 0 (r 0) s.pixels) =
        bodyLoop turn fuel (s.staged k (r k) m)) ∧
      (s.pixels.wf → m.wf) ∧
      WrotePixels s (s.staged k (r k) m) k
        fun j => f j ((s.staged k (r k) m).aboveAt (s.written + j)) := by
  intro k
  induction k with
  | zero =>
    intro _
    exact ⟨s.pixels, fun _ => rfl, id, by simp [WrotePixels]⟩
  | succ k ih =>
    intro hk
    obtain ⟨m, hrun, hwf, hnew, hold⟩ := ih (by omega)
    have hlt : s.written + k < s.area := by omega
    have hi := State.streamIndex_lt hlt
    let v := f k ((s.staged k (r k) m).aboveAt (s.written + k))
    let m' := m.writeList (s.streamIndex (s.written + k) * s.pb.toNat) (Pixel.bytes s.pb v)
    have habove : ∀ j, j ≤ k → (s.staged (k + 1) (r (k + 1)) m').aboveAt (s.written + j) =
        (s.staged k (r k) m).aboveAt (s.written + j) := by
      intro j hj
      refine State.aboveAt_write (q := s.written + k) (v := v) ?_ ?_ ?_ ?_ ?_ ?_ ?_
      · simpa [State.width] using hw
      · simpa [State.area, State.width, State.height] using hlt
      · omega
      · simp
      · simp
      · simp
      · simp [m']
    have hread : ∀ a, m'.read a =
        if s.streamIndex (s.written + k) * s.pb.toNat ≤ a ∧
            a < s.streamIndex (s.written + k) * s.pb.toNat + s.pb.toNat then
          (Pixel.bytes s.pb v)[a - s.streamIndex (s.written + k) * s.pb.toNat]?
        else m.read a := by
      intro a
      simp only [m', Memory.read_writeList, Pixel.bytes_length]
    refine ⟨m', ?_, fun h => Memory.wf_writeList (hwf h) _ _, ?_, ?_⟩
    · intro fuel
      rw [show fuel + (k + 1) = (fuel + 1) + k by omega, hrun, bodyLoop]
      simp only [State.staged_count, if_neg (hcount k hk), hturn k m hk, Eff.andThen_ok]
      rfl
    · intro j hj b hb
      simp only [State.staged_pixels, hread]
      rcases Nat.lt_succ_iff_lt_or_eq.mp hj with hj | rfl
      · have hne : ¬ (s.streamIndex (s.written + k) * s.pb.toNat ≤
            s.streamIndex (s.written + j) * s.pb.toNat + b ∧
            s.streamIndex (s.written + j) * s.pb.toNat + b <
              s.streamIndex (s.written + k) * s.pb.toNat + s.pb.toNat) := by
          rintro ⟨h1, h2⟩
          obtain ⟨e, -⟩ := byte_index_inj (i := s.streamIndex (s.written + j))
            (j := s.streamIndex (s.written + k))
            (l := s.streamIndex (s.written + j) * s.pb.toNat + b -
              s.streamIndex (s.written + k) * s.pb.toNat) hb (by omega) (by omega)
          have := State.streamIndex_inj (s := s) (by omega) hlt e
          omega
        rw [if_neg hne, habove j (by omega)]
        simpa using hnew j hj b hb
      · rw [if_pos ⟨by omega, by omega⟩, habove j (Nat.le_refl j)]
        congr 1
        omega
    · intro a ha
      simp only [State.staged_pixels, hread]
      rw [if_neg]
      · have := hold a fun j hj b hb => ha j (by omega) b hb
        simpa using this
      · rintro ⟨h1, h2⟩
        exact ha k (by omega) (a - s.streamIndex (s.written + k) * s.pb.toNat) (by omega) (by omega)

/-- A loop whose count is 0 ends, whatever its fuel. -/
theorem bodyLoop_done {turn : State → Eff Unit} {s : State} (h : s.count = 0) (fuel : Nat) :
    bodyLoop turn fuel s = .ok () s := by
  cases fuel <;> simp [bodyLoop, h]

end Sys2Proof.Machine
end

