-- ==== Sys2Proof/Laws/Orders.lean ====
section
/-! SUPPORT. The bodies of the scanline orders: what each pixel source answers in an open slot, and what a
whole body answers where the raster has room and the stream has the data (42_scanline_orders.md). -/

namespace Sys2Proof.Machine

/-! ## A whole body of one pixel a turn -/

/-- A body whose turns each emit one pixel runs to its end where the raster has room. -/
theorem bodyLoop_emit {source : State → Eff Pixel} {s : State} (hl : s.LineOk) (hw : 0 < s.width)
    {n : Nat} (room : s.written + n ≤ s.area) (r : Nat → TurnRegs) (f : Nat → Option Pixel → Pixel)
    (h0 : r 0 = s.turnRegs) (hcount : ∀ k, k ≤ n → (r k).count = n - k)
    (hsrc : ∀ k m, k < n → source ((s.staged k (r k) m).openAt (s.written + k)) =
      .ok (f k ((s.staged k (r k) m).aboveAt (s.written + k)))
        (((s.staged k (r k) m).openAt (s.written + k)).setTurn
          { r (k + 1) with count := (r (k + 1)).count + 1 })) :
    ∃ m, bodyLoop (emit source) (2 * n) s = .ok () (s.staged n (r n) m) ∧
      (s.pixels.wf → m.wf) ∧
      WrotePixels s (s.staged n (r n) m) n
        fun j => f j ((s.staged n (r n) m).aboveAt (s.written + j)) := by
  obtain ⟨m, hrun, hwf, hwrote⟩ := bodyLoop_run (turn := emit source) hw room r f
    (fun k hk => by rw [hcount k (by omega)]; omega)
    (fun k m hk => emit_staged hl hw (by omega) (hsrc k m hk)) n (Nat.le_refl n)
  refine ⟨m, ?_, hwf, hwrote⟩
  have e := hrun n
  rw [h0, State.staged_zero] at e
  rw [show 2 * n = n + n by omega, e, bodyLoop_done]
  rw [State.staged_count, hcount n (Nat.le_refl n)]
  omega

/-! ## The pixel sources in an open slot -/

section
variable {s : State} {p : Nat}

theorem State.setTurn_self (t : State) : t.setTurn t.turnRegs = t := rfl

theorem fillSource_openAt (hw : 0 < s.width) (hp : p < s.area) :
    fillSource (s.openAt p) =
      .ok (if s.insert then s.mixAt p else s.fillAt p)
        ((s.openAt p).setTurn { s.turnRegs with insert := false }) := by
  have e : (s.openAt p).insert = s.insert := rfl
  by_cases h : s.insert = true
  · simp only [fillSource, e, h, if_true, mixPix_openAt hw hp, Eff.andThen_ok]
    rfl
  · simp only [fillSource, e, h, if_false, Bool.false_eq_true, fillPix_openAt hw hp]
    congr 1
    simp only [Bool.not_eq_true] at h
    simp [State.setTurn, State.turnRegs, State.openAt, ← h]

theorem copySource_openAt (hpb : s.pb ≠ .four) (h : s.cur + s.pb.toNat ≤ s.inLen) :
    readPixel (s.openAt p) =
      .ok (s.streamPixel s.cur)
        ((s.openAt p).setTurn { s.turnRegs with cur := s.cur + s.pb.toNat }) := by
  rw [readPixel_ok (s := s.openAt p) hpb h]
  rfl

/-- One bit of a mask byte, chosen by a one-hot cursor (42_scanline_orders.md R106). -/
theorem maskBit_one_shift (m : Byte) {j : Nat} (hj : j < 8) :
    maskBit m ((1 : Byte) <<< j) = m.getLsbD j := by
  simp only [maskBit]
  interval_cases j <;> revert m <;> decide

theorem shiftCursor_one_shift {j : Nat} (hj : j < 8) :
    shiftCursor ((1 : Byte) <<< j) = if j = 7 then 0 else (1 : Byte) <<< (j + 1) := by
  interval_cases j <;> decide

/-- The mask byte of pixel `k` of a Fill-or-Mix order: the fixed one, or a byte of the stream. -/
def State.maskAt (s : State) (k : Nat) : Byte :=
  match s.fixed with
  | some m => m
  | none => s.inByte (s.cur + k / 8)

/-- The stream bytes a Fill-or-Mix order has read after `k` pixels. -/
def State.masksRead (s : State) (k : Nat) : Nat := if s.fixed.isSome then 0 else (k + 7) / 8

/-- The registers of a Fill-or-Mix order begun in `s` after `k` of its `n` pixels. -/
def State.fomRegs (s : State) (n k : Nat) : TurnRegs :=
  { s.turnRegs with
    cur := s.cur + s.masksRead k
    mask := if k = 0 then s.mask else s.maskAt (k - 1)
    mixMask := if k = 0 then 0 else (1 : Byte) <<< ((k - 1) % 8)
    count := n - k }

end

/-- The head of a Fill-or-Mix pixel: the cursor moves on, and every eighth pixel a mask is loaded. -/
theorem nextMaskBit_staged {s : State} {n k p : Nat} {m : Memory}
    (data : s.fixed = none → s.cur + s.masksRead (k + 1) ≤ s.inLen) :
    nextMaskBit ((s.staged k (s.fomRegs n k) m).openAt p) =
      .ok () (((s.staged k (s.fomRegs n k) m).openAt p).setTurn
        { s.fomRegs n (k + 1) with count := n - k }) := by
  have em : ((s.staged k (s.fomRegs n k) m).openAt p).mixMask = (s.fomRegs n k).mixMask := rfl
  have ef : ((s.staged k (s.fomRegs n k) m).openAt p).fixed = s.fixed := by
    simp [State.openAt]
  have hb : ∀ a, ((s.staged k (s.fomRegs n k) m).openAt p).inByte a = s.inByte a := by
    intro a
    simp [State.inByte, State.openAt]
  by_cases h8 : k % 8 = 0
  · have hz : shiftCursor (s.fomRegs n k).mixMask = 0 := by
      simp only [State.fomRegs]
      by_cases h0 : k = 0
      · simp [h0, shiftCursor]
      · rw [if_neg h0, show (k - 1) % 8 = 7 by omega]
        decide
    have h1 : (k + 1 - 1) % 8 = 0 := by omega
    rw [nextMaskBit, em, if_pos hz, ef]
    cases hf : s.fixed with
    | some v =>
      simp [State.setTurn, State.fomRegs, State.maskAt, State.masksRead, hf, State.openAt,
        State.turnRegs, h8]
    | none =>
      have hc : s.masksRead k = k / 8 := by
        simp only [State.masksRead, hf, Option.isSome_none, Bool.false_eq_true, if_false]
        omega
      have hc1 : s.masksRead (k + 1) = k / 8 + 1 := by
        simp only [State.masksRead, hf, Option.isSome_none, Bool.false_eq_true, if_false]
        omega
      simp only
      rw [readByte_ok]
      · simp [State.setTurn, State.fomRegs, State.maskAt, hf, State.openAt, State.advance, hc, hc1,
          State.turnRegs, h8, State.inByte, Nat.add_assoc]
      · have := data hf
        simp only [State.openAt, State.staged_cur, State.staged_inLen, State.fomRegs, hc]
        omega
  · have h0 : k ≠ 0 := by
      rintro rfl
      simp at h8
    have hz : shiftCursor (s.fomRegs n k).mixMask = (1 : Byte) <<< (k % 8) := by
      simp only [State.fomRegs, if_neg h0]
      rw [shiftCursor_one_shift (Nat.mod_lt _ (by omega)), if_neg (by omega),
        show (k - 1) % 8 + 1 = k % 8 by omega]
    have hnz : (1 : Byte) <<< (k % 8) ≠ 0 := by
      have := Nat.mod_lt k (show 0 < 8 by omega)
      generalize k % 8 = j at this ⊢
      interval_cases j <;> decide
    have hm : s.maskAt (k - 1) = s.maskAt k := by
      simp only [State.maskAt]
      rw [show (k - 1) / 8 = k / 8 by omega]
    have hr : s.masksRead k = s.masksRead (k + 1) := by
      simp only [State.masksRead]
      rw [show (k + 7) / 8 = (k + 1 + 7) / 8 by omega]
    rw [nextMaskBit, em, hz, if_neg hnz]
    simp [State.setTurn, State.fomRegs, State.openAt, State.staged, State.turnRegs, h0, hm, hr]

theorem fomPixel_staged {s : State} (hw : 0 < s.width) {n k : Nat} {m : Memory} {p : Nat}
    (hp : p < s.area) (data : s.fixed = none → s.cur + s.masksRead (k + 1) ≤ s.inLen) :
    fomPixel ((s.staged k (s.fomRegs n k) m).openAt p) =
      .ok (if (s.maskAt k).getLsbD (k % 8) then (s.staged k (s.fomRegs n k) m).mixAt p
          else (s.staged k (s.fomRegs n k) m).fillAt p)
        (((s.staged k (s.fomRegs n k) m).openAt p).setTurn
          { s.fomRegs n (k + 1) with count := n - k }) := by
  let u := (s.staged k (s.fomRegs n k) m).setTurn { s.fomRegs n (k + 1) with count := n - k }
  have hu : ((s.staged k (s.fomRegs n k) m).openAt p).setTurn
      { s.fomRegs n (k + 1) with count := n - k } = u.openAt p := rfl
  have huw : 0 < u.width := by simpa [u, State.width, State.setTurn] using hw
  have hua : p < u.area := by
    simpa [u, State.area, State.width, State.height, State.setTurn] using hp
  have ha : u.aboveAt p = (s.staged k (s.fomRegs n k) m).aboveAt p := rfl
  have hbit : maskBit (u.openAt p).mask (u.openAt p).mixMask = (s.maskAt k).getLsbD (k % 8) := by
    rw [← maskBit_one_shift _ (Nat.mod_lt k (show 0 < 8 by omega))]
    simp [u, State.openAt, State.setTurn, State.fomRegs]
  rw [fomPixel, nextMaskBit_staged data]
  simp only [Eff.andThen_ok, hu, hbit]
  by_cases h : (s.maskAt k).getLsbD (k % 8) = true
  · rw [if_pos h, if_pos h, mixPix_openAt huw hua]
    rfl
  · rw [if_neg h, if_neg h, fillPix_openAt huw hua]
    rfl

/-! ## The Bicolour body -/

/-- The registers of a Bicolour order of count `n` begun in `s` after `k` of its pixels. -/
def State.bicolourRegs (s : State) (n k : Nat) : TurnRegs :=
  { s.turnRegs with
    toggle := if k % 2 = 0 then .second else .first
    count := n - (k + 1) / 2 }

theorem bicolourTurn_staged {s : State} (hl : s.LineOk) (hw : 0 < s.width) {n k : Nat} {m : Memory}
    (hk : s.written + k < s.area) :
    bicolourTurn (s.staged k (s.bicolourRegs n k) m) =
      .ok () (s.staged (k + 1) (s.bicolourRegs n (k + 1))
        (m.writeList (s.streamIndex (s.written + k) * s.pb.toNat)
          (Pixel.bytes s.pb (if k % 2 = 0 then s.colour2 else s.colour1)))) := by
  obtain ⟨hl', hwr⟩ := State.staged_written hl (Nat.le_of_lt hk) hw (s.bicolourRegs n k) m
  have hw' : 0 < (s.staged k (s.bicolourRegs n k) m).width := by simpa [State.width] using hw
  have hslot := slot_ok hl' hw' (by rw [hwr, State.staged_area]; exact hk)
  rw [hwr] at hslot
  have hi : s.streamIndex (s.written + k) < s.area := State.streamIndex_lt hk
  have hput : ∀ v, putPixel v ((s.staged k (s.bicolourRegs n k) m).openAt (s.written + k)) =
      .ok () ((((s.staged k (s.bicolourRegs n k) m).openAt (s.written + k)).storePixel
        (s.streamIndex (s.written + k)) v).nextColumn) := by
    intro v
    refine putPixel_ok (l := s.height - 1 - (s.written + k) / s.width)
      (i := s.streamIndex (s.written + k)) v ?_ ?_ ?_
    · simp [State.openAt, State.width, State.height]
    · simp [State.openAt, State.width, State.height, State.streamIndex]
    · simpa [State.openAt, State.area, State.width, State.height] using hi
  have et : ((s.staged k (s.bicolourRegs n k) m).openAt (s.written + k)).toggle =
      if k % 2 = 0 then .second else .first := rfl
  have e : ∀ q : Nat, s.srcH.toNat - 1 - q = s.srcH.toNat - (q + 1) := fun q => by omega
  rw [bicolourTurn, hslot]
  simp only [Eff.andThen_ok, et]
  by_cases h2 : k % 2 = 0
  · have h2' : (k + 1) % 2 ≠ 0 := by omega
    have hc : n - (k + 1) / 2 - 1 = n - (k + 1 + 1) / 2 := by omega
    simp only [h2, if_true, hput, Eff.andThen_ok]
    congr 1
    simp only [State.staged, State.moved, State.setTurn, State.openAt, State.bicolourRegs,
      State.storePixel, State.nextColumn, State.countDown, State.width, State.height, nextToggle,
      State.turnRegs]
    by_cases h0 : k = 0 <;> simp [h0, e, h2', hc]
  · have h2' : (k + 1) % 2 = 0 := by omega
    have hc : (k + 1 + 1) / 2 = (k + 1) / 2 := by omega
    simp only [h2, if_false, hput, Eff.andThen_ok]
    congr 1
    simp only [State.staged, State.moved, State.setTurn, State.openAt, State.bicolourRegs,
      State.storePixel, State.nextColumn, State.width, State.height, nextToggle, State.turnRegs]
    by_cases h0 : k = 0
    · omega
    · simp [h0, e, h2', hc]

end Sys2Proof.Machine
end

