-- ==== Sys2Proof/Laws/Keeps.lean ====
section
/-! SUPPORT. What the scanline orders keep from a state whose line registers are in order: the line
registers, the canonical form of the native buffer, and that every pixel passed has been written. No access
outside a buffer is made (20_memory.md R49, 41_scanline_engine.md R96, R102). -/

namespace Sys2Proof.Machine

variable {α β : Type}

/-- Every byte of the stream pixels the line registers have passed is listed. -/
def State.Listed (s : State) : Prop :=
  ∀ k, k < s.written → ∀ j, j < s.pb.toNat → s.has (s.streamIndex k * s.pb.toNat + j)

/-- What an order, or a piece of one, keeps from `s` to `t`. -/
structure ScanKeeps (s t : State) : Prop where
  lines : t.LineOk
  wf : s.pixels.wf → t.pixels.wf
  listed : s.Listed → t.Listed

/-- What is left of it where the order has failed. -/
def ScanFailed (s t : State) : Prop :=
  ∃ (v : State) (e : Failure), (s.pixels.wf → v.pixels.wf) ∧ t = v.failEntry e s.orderStart

theorem Eff.Sat.and {X Y : Prop} {P Q F G : State → Prop} {e : Eff α} (h : e.Sat X P F)
    (g : e.Sat Y Q G) : e.Sat (X ∧ Y) (fun t => P t ∧ Q t) (fun t => F t ∧ G t) := by
  cases e with
  | ok a t => exact ⟨h, g⟩
  | failed t => exact ⟨h, g⟩
  | fault f => exact ⟨h, g⟩

theorem Eff.Sat.imp {X Y : Prop} {P F : State → Prop} {e : Eff α} (h : e.Sat X P F) (hx : X → Y) :
    e.Sat Y P F := by
  cases e with
  | ok a t => exact h
  | failed t => exact h
  | fault f => exact hx h

/-- A pixel source in an open slot reads the stream and the buffer, and changes neither the line registers
nor the buffer. -/
def SourceOk (source : State → Eff Pixel) : Prop :=
  ∀ (s : State) (p : Nat), 0 < s.width → s.pb ≠ .four → p < s.area →
    (source (s.openAt p)).Sat False (fun t => t = (s.openAt p).setTurn t.turnRegs)
      (fun t => ∃ v e, v = (s.openAt p).setTurn v.turnRegs ∧ t = v.failEntry e s.orderStart)

theorem readByte_open (s : State) (p : Nat) (r : TurnRegs) :
    (readByte ((s.openAt p).setTurn r)).Sat False (fun t => t = (s.openAt p).setTurn t.turnRegs)
      (fun t => ∃ v e, v = (s.openAt p).setTurn v.turnRegs ∧ t = v.failEntry e s.orderStart) := by
  unfold readByte
  split
  · exact ⟨_, .streamUnderrun, rfl, rfl⟩
  · rfl

theorem readPixel_ok_source : SourceOk readPixel := by
  intro s p _ hpb _
  have h0 := readByte_open s p (s.openAt p).turnRegs
  unfold readPixel
  cases hp : (s.openAt p).pb with
  | two =>
    refine h0.andThen fun lo t ht => ?_
    rw [ht]
    refine (readByte_open s p _).andThen fun hi u hu => hu
  | three =>
    refine h0.andThen fun b0 t ht => ?_
    rw [ht]
    refine (readByte_open s p _).andThen fun b1 u hu => ?_
    rw [hu]
    refine (readByte_open s p _).andThen fun b2 v hv => hv
  | four => exact absurd hp hpb

theorem colourSource_ok : SourceOk colourSource := fun _ _ _ _ _ => rfl
theorem whiteSource_ok : SourceOk whiteSource := fun _ _ _ _ _ => rfl
theorem blackSource_ok : SourceOk blackSource := fun _ _ _ _ _ => rfl

theorem mixPix_ok : SourceOk mixPix := by
  intro s p hw _ hp
  rw [mixPix_openAt hw hp]
  rfl

theorem fillSource_ok : SourceOk fillSource := by
  intro s p hw _ hp
  rw [fillSource_openAt hw hp]
  rfl

theorem fomPixel_ok : SourceOk fomPixel := by
  intro s p hw hpb hp
  have key : (nextMaskBit (s.openAt p)).Sat False (fun t => t = (s.openAt p).setTurn t.turnRegs)
      (fun t => ∃ v e, v = (s.openAt p).setTurn v.turnRegs ∧ t = v.failEntry e s.orderStart) := by
    unfold nextMaskBit
    split
    · split
      · rfl
      · refine (readByte_open s p { (s.openAt p).turnRegs with mixMask := 0 }).andThen
          fun b t ht => ?_
        rw [ht]
        rfl
    · rfl
  refine key.andThen fun _ t ht => ?_
  have e : t = ((s.setTurn t.turnRegs).openAt p) := ht
  have hw' : 0 < (s.setTurn t.turnRegs).width := hw
  have hp' : p < (s.setTurn t.turnRegs).area := hp
  split
  · rw [e, mixPix_openAt hw' hp']
    rfl
  · rw [e, fillPix_openAt hw' hp']
    rfl

/-- The state after a pixel was put in the slot of the next stream pixel. -/
theorem put_open {s : State} (hp : s.written < s.area) (v : Pixel) (r : TurnRegs) :
    putPixel v ((s.openAt s.written).setTurn r) =
      .ok () (s.staged 1 r (s.pixels.writeList (s.streamIndex s.written * s.pb.toNat)
        (Pixel.bytes s.pb v))) := by
  have hi := State.streamIndex_lt hp
  rw [putPixel_ok (l := s.height - 1 - s.written / s.width) (i := s.streamIndex s.written) v]
  · congr 1
    have e : ∀ q : Nat, s.srcH.toNat - 1 - q = s.srcH.toNat - (q + 1) := fun q => by omega
    simp [State.staged, State.moved, State.setTurn, State.openAt, State.storePixel, State.nextColumn, e]
  · rfl
  · rfl
  · exact hi

theorem staged_one_keeps {s : State} (hl : s.LineOk) (hw : 0 < s.width) (hp : s.written < s.area)
    (v : Pixel) (r : TurnRegs) :
    ScanKeeps s (s.staged 1 r (s.pixels.writeList (s.streamIndex s.written * s.pb.toNat)
      (Pixel.bytes s.pb v))) := by
  obtain ⟨h1, h2⟩ := State.staged_written hl (k := 1) (by omega) hw r
    (s.pixels.writeList (s.streamIndex s.written * s.pb.toNat) (Pixel.bytes s.pb v))
  refine ⟨h1, fun h => Memory.wf_writeList h _ _, fun h k hk j hj => ?_⟩
  rw [h2] at hk
  simp only [State.staged_pb, State.staged_streamIndex] at hj ⊢
  have hs := State.storePixel_has s (s.streamIndex s.written) v
    (s.streamIndex k * s.pb.toNat + j)
  have e : (s.storePixel (s.streamIndex s.written) v).has (s.streamIndex k * s.pb.toNat + j) =
      (s.staged 1 r (s.pixels.writeList (s.streamIndex s.written * s.pb.toNat)
        (Pixel.bytes s.pb v))).has (s.streamIndex k * s.pb.toNat + j) := rfl
  rw [← e, hs]
  rcases Nat.lt_succ_iff_lt_or_eq.mp hk with hk | rfl
  · exact .inr (h k hk j hj)
  · exact .inl ⟨by omega, by omega⟩

/-- One turn of a body that emits. -/
theorem emit_keeps {source : State → Eff Pixel} (hs : SourceOk source) {s : State} (hl : s.LineOk)
    (hw : 0 < s.width) (hpb : s.pb ≠ .four) :
    (emit source s).Sat False (ScanKeeps s) (ScanFailed s) := by
  unfold emit
  by_cases hp : s.written < s.area
  · rw [slot_ok hl hw hp, Eff.andThen_ok]
    refine Eff.Sat.andThen ((hs s s.written hw hpb hp).mono (fun _ h => h) ?_) fun v t ht => ?_
    · rintro t ⟨u, e, hu, rfl⟩
      refine ⟨u, e, fun h => ?_, rfl⟩
      rw [hu]
      exact h
    · rw [ht, put_open hp, Eff.andThen_ok]
      exact staged_one_keeps hl hw hp v { t.turnRegs with count := t.turnRegs.count - 1 }
  · rw [slot_overflow hl hw (by omega)]
    exact ⟨s, _, id, rfl⟩

theorem bicolourTurn_keeps {s : State} (hl : s.LineOk) (hw : 0 < s.width) :
    (bicolourTurn s).Sat False (ScanKeeps s) (ScanFailed s) := by
  unfold bicolourTurn
  by_cases hp : s.written < s.area
  · rw [slot_ok hl hw hp, Eff.andThen_ok]
    have h : ∀ v, putPixel v (s.openAt s.written) = _ := fun v =>
      put_open hp v (s.openAt s.written).turnRegs
    split
    · rw [h, Eff.andThen_ok]
      exact staged_one_keeps hl hw hp _
        { (s.openAt s.written).turnRegs with count := s.count - 1, toggle := .first }
    · rw [h, Eff.andThen_ok]
      exact staged_one_keeps hl hw hp _ { (s.openAt s.written).turnRegs with toggle := .second }
  · rw [slot_overflow hl hw (by omega)]
    exact ⟨s, _, id, rfl⟩

theorem bodyTurn_keeps (op : EffOp) {s : State} (hl : s.LineOk) (hw : 0 < s.width)
    (hpb : s.pb ≠ .four) : (bodyTurn op s).Sat False (ScanKeeps s) (ScanFailed s) := by
  cases op
  · exact emit_keeps fillSource_ok hl hw hpb
  · exact emit_keeps mixPix_ok hl hw hpb
  · exact emit_keeps fomPixel_ok hl hw hpb
  · exact emit_keeps colourSource_ok hl hw hpb
  · exact emit_keeps readPixel_ok_source hl hw hpb
  · exact bicolourTurn_keeps hl hw
  · exact emit_keeps whiteSource_ok hl hw hpb
  · exact emit_keeps blackSource_ok hl hw hpb

theorem bodyLoop_keeps (op : EffOp) (fuel : Nat) {s : State} (hl : s.LineOk) (hw : 0 < s.width)
    (hpb : s.pb ≠ .four) :
    (bodyLoop (bodyTurn op) fuel s).Sat False (ScanKeeps s) (ScanFailed s) := by
  induction fuel generalizing s with
  | zero => exact ⟨hl, id, id⟩
  | succ fuel ih =>
    unfold bodyLoop
    split
    · exact ⟨hl, id, id⟩
    · have h := ((bodyTurn_keeps op hl hw hpb).and (bodyTurn_body op s)).imp fun h => h.1
      refine Eff.Sat.andThen (h.mono (fun _ h => h) fun _ h => h.1) fun _ t ht => ?_
      obtain ⟨hk, hf⟩ := ht
      have hpb' : t.pb = s.pb := by rw [hf.same]; rfl
      have hw' : t.width = s.width := by rw [hf.same]; rfl
      have ho := hf.orderStart
      refine (ih hk.lines (hw' ▸ hw) (hpb' ▸ hpb)).mono (fun u hu => ?_) fun u hu => ?_
      · exact ⟨hu.lines, fun h => hu.wf (hk.wf h), fun h => hu.listed (hk.listed h)⟩
      · obtain ⟨v, e, hv, rfl⟩ := hu
        exact ⟨v, e, fun h => hv (hk.wf h), by rw [ho]⟩

/-- From `s` to `t` the line registers and the buffer are the same. -/
abbrev SameLines (s t : State) : Prop :=
  t.x = s.x ∧ t.rowsLeft = s.rowsLeft ∧ t.line = s.line ∧ t.prevLine = s.prevLine ∧
  t.pixels = s.pixels ∧ t.srcW = s.srcW ∧ t.srcH = s.srcH ∧ t.pb = s.pb ∧ t.orderStart = s.orderStart

theorem readByte_sameLines (s : State) : (readByte s).Sat False (SameLines s)
    (fun t => ∃ v e, SameLines s v ∧ t = v.failEntry e s.orderStart) := by
  unfold readByte
  split
  · exact ⟨s, _, ⟨rfl, rfl, rfl, rfl, rfl, rfl, rfl, rfl, rfl⟩, rfl⟩
  · exact ⟨rfl, rfl, rfl, rfl, rfl, rfl, rfl, rfl, rfl⟩

theorem SameLines.trans {s t u : State} (h : SameLines s t) (g : SameLines t u) : SameLines s u := by
  obtain ⟨h1, h2, h3, h4, h5, h6, h7, h8, h9⟩ := h
  obtain ⟨g1, g2, g3, g4, g5, g6, g7, g8, g9⟩ := g
  exact ⟨g1.trans h1, g2.trans h2, g3.trans h3, g4.trans h4, g5.trans h5, g6.trans h6, g7.trans h7,
    g8.trans h8, g9.trans h9⟩

/-- The claim the start of an order satisfies: the line registers and the buffer stay. -/
abbrev Eff.Still (s : State) (e : Eff α) : Prop :=
  e.Sat False (SameLines s) (fun t => ∃ v e, SameLines s v ∧ t = v.failEntry e s.orderStart)

theorem Eff.Still.andThen {s : State} {e : Eff α} {k : α → State → Eff β} (h : e.Still s)
    (hk : ∀ a t, SameLines s t → (k a t).Still t) : (e.andThen k).Still s := by
  refine Eff.Sat.andThen h fun a t ht => ?_
  refine (hk a t ht).mono (fun _ hu => ht.trans hu) ?_
  rintro u ⟨v, f, hv, rfl⟩
  exact ⟨v, f, ht.trans hv, by rw [ht.2.2.2.2.2.2.2.2]⟩

theorem SameLines.refl (s : State) : SameLines s s := ⟨rfl, rfl, rfl, rfl, rfl, rfl, rfl, rfl, rfl⟩

theorem readPixel_still {s : State} (hpb : s.pb ≠ .four) : (readPixel s).Still s := by
  unfold readPixel
  cases hp : s.pb with
  | two =>
    exact Eff.Still.andThen (readByte_sameLines s) fun _ t _ =>
      Eff.Still.andThen (readByte_sameLines t) fun _ u _ => SameLines.refl u
  | three =>
    exact Eff.Still.andThen (readByte_sameLines s) fun _ t _ =>
      Eff.Still.andThen (readByte_sameLines t) fun _ u _ =>
        Eff.Still.andThen (readByte_sameLines u) fun _ v _ => SameLines.refl v
  | four => exact absurd hp hpb

/-- A start of an order that reads operand pixels at most. -/
def StartOk (start : State → Eff Unit) : Prop := ∀ s : State, s.pb ≠ .four → (start s).Still s

theorem startPlain_ok : StartOk startPlain := fun s _ => SameLines.refl s
theorem startFill_ok : StartOk startFill := fun s _ => SameLines.refl s
theorem startFixed_ok (m : Byte) : StartOk (startFixed m) := fun s _ => SameLines.refl s
theorem startColour_ok : StartOk startColour := fun _ h =>
  (readPixel_still h).andThen fun _ t _ => SameLines.refl t
theorem startSetMix_ok : StartOk startSetMix := fun _ h =>
  (readPixel_still h).andThen fun _ t _ => SameLines.refl t
theorem startBicolour_ok : StartOk startBicolour := fun s h =>
  (readPixel_still h).andThen fun p t ht =>
    Eff.Still.andThen (s := t) (readPixel_still (s := { t with colour1 := p }) (by
      have e : t.pb = s.pb := ht.2.2.2.2.2.2.2.1
      exact e ▸ h)) fun _ u _ => SameLines.refl u

theorem SameLines.lineOk {s t : State} (h : SameLines s t) (hl : s.LineOk) : t.LineOk := by
  obtain ⟨h1, h2, h3, h4, h5, h6, h7, h8, h9⟩ := h
  simpa only [State.LineOk, State.width, State.height, h1, h2, h3, h4, h6, h7] using hl

theorem SameLines.listed {s t : State} (h : SameLines s t) (hl : s.Listed) : t.Listed := by
  obtain ⟨h1, h2, h3, h4, h5, h6, h7, h8, h9⟩ := h
  simpa only [State.Listed, State.written, State.streamIndex, State.has, State.width, State.height, h1,
    h2, h5, h6, h7, h8] using hl

/-- A whole valid order makes no access outside a buffer, and keeps what `ScanKeeps` says. -/
theorem runOrder_keeps {start : State → Eff Unit} (hs : StartOk start) (n : Nat) (op : EffOp)
    {s : State} (hl : s.LineOk) (hw : 0 < s.width) (hpb : s.pb ≠ .four) :
    (runOrder n start op s).Sat False (ScanKeeps s) (ScanFailed s) := by
  refine Eff.Sat.andThen (P := SameLines s) ((hs (s.beginOrder n) hpb).mono (fun _ h => h) ?_)
    fun _ t ht => ?_
  · rintro t ⟨v, e, hv, rfl⟩
    refine ⟨v, e, fun h => ?_, rfl⟩
    rw [hv.2.2.2.2.1]
    exact h
  · have ht' : SameLines s (t.latchOp op) := ht
    have hw' : (t.latchOp op).width = s.width := by
      simp only [State.width, ht'.2.2.2.2.2.1]
    have hpb' : (t.latchOp op).pb = s.pb := ht'.2.2.2.2.2.2.2.1
    have ho : (t.latchOp op).orderStart = s.orderStart := ht'.2.2.2.2.2.2.2.2
    have hm : (t.latchOp op).pixels = s.pixels := ht'.2.2.2.2.1
    refine (bodyLoop_keeps op _ (ht'.lineOk hl) (hw' ▸ hw) (hpb' ▸ hpb)).mono (fun u hu => ?_) ?_
    · exact ⟨hu.lines, fun h => hu.wf (hm ▸ h), fun h => hu.listed (ht'.listed h)⟩
    · rintro u ⟨v, e, hv, rfl⟩
      exact ⟨v, e, fun h => hv (hm ▸ h), by rw [ho]⟩

theorem unknownOrder_keeps (s : State) :
    (unknownOrder s).Sat False (ScanKeeps s) (ScanFailed s) := ⟨s, _, id, rfl⟩

/-- Every scanline instruction, on every state of the running scanline engine, answers a next state: it
has kept what `ScanKeeps` says, or has failed with the buffer in canonical form. -/
theorem exec_scan_keeps {i : Instr} {s : State} (hc : i.ctx = .scan) (hs : s.ScanOk) :
    ∃ t, exec i s = .next t ∧ (ScanKeeps s t ∨ ScanFailed s t) := by
  obtain ⟨hp, hpb, hw, hl⟩ := hs
  have key : ∀ {run : State → Eff Unit}, (run s).Sat False (ScanKeeps s) (ScanFailed s) →
      ∃ t, inScan run s = .next t ∧ (ScanKeeps s t ∨ ScanFailed s t) := by
    intro run h
    rw [inScan, if_pos ⟨hp, hpb⟩]
    exact h.next
  have order : ∀ {start : State → Eff Unit} (n : Nat) (op : EffOp), StartOk start →
      ∃ t, inScan (runOrder n start op) s = .next t ∧ (ScanKeeps s t ∨ ScanFailed s t) :=
    fun n op h => key (runOrder_keeps h n op hl hw hpb)
  cases i with
  | fill c => exact order _ _ startFill_ok
  | mix c => exact order _ _ startPlain_ok
  | fom c => exact order _ _ startPlain_ok
  | colour c => exact order _ _ startColour_ok
  | copy c => exact order _ _ startPlain_ok
  | reserved5 c => exact key (unknownOrder_keeps s)
  | setmixMix c => exact order _ _ startSetMix_ok
  | setmixFom c => exact order _ _ startSetMix_ok
  | bicolour c => exact order _ _ startBicolour_ok
  | fillM n => exact order _ _ startFill_ok
  | mixM n => exact order _ _ startPlain_ok
  | fomM n => exact order _ _ startPlain_ok
  | colourM n => exact order _ _ startColour_ok
  | copyM n => exact order _ _ startPlain_ok
  | reserved5M n => exact key (unknownOrder_keeps s)
  | setmixMixM n => exact order _ _ startSetMix_ok
  | setmixFomM n => exact order _ _ startSetMix_ok
  | bicolourM n => exact order _ _ startBicolour_ok
  | fomS1 => exact order _ _ (startFixed_ok _)
  | fomS2 => exact order _ _ (startFixed_ok _)
  | reservedB => exact key (unknownOrder_keeps s)
  | reservedC => exact key (unknownOrder_keeps s)
  | white => exact order _ _ startPlain_ok
  | black => exact order _ _ startPlain_ok
  | reservedF => exact key (unknownOrder_keeps s)
  | marker => cases hc
  | long16 c => cases hc
  | long32 c => cases hc
  | raw c r => cases hc

end Sys2Proof.Machine
end

