-- ==== Sys2Proof/Laws/PerInstr.lean ====
section
/-! SUPPORT. A family of facts about every instruction as syntax: how many header bytes its encoding has
(30_encoding.md R74) and which place of a stream it belongs to. -/

namespace Sys2Proof.Laws.EncodeLength

open Sys2Proof.Machine

/-- An instruction's header has one to three bytes, and exactly the instructions of a scanline stream have
a header opcode. -/
def Statement (i : Instr) : Prop :=
  1 ≤ (encode i).length ∧ (encode i).length ≤ maxHeader ∧
    (i.ctx = .scan ↔ (headerOpcode i).isSome = true)

/-- The last part, as an equation that evaluates. -/
theorem of_header {i : Instr} (h1 : 1 ≤ (encode i).length) (h2 : (encode i).length ≤ maxHeader)
    (h3 : decide (i.ctx = .scan) = (headerOpcode i).isSome) : Statement i :=
  ⟨h1, h2, by rw [← h3, decide_eq_true_iff]⟩

theorem fill (c : CountField 5) : Statement (.fill c) := by
  cases c <;> exact of_header (Nat.le_of_ble_eq_true rfl) (Nat.le_of_ble_eq_true rfl) rfl

theorem mix (c : CountField 5) : Statement (.mix c) := by
  cases c <;> exact of_header (Nat.le_of_ble_eq_true rfl) (Nat.le_of_ble_eq_true rfl) rfl

theorem fom (c : CountField 5) : Statement (.fom c) := by
  cases c <;> exact of_header (Nat.le_of_ble_eq_true rfl) (Nat.le_of_ble_eq_true rfl) rfl

theorem colour (c : CountField 5) : Statement (.colour c) := by
  cases c <;> exact of_header (Nat.le_of_ble_eq_true rfl) (Nat.le_of_ble_eq_true rfl) rfl

theorem copy (c : CountField 5) : Statement (.copy c) := by
  cases c <;> exact of_header (Nat.le_of_ble_eq_true rfl) (Nat.le_of_ble_eq_true rfl) rfl

theorem reserved5 (c : CountField 5) : Statement (.reserved5 c) := by
  cases c <;> exact of_header (Nat.le_of_ble_eq_true rfl) (Nat.le_of_ble_eq_true rfl) rfl

theorem setmixMix (c : CountField 4) : Statement (.setmixMix c) := by
  cases c <;> exact of_header (Nat.le_of_ble_eq_true rfl) (Nat.le_of_ble_eq_true rfl) rfl

theorem setmixFom (c : CountField 4) : Statement (.setmixFom c) := by
  cases c <;> exact of_header (Nat.le_of_ble_eq_true rfl) (Nat.le_of_ble_eq_true rfl) rfl

theorem bicolour (c : CountField 4) : Statement (.bicolour c) := by
  cases c <;> exact of_header (Nat.le_of_ble_eq_true rfl) (Nat.le_of_ble_eq_true rfl) rfl

theorem fillM (n : Word16) : Statement (.fillM n) :=
  of_header (Nat.le_of_ble_eq_true rfl) (Nat.le_of_ble_eq_true rfl) rfl

theorem mixM (n : Word16) : Statement (.mixM n) :=
  of_header (Nat.le_of_ble_eq_true rfl) (Nat.le_of_ble_eq_true rfl) rfl

theorem fomM (n : Word16) : Statement (.fomM n) :=
  of_header (Nat.le_of_ble_eq_true rfl) (Nat.le_of_ble_eq_true rfl) rfl

theorem colourM (n : Word16) : Statement (.colourM n) :=
  of_header (Nat.le_of_ble_eq_true rfl) (Nat.le_of_ble_eq_true rfl) rfl

theorem copyM (n : Word16) : Statement (.copyM n) :=
  of_header (Nat.le_of_ble_eq_true rfl) (Nat.le_of_ble_eq_true rfl) rfl

theorem reserved5M (n : Word16) : Statement (.reserved5M n) :=
  of_header (Nat.le_of_ble_eq_true rfl) (Nat.le_of_ble_eq_true rfl) rfl

theorem setmixMixM (n : Word16) : Statement (.setmixMixM n) :=
  of_header (Nat.le_of_ble_eq_true rfl) (Nat.le_of_ble_eq_true rfl) rfl

theorem setmixFomM (n : Word16) : Statement (.setmixFomM n) :=
  of_header (Nat.le_of_ble_eq_true rfl) (Nat.le_of_ble_eq_true rfl) rfl

theorem bicolourM (n : Word16) : Statement (.bicolourM n) :=
  of_header (Nat.le_of_ble_eq_true rfl) (Nat.le_of_ble_eq_true rfl) rfl

theorem fomS1 : Statement .fomS1 :=
  of_header (Nat.le_of_ble_eq_true rfl) (Nat.le_of_ble_eq_true rfl) rfl

theorem fomS2 : Statement .fomS2 :=
  of_header (Nat.le_of_ble_eq_true rfl) (Nat.le_of_ble_eq_true rfl) rfl

theorem reservedB : Statement .reservedB :=
  of_header (Nat.le_of_ble_eq_true rfl) (Nat.le_of_ble_eq_true rfl) rfl

theorem reservedC : Statement .reservedC :=
  of_header (Nat.le_of_ble_eq_true rfl) (Nat.le_of_ble_eq_true rfl) rfl

theorem white : Statement .white :=
  of_header (Nat.le_of_ble_eq_true rfl) (Nat.le_of_ble_eq_true rfl) rfl

theorem black : Statement .black :=
  of_header (Nat.le_of_ble_eq_true rfl) (Nat.le_of_ble_eq_true rfl) rfl

theorem reservedF : Statement .reservedF :=
  of_header (Nat.le_of_ble_eq_true rfl) (Nat.le_of_ble_eq_true rfl) rfl

theorem marker : Statement .marker :=
  of_header (Nat.le_of_ble_eq_true rfl) (Nat.le_of_ble_eq_true rfl) rfl

theorem long16 (c : BitVec 4) : Statement (.long16 c) :=
  of_header (Nat.le_of_ble_eq_true rfl) (Nat.le_of_ble_eq_true rfl) rfl

theorem long32 (c : BitVec 4) : Statement (.long32 c) :=
  of_header (Nat.le_of_ble_eq_true rfl) (Nat.le_of_ble_eq_true rfl) rfl

theorem raw (c r : BitVec 4) : Statement (.raw c r) :=
  of_header (Nat.le_of_ble_eq_true rfl) (Nat.le_of_ble_eq_true rfl) rfl

end Sys2Proof.Laws.EncodeLength
end

