-- ==== Sys2Proof/Laws/PlanarRuns.lean ====
section
/-! SUPPORT. The planar engine's runs: what putting a lane does, what a run keeps from a state whose loop
registers are in range, and what a run of turns answers where the stream has the data
(43_planar_engine.md R135, R136, R140). -/

namespace Sys2Proof.Machine

variable {α β : Type}

/-- What a planar run, or a piece of one, keeps from `s` to `t`: it moves along its row, and has written
the lane of every column it passed. -/
structure LaneKeeps (s t : State) : Prop where
  same : t = s.withPlanar t
  plane : t.plane = s.plane
  krow : t.krow = s.krow
  replen : t.replen = s.replen
  mono : s.col ≤ t.col
  wf : s.pixels.wf → t.pixels.wf
  has : ∀ a, s.has a → t.has a
  passed : ∀ c, s.col ≤ c → c < t.col →
    t.has ((s.planarRow * s.width + c) * s.pb.toNat + s.planarLane)

/-- What is left of it where the run has failed. -/
def LaneFailed (s t : State) : Prop :=
  ∃ (v : State) (e : Failure), (s.pixels.wf → v.pixels.wf) ∧ t = v.failEntry e s.orderStart

theorem LaneKeeps.refl (s : State) : LaneKeeps s s :=
  ⟨rfl, rfl, rfl, rfl, Nat.le_refl _, id, fun _ h => h, fun _ h1 h2 => by omega⟩

theorem LaneKeeps.row {s t : State} (h : LaneKeeps s t) :
    t.planarRow = s.planarRow ∧ t.width = s.width ∧ t.height = s.height ∧ t.pb = s.pb ∧
    t.planarLane = s.planarLane ∧ t.orderStart = s.orderStart := by
  have h1 := h.krow
  have h2 := h.plane
  have e : t.height = s.height := by rw [h.same]; rfl
  refine ⟨?_, ?_, e, ?_, ?_, ?_⟩
  · simp only [State.planarRow, h1, e]
  · rw [h.same]; rfl
  · rw [h.same]; rfl
  · simp only [State.planarLane, h2]
  · rw [h.same]; rfl

theorem LaneKeeps.trans {s t u : State} (h : LaneKeeps s t) (g : LaneKeeps t u) : LaneKeeps s u := by
  obtain ⟨h1, h2, h3, h4, h5, h6⟩ := h.row
  refine ⟨?_, g.plane.trans h.plane, g.krow.trans h.krow, g.replen.trans h.replen,
    Nat.le_trans h.mono g.mono,
    fun hw => g.wf (h.wf hw), fun a ha => g.has a (h.has a ha), fun c hc hlt => ?_⟩
  · calc u = t.withPlanar u := g.same
      _ = (s.withPlanar t).withPlanar u := by rw [← h.same]
      _ = s.withPlanar u := rfl
  · by_cases hct : c < t.col
    · exact g.has _ (h.passed c hc hct)
    · have := g.passed c (by omega) hlt
      rwa [h1, h2, h4, h5] at this

theorem LaneFailed.trans {s t u : State} (h : LaneKeeps s t) (g : LaneFailed t u) : LaneFailed s u := by
  obtain ⟨v, e, hv, rfl⟩ := g
  exact ⟨v, e, fun hw => hv (h.wf hw), by rw [h.row.2.2.2.2.2]⟩

/-- The current pixel of a row in range is in the buffer. -/
theorem planarIndex_lt {s : State} (hk : s.krow < s.height) (hc : s.col < s.width) :
    s.planarIndex < s.area :=
  row_mul_add_lt (show s.height - 1 - s.krow < s.height by omega) hc

/-- So is the one above it, once the plane's first row is past. -/
theorem planarUpIndex_lt {s : State} (h0 : s.krow ≠ 0) (hk : s.krow < s.height) (hc : s.col < s.width) :
    s.planarUpIndex < s.area :=
  row_mul_add_lt (show s.height - 1 - s.krow + 1 < s.height by omega) hc

/-- The claim of one turn: the column moves on by one. -/
def LanePut (s t : State) : Prop := LaneKeeps s t ∧ t.col = s.col + 1

theorem putLane_keeps (b : Byte) {s : State} (hk : s.krow < s.height) (hc : s.col < s.width) :
    (putLane b s).Sat False (LanePut s) (LaneFailed s) := by
  rw [putLane, memWriteLane, if_pos (planarIndex_lt hk hc), Eff.andThen_ok]
  refine ⟨⟨rfl, rfl, rfl, rfl, Nat.le_succ _, fun h => Memory.wf_write h _ _, fun a ha => ?_,
    fun c h1 h2 => ?_⟩, rfl⟩
  · exact (State.storeLane_has s _ _ b a).mpr (.inr ha)
  · simp only [State.nextPlanarColumn_col, State.storeLane_col] at h2
    have : c = s.col := by omega
    exact (State.storeLane_has s _ _ b _).mpr (.inl (by rw [this]; rfl))

theorem LaneKeeps.ofRun {s t : State} {r : Int} (h : LaneKeeps (s.setRun r) t) : LaneKeeps s t :=
  have h0 : LaneKeeps s (s.setRun r) :=
    ⟨rfl, rfl, rfl, rfl, Nat.le_refl _, id, fun _ h => h, fun _ h1 h2 => by
      simp only [State.setRun_col] at h2
      omega⟩
  h0.trans h

theorem LanePut.ofRun {s : State} {r : Int} {e : Eff α}
    (h : e.Sat False (LanePut (s.setRun r)) (LaneFailed (s.setRun r))) :
    e.Sat False (LanePut s) (LaneFailed s) :=
  h.mono (fun _ ht => ⟨ht.1.ofRun, ht.2⟩) fun _ ⟨v, f, hv, ht⟩ => ⟨v, f, hv, ht⟩

theorem readByte_lane {s : State} {k : Byte → State → Eff Unit}
    (h : ∀ b, (k b (s.advance 1)).Sat False (LanePut (s.advance 1)) (LaneFailed (s.advance 1))) :
    ((readByte s).andThen k).Sat False (LanePut s) (LaneFailed s) := by
  unfold readByte
  split
  · exact ⟨s, _, id, rfl⟩
  · refine (h _).mono (fun t ht => ?_) fun t ⟨v, f, hv, ht⟩ => ⟨v, f, hv, ht⟩
    have h0 : LaneKeeps s (s.advance 1) :=
      ⟨rfl, rfl, rfl, rfl, Nat.le_refl _, id, fun _ h => h, fun _ h1 h2 => by
        simp only [State.advance_col] at h2
        omega⟩
    exact ⟨h0.trans ht.1, ht.2⟩

theorem putDelta_keeps {s : State} (h0 : s.krow ≠ 0) (hk : s.krow < s.height) (hc : s.col < s.width) :
    (putDelta s).Sat False (LanePut s) (LaneFailed s) := by
  rw [putDelta, memReadLane_ok _ (planarUpIndex_lt h0 hk hc), Eff.andThen_ok]
  exact putLane_keeps _ hk hc

theorem literalTurn_keeps {s : State} (hk : s.krow < s.height) (hc : s.col < s.width) :
    (literalTurn s).Sat False (LanePut s) (LaneFailed s) :=
  readByte_lane fun _ => LanePut.ofRun (putLane_keeps (s := (s.advance 1).setRun _) _ hk hc)

theorem literalRepeat_keeps {s : State} (hk : s.krow < s.height) (hc : s.col < s.width) :
    (literalRepeat s).Sat False (LanePut s) (LaneFailed s) := putLane_keeps _ hk hc

theorem deltaTurn_keeps {s : State} (h0 : s.krow ≠ 0) (hk : s.krow < s.height) (hc : s.col < s.width) :
    (deltaTurn s).Sat False (LanePut s) (LaneFailed s) :=
  readByte_lane fun _ => LanePut.ofRun (putDelta_keeps (s := (s.advance 1).setRun _) h0 hk hc)

/-- A repetition of turns that each put one lane. -/
theorem repeatTimes_keeps {turn : State → Eff Unit} {n : Nat} {s : State}
    (h : ∀ u, LaneKeeps s u → u.col < s.col + n → (turn u).Sat False (LanePut u) (LaneFailed u)) :
    (repeatTimes turn n s).Sat False (fun t => LaneKeeps s t ∧ t.col = s.col + n) (LaneFailed s) := by
  induction n generalizing s with
  | zero => exact ⟨.refl s, rfl⟩
  | succ n ih =>
    refine (h s (.refl s) (by omega)).andThen fun _ t ht => ?_
    obtain ⟨hk, hc⟩ := ht
    refine (ih fun u hu hlt => h u (hk.trans hu) (by omega)).mono (fun u hu => ?_) fun u hu => hu.trans hk
    exact ⟨hk.trans hu.1, by omega⟩

/-- A run within its row, whatever its mode. -/
theorem runControl_keeps {s : State} (hk : s.krow < s.height) :
    (runControl s).Sat False (fun t => LaneKeeps s t ∧ t.col ≤ s.width) (LaneFailed s) := by
  unfold runControl
  split
  · exact ⟨s, _, id, rfl⟩
  · next hroom =>
    have seq : ∀ {t1 t2 : State → Eff Unit},
        (∀ u, LaneKeeps s u → u.col < s.width → (t1 u).Sat False (LanePut u) (LaneFailed u)) →
        (∀ u, LaneKeeps s u → u.col < s.width → (t2 u).Sat False (LanePut u) (LaneFailed u)) →
        ((repeatTimes t1 s.collen s).andThen fun _ t => repeatTimes t2 t.replen t).Sat False
          (fun t => LaneKeeps s t ∧ t.col ≤ s.width) (LaneFailed s) := by
      intro t1 t2 h1 h2
      refine (repeatTimes_keeps fun u hu hlt => h1 u hu (by omega)).andThen fun _ t ht => ?_
      obtain ⟨hk, hcol⟩ := ht
      have hr := hk.replen
      refine (repeatTimes_keeps fun u hu hlt => h2 u (hk.trans hu) (by omega)).mono
        (fun u hu => ⟨hk.trans hu.1, by omega⟩) fun u hu => hu.trans hk
    have inRow : ∀ u, LaneKeeps s u → u.col < s.width → u.krow < u.height ∧ u.col < u.width := by
      intro u hu hlt
      obtain ⟨-, h2, h3, -⟩ := hu.row
      rw [hu.krow, h3, h2]
      exact ⟨hk, hlt⟩
    split
    · exact seq (fun u hu hlt => literalTurn_keeps (inRow u hu hlt).1 (inRow u hu hlt).2)
        fun u hu hlt => literalRepeat_keeps (inRow u hu hlt).1 (inRow u hu hlt).2
    · next h0 =>
      exact seq
        (fun u hu hlt => deltaTurn_keeps (hu.krow ▸ h0) (inRow u hu hlt).1 (inRow u hu hlt).2)
        fun u hu hlt => putDelta_keeps (hu.krow ▸ h0) (inRow u hu hlt).1 (inRow u hu hlt).2

/-- What a planar control byte leaves where it goes on. -/
structure RunKeeps (s t : State) : Prop where
  same : t = s.withPlanar t
  plane : t.plane = s.plane
  krow : t.krow = s.krow
  mono : s.col ≤ t.col
  inRow : t.col ≤ s.width
  wf : s.pixels.wf → t.pixels.wf
  has : ∀ a, s.has a → t.has a
  passed : ∀ c, s.col ≤ c → c < t.col →
    t.has ((s.planarRow * s.width + c) * s.pb.toNat + s.planarLane)

/-- Every planar control byte, on every state of the running planar engine, answers a next state. -/
theorem exec_control_keeps {i : Instr} {s : State} (hc : i.ctx = .control) (hs : s.PlanarOk) :
    ∃ t, exec i s = .next t ∧ (RunKeeps s t ∨ LaneFailed s t) := by
  obtain ⟨hp, hpb, -, -, hk, -⟩ := hs
  have key : ∀ b : Byte, ∃ t, inPlanar (fun s => runControl (s.latchRun b)) s = .next t ∧
      (RunKeeps s t ∨ LaneFailed s t) := by
    intro b
    rw [inPlanar, if_pos ⟨hp, hpb⟩]
    obtain ⟨t, ht, h⟩ := (runControl_keeps (s := s.latchRun b) hk).next
    refine ⟨t, ht, h.imp (fun h => ?_) fun ⟨v, e, hv, hf⟩ => ⟨v, e, hv, hf⟩⟩
    obtain ⟨h, hle⟩ := h
    refine ⟨?_, h.plane, h.krow, h.mono, hle, h.wf, h.has, h.passed⟩
    have := h.same
    rw [this]
    rfl
  cases i with
  | long16 c => exact key _
  | long32 c => exact key _
  | raw c r => exact key _
  | _ => cases hc

end Sys2Proof.Machine
end

