-- ==== Sys2Proof/Laws/Step.lean ====
section
/-! SUPPORT. What a header read answers and what a step of a call in progress can do, once
(40_decode_call.md R80 .. R86). -/

namespace Sys2Proof.Machine

/-! ## Headers -/

theorem decodeCounted_len {w : Nat} {f : BitVec w} {rest : List Byte} {mk : CountField w → Instr}
    {i : Instr} {len : Nat} (h : decodeCounted f rest mk = .instr i len) :
    1 ≤ len ∧ len ≤ 1 + rest.length := by
  unfold decodeCounted at h
  split at h
  · split at h
    · simp only [DecodeResult.instr.injEq] at h
      simp only [← h.2, List.length_cons]
      omega
    · simp at h
  · simp only [DecodeResult.instr.injEq] at h
    omega

theorem decodeMega_len {rest : List Byte} {mk : Word16 → Instr} {i : Instr} {len : Nat}
    (h : decodeMega rest mk = .instr i len) : 1 ≤ len ∧ len ≤ 1 + rest.length := by
  unfold decodeMega at h
  split at h
  · simp only [DecodeResult.instr.injEq] at h
    simp only [← h.2, List.length_cons]
    omega
  · simp at h

/-- A header has at least one byte and no more than there are. -/
theorem decode_len {c : Ctx} {bs : List Byte} {i : Instr} {len : Nat}
    (h : decode c bs = .instr i len) : 1 ≤ len ∧ len ≤ bs.length := by
  cases bs with
  | nil => cases c <;> simp [decode, decodeScan, decodeMarker, decodeControl] at h
  | cons b rest =>
    have hl : (b :: rest).length = 1 + rest.length := by
      rw [List.length_cons]
      omega
    rw [hl]
    cases c with
    | scan =>
      simp only [decode, decodeScan] at h
      split at h
      · split at h
        · unfold decodeMegaForm at h
          dsimp only at h
          repeat' split at h
          all_goals exact decodeMega_len h
        · unfold decodeSpecial at h
          dsimp only at h
          repeat' split at h
          all_goals
            simp only [DecodeResult.instr.injEq] at h
            omega
      · split at h
        · unfold decodeLite at h
          repeat' split at h
          all_goals exact decodeCounted_len h
        · unfold decodeRegular at h
          dsimp only at h
          repeat' split at h
          all_goals exact decodeCounted_len h
    | marker =>
      simp only [decode, decodeMarker] at h
      split at h
      · simp only [DecodeResult.instr.injEq] at h
        omega
      · simp at h
    | control =>
      simp only [decode, decodeControl] at h
      repeat' split at h
      all_goals
        simp only [DecodeResult.instr.injEq] at h
        omega

theorem decodeCounted_ctx {w : Nat} {f : BitVec w} {rest : List Byte} {mk : CountField w → Instr}
    {i : Instr} {len : Nat} (hmk : ∀ c, (mk c).ctx = .scan)
    (h : decodeCounted f rest mk = .instr i len) : i.ctx = .scan := by
  unfold decodeCounted at h
  repeat' split at h
  · simp only [DecodeResult.instr.injEq] at h
    rw [← h.1, hmk]
  · simp at h
  · simp only [DecodeResult.instr.injEq] at h
    rw [← h.1, hmk]

theorem decodeMega_ctx {rest : List Byte} {mk : Word16 → Instr} {i : Instr} {len : Nat}
    (hmk : ∀ n, (mk n).ctx = .scan) (h : decodeMega rest mk = .instr i len) : i.ctx = .scan := by
  unfold decodeMega at h
  split at h
  · simp only [DecodeResult.instr.injEq] at h
    rw [← h.1, hmk]
  · simp at h

/-- What is decoded in a place of a stream is an instruction of that place. -/
theorem decode_ctx {c : Ctx} {bs : List Byte} {i : Instr} {len : Nat}
    (h : decode c bs = .instr i len) : i.ctx = c := by
  cases bs with
  | nil => cases c <;> simp [decode, decodeScan, decodeMarker, decodeControl] at h
  | cons b rest =>
    cases c with
    | scan =>
      simp only [decode, decodeScan] at h
      split at h
      · split at h
        · unfold decodeMegaForm at h
          dsimp only at h
          repeat' split at h
          all_goals exact decodeMega_ctx (fun _ => rfl) h
        · unfold decodeSpecial at h
          dsimp only at h
          repeat' split at h
          all_goals
            simp only [DecodeResult.instr.injEq] at h
            rw [← h.1]
            rfl
      · split at h
        · unfold decodeLite at h
          repeat' split at h
          all_goals exact decodeCounted_ctx (fun _ => rfl) h
        · unfold decodeRegular at h
          dsimp only at h
          repeat' split at h
          all_goals exact decodeCounted_ctx (fun _ => rfl) h
    | marker =>
      simp only [decode, decodeMarker] at h
      split at h
      · simp only [DecodeResult.instr.injEq] at h
        rw [← h.1]
        rfl
      · simp at h
    | control =>
      simp only [decode, decodeControl] at h
      repeat' split at h
      all_goals
        simp only [DecodeResult.instr.injEq] at h
        rw [← h.1]
        rfl

/-! ## A step of a call in progress -/

theorem headerBytes_length (s : State) : s.headerBytes.length ≤ s.inLen - s.cur := by
  simp [State.headerBytes]

/-- The state in which an instruction of the header at the cursor runs: at the order's start, moved past
some of the bytes left. -/
def State.PastHeader (s u : State) : Prop :=
  ∃ len, 1 ≤ len ∧ len ≤ s.inLen - s.cur ∧ u = s.startOrder.advance len

/-- A step that fetches runs the instruction past its header, or has failed in the header. -/
theorem fetch_next {c : Ctx} {s t : State}
    (h : (match fetch c s with | .instr i u => exec i u | .failed u => .next u) = .next t) :
    (∃ i u, i.ctx = c ∧ s.PastHeader u ∧ exec i u = .next t) ∨
    (∃ e p n, n ≤ s.inLen - s.cur ∧ t = (s.startOrder.advance n).failEntry e p) := by
  have hl := headerBytes_length s
  unfold fetch at h
  cases hd : decode c s.headerBytes with
  | instr i len =>
    simp only [hd] at h
    have := decode_len hd
    exact .inl ⟨i, _, decode_ctx hd, ⟨len, this.1, by omega, rfl⟩, h⟩
  | error e =>
    cases e with
    | truncated =>
      simp only [hd, Host.Outcome.next.injEq] at h
      exact .inr ⟨_, _, _, hl, h.symm⟩
    | badMarker b =>
      simp only [hd, Host.Outcome.next.injEq] at h
      have hne : s.headerBytes ≠ [] := by
        intro h0
        rw [h0] at hd
        cases c <;> simp [decode, decodeScan, decodeMarker, decodeControl] at hd
      have := List.length_pos_of_ne_nil hne
      exact .inr ⟨_, _, 1, by omega, h.symm⟩

/-- What a step of a call in progress can answer. `order`, `run`: an instruction of the stream went on.
`row`: the planar loops moved on. `engine`: the engine finished. `dispatch`: the call was validated.
`done`: the call succeeded. `failed`: a failure was entered, from some state `v` of the others' shape. -/
inductive BusyStep (s t : State) : Prop where
  | order (u : State) (phase : s.phase = .scan) (at_ : s.PastHeader u) (frame : OrderFrame u t)
  | run (u : State) (phase : s.phase = .planar) (at_ : s.PastHeader u) (frame : PlanarFrame u t)
  | row (phase : s.phase = .planar) (eq : t = planarNextRow s)
  | engine (phase : s.phase = .scan ∨ s.phase = .planar) (eq : t = { s with phase := .normalize })
  | dispatch (pb : PixelBytes) (phase : s.phase = .validate) (eq : t = { s with
      pb := pb, dstW := s.dstR - s.dstL + 1, dstH := s.dstB - s.dstT + 1, phase := enginePhase pb })
  | done (phase : s.phase = .normalize) (eq : t = { s with
      out := t.out, status := .ok, errPos := 0, outLen := t.outLen, phase := .done })
  | failed (v : State) (e : Failure) (pos : Nat) (same : v = (s.withOrder v).withPlanar v ∨
      v = ({ s with orderStart := s.cur }.withOrder v).withPlanar v)
      (mono : s.cur ≤ v.cur) (bound : s.cur ≤ s.inLen → v.cur ≤ s.inLen)
      (eq : t = v.failEntry e pos)

theorem State.PastHeader.cur {s u : State} (h : s.PastHeader u) : s.cur < u.cur ∧ u.cur ≤ s.inLen := by
  obtain ⟨len, h1, h2, rfl⟩ := h
  simp only [State.advance_cur, State.startOrder_cur]
  omega

theorem State.PastHeader.inLen {s u : State} (h : s.PastHeader u) : u.inLen = s.inLen := by
  obtain ⟨len, h1, h2, rfl⟩ := h
  rfl

theorem BusyStep.ofOrderFailed {s u t : State} (h : s.PastHeader u) (ht : OrderFailed u t) :
    BusyStep s t := by
  obtain ⟨v, e, hv, rfl⟩ := ht
  have hc := h.cur
  have hm := hv.mono
  refine .failed v e _ (.inr ?_) (by omega) (fun _ => ?_) rfl
  · obtain ⟨len, -, -, rfl⟩ := h
    have := hv.same
    rw [this]
    rfl
  · have := hv.bound (by rw [h.inLen]; omega)
    rwa [h.inLen] at this

theorem BusyStep.ofPlanarFailed {s u t : State} (h : s.PastHeader u) (ht : PlanarFailed u t) :
    BusyStep s t := by
  obtain ⟨v, e, hv, rfl⟩ := ht
  have hc := h.cur
  have hm := hv.mono
  refine .failed v e _ (.inr ?_) (by omega) (fun _ => ?_) rfl
  · obtain ⟨len, -, -, rfl⟩ := h
    have := hv.same
    rw [this]
    rfl
  · have := hv.bound (by rw [h.inLen]; omega)
    rwa [h.inLen] at this

theorem BusyStep.ofFailEntry (s : State) (e : Failure) (pos : Nat) : BusyStep s (s.failEntry e pos) :=
  .failed s e pos (.inl rfl) (Nat.le_refl _) id rfl

theorem BusyStep.ofHeader {s : State} {n : Nat} (e : Failure) (pos : Nat) (h : n ≤ s.inLen - s.cur) :
    BusyStep s ((s.startOrder.advance n).failEntry e pos) :=
  .failed (s.startOrder.advance n) e pos (.inr rfl) (Nat.le_add_right _ _)
    (fun hs => by simp only [State.advance_cur, State.startOrder_cur]; omega) rfl

/-- The inversion of a step of a call in progress. -/
theorem busy_step {s t : State} (hb : s.Busy) (h : step s = .next t) : BusyStep s t := by
  unfold step State.action at h
  rcases hb with hp | hp | hp | hp
  · simp only [hp, Host.Outcome.next.injEq] at h
    subst h
    unfold validateStep
    split
    · split
      · exact .ofFailEntry s _ _
      · exact .dispatch _ hp rfl
    · exact .ofFailEntry s _ _
  · by_cases hc : s.cur < s.inLen
    · simp only [hp, hc, if_true] at h
      rcases fetch_next h with ⟨i, u, hctx, hu, hx⟩ | ⟨e, p, n, hn, rfl⟩
      · rcases (exec_scan_next hctx hx).2.2 with hf | hf
        · exact .order u hp hu hf
        · exact .ofOrderFailed hu hf
      · exact .ofHeader e p hn
    · simp only [hp, hc, if_false, Host.Outcome.next.injEq] at h
      subst h
      unfold scanComplete
      split
      · exact .engine (.inl hp) rfl
      · exact .ofFailEntry s _ _
  · have key : ∀ c, c ≠ .scan →
        (match fetch c s with | .instr i u => exec i u | .failed u => .next u) = .next t →
        BusyStep s t := by
      intro c hc hx
      rcases fetch_next hx with ⟨i, u, hctx, hu, hx⟩ | ⟨e, p, n, hn, rfl⟩
      · rcases (exec_planar_next (hctx ▸ hc) hx).2.2 with hf | hf
        · exact .run u hp hu hf
        · exact .ofPlanarFailed hu hf
      · exact .ofHeader e p hn
    by_cases h0 : s.cur = 0
    · simp only [hp, h0, if_true] at h
      exact key .marker (by decide) h
    · by_cases h1 : s.col < s.width
      · simp only [hp, h0, h1, if_false, if_true] at h
        exact key .control (by decide) h
      · by_cases h2 : s.planarDone = true
        · simp only [hp, h0, h1, h2, if_false, if_true, Host.Outcome.next.injEq] at h
          subst h
          unfold planarComplete
          split
          · exact .engine (.inr hp) rfl
          · exact .ofFailEntry s _ _
        · simp only [hp, h0, h1, h2, if_false, Bool.false_eq_true, Host.Outcome.next.injEq] at h
          exact .row hp h.symm
  · simp only [hp, Host.Outcome.next.injEq] at h
    subst h
    unfold normalizeStep
    split
    · exact .ofFailEntry s _ _
    · exact .done hp rfl

end Sys2Proof.Machine
end

