-- ==== Sys2Proof/Tests/Slice0.lean ====
section
/-! SUPPORT. Tests. Words are written out bit by bit from 30_encoding.md, expected pixels are those of the
examples of 42_scanline_orders.md and the vectors of 95_test_vectors.md (named in each comment). The last
section shows, for each statement with hypotheses, a state and operands that meet them. -/

namespace Sys2Proof.Tests

open Sys2Proof.Machine

/-! ## Well-formedness: each check refuses an ill-formed term -/

theorem test_wf_regular_zero_refused :
    [Instr.fill (.inByte 0), .mix (.inByte 0), .fom (.inByte 0), .colour (.inByte 0), .copy (.inByte 0),
      .reserved5 (.inByte 0)].map Instr.wf = List.replicate 6 false := by decide

theorem test_wf_lite_zero_refused :
    [Instr.setmixMix (.inByte 0), .setmixFom (.inByte 0), .bicolour (.inByte 0)].map Instr.wf =
      List.replicate 3 false := by decide

theorem test_wf_raw_long_refused :
    [Instr.raw 3 1, .raw 0 2, .raw 0 1, .raw 15 2].map Instr.wf = List.replicate 4 false := by decide

theorem test_wf_accepts :
    [Instr.fill (.inByte 1), .fill (.inByte 31), .fill (.ext 0), .bicolour (.ext 255),
      .setmixMix (.inByte 15), .copyM 0, .raw 0 0, .raw 1 3, .raw 15 15].map Instr.wf =
      List.replicate 9 true := by decide

/-! ## Decoding: words written out from 30_encoding.md section 1 and R71, R76 -/

theorem test_decode_regular :
    decode .scan [0b00000100] = .instr (.fill (.inByte 4)) 1 ∧
    decode .scan [0b00100100] = .instr (.mix (.inByte 4)) 1 ∧
    decode .scan [0b01000001, 0xA5] = .instr (.fom (.inByte 1)) 1 ∧
    decode .scan [0b01100011, 0xCD, 0xAB] = .instr (.colour (.inByte 3)) 1 ∧
    decode .scan [0b10000100] = .instr (.copy (.inByte 4)) 1 ∧
    decode .scan [0b10100001] = .instr (.reserved5 (.inByte 1)) 1 := by decide

theorem test_decode_regular_extended :
    decode .scan [0b00000000, 0b00000011] = .instr (.fill (.ext 3)) 2 ∧
    decode .scan [0b10100000, 0b00000101] = .instr (.reserved5 (.ext 5)) 2 ∧
    decode .scan [0b00100000] = .error .truncated := by decide

theorem test_decode_lite :
    decode .scan [0b11000100, 0x0F, 0x00] = .instr (.setmixMix (.inByte 4)) 1 ∧
    decode .scan [0b11010001, 0x34, 0x12] = .instr (.setmixFom (.inByte 1)) 1 ∧
    decode .scan [0b11100010] = .instr (.bicolour (.inByte 2)) 1 ∧
    decode .scan [0b11100000, 0b00000000] = .instr (.bicolour (.ext 0)) 2 := by decide

theorem test_decode_mega :
    decode .scan [0b11110000, 0x04, 0x00] = .instr (.fillM 4) 3 ∧
    decode .scan [0b11110001, 0x05, 0x00] = .instr (.mixM 5) 3 ∧
    decode .scan [0b11110010, 0x03, 0x00, 0x05] = .instr (.fomM 3) 3 ∧
    decode .scan [0b11110011, 0x02, 0x00] = .instr (.colourM 2) 3 ∧
    decode .scan [0b11110100, 0x02, 0x01] = .instr (.copyM 0x0102) 3 ∧
    decode .scan [0b11110101, 0x00, 0x00] = .instr (.reserved5M 0) 3 ∧
    decode .scan [0b11110110, 0x02, 0x00] = .instr (.setmixMixM 2) 3 ∧
    decode .scan [0b11110111, 0x03, 0x00] = .instr (.setmixFomM 3) 3 ∧
    decode .scan [0b11111000, 0x02, 0x00] = .instr (.bicolourM 2) 3 ∧
    decode .scan [0b11110000, 0x04] = .error .truncated := by decide

theorem test_decode_special :
    [0b11111001, 0b11111010, 0b11111011, 0b11111100, 0b11111101, 0b11111110, 0b11111111].map
      (fun b : Byte => decode .scan [b]) =
    [Instr.fomS1, .fomS2, .reservedB, .reservedC, .white, .black, .reservedF].map
      (fun i => DecodeResult.instr i 1) := by decide

theorem test_decode_planar :
    decode .marker [0b00010000] = .instr .marker 1 ∧
    decode .marker [0b00010001] = .error (.badMarker 0x11) ∧
    decode .control [0b01000001] = .instr (.long16 4) 1 ∧
    decode .control [0b11110010] = .instr (.long32 15) 1 ∧
    decode .control [0b00100000, 0x80, 0x81] = .instr (.raw 2 0) 1 ∧
    decode .control [0b00000011] = .instr (.raw 0 3) 1 := by decide

theorem test_decode_table_words :
    decodeTableWord 8 0xC4 = some (.setmixMix (.inByte 4)) ∧
    decodeTableWord 24 0x0102F4 = some (.copyM 0x0102) ∧
    decodeTableWord 8 0x10 = some .marker ∧ decodeTableWord 8 0x02 = some (.long32 0) ∧
    decodeTableWord 0 0 = some (.raw 0 0) := by decide

/-! ## Small states -/

/-- The host's call for a raster of `w` by `h`, whose destination is the whole raster. -/
def callFor (w h : Nat) (bpp : Int) (stream : List Byte) : Call :=
  ⟨stream, w, h, 0, 0, (w : Int) - 1, (h : Int) - 1, bpp⟩

/-- The state of such a call once `VALIDATE` is past. -/
def started (w h : Nat) (bpp : Int) (stream : List Byte) : State :=
  validateStep (State.reset.startCall (callFor w h bpp stream))

/-- The same with the bottom row written already, from its bytes. -/
def onSecondLine (w h : Nat) (bpp : Int) (bottom stream : List Byte) : State :=
  let s := (started w h bpp stream).moved w
  { s with pixels := Memory.writeList [] ((h - 1) * w * s.pb.toNat) bottom }

/-- The bottom row 0001 0002 0003 0004 of the examples. -/
def bottom4 : List Byte := [1, 0, 2, 0, 3, 0, 4, 0]

/-- The state a step answers. -/
def after (o : Host.Outcome State Fault Refusal) : State :=
  match o with
  | .next t => t
  | .fault _ => State.reset
  | .refused _ => State.reset

/-- The `n` 16-bit pixels from index `i` after a step; a byte not written makes the answer none. -/
def words (o : Host.Outcome State Fault Refusal) (i n : Nat) : List (Option Word16) :=
  (List.range n).map fun k =>
    match (after o).pixels.read (2 * (i + k)), (after o).pixels.read (2 * (i + k) + 1) with
    | some lo, some hi => some (hi ++ lo)
    | _, _ => none

/-- The bytes of the native buffer from `a`, after a step. -/
def bytes (o : Host.Outcome State Fault Refusal) (a n : Nat) : List (Option Byte) :=
  (List.range n).map fun k => (after o).pixels.read (a + k)

/-- The planar engine at 32 bits, past the marker, at a plane, row and column. -/
def planar (w h plane krow col : Nat) (run : Int) (stream : List Byte) : State :=
  { (started w h 32 (0x10 :: stream)).advance 1 with
    plane := plane, krow := krow, col := col, run := run }

/-! ## One step of each instruction -/

/-- Vector S4, its second order: Fill copies the line below. -/
theorem test_fill : words (step (onSecondLine 4 2 16 bottom4 [0x04])) 0 4 =
    [some 1, some 2, some 3, some 4] := by decide

/-- Vector S5, its third order: a Fill after a Fill inserts 0003 ^ FFFF. -/
theorem test_fill_inserts :
    words (step { (onSecondLine 4 2 16 bottom4 [0x02]).moved 2 with lastOp := some .fill }) 2 2 =
      [some 0xFFFC, some 4] := by decide

/-- Vector S36. -/
theorem test_fillM : words (step (started 4 1 16 [0xF0, 0x04, 0x00])) 0 4 =
    List.replicate 4 (some 0) := by decide

/-- Vector S3. -/
theorem test_mix : words (step (started 4 1 16 [0x24])) 0 4 = List.replicate 4 (some 0xFFFF) := by decide

/-- Vector S17. -/
theorem test_mixM : words (step (started 5 1 16 [0xF1, 0x05, 0x00])) 0 5 =
    List.replicate 5 (some 0xFFFF) := by decide

/-- Vector S6b, its second order. -/
theorem test_setmixMix : words (step (onSecondLine 4 2 16 bottom4 [0xC4, 0xF0, 0x00])) 0 4 =
    [some 0xF1, some 0xF2, some 0xF3, some 0xF4] := by decide

/-- Vector S25. -/
theorem test_setmixMixM : words (step (started 2 1 16 [0xF6, 0x02, 0x00, 0x0F, 0x00])) 0 2 =
    [some 0xF, some 0xF] := by decide

/-- Vector S7. -/
theorem test_fom : words (step (started 8 1 16 [0x41, 0xA5])) 0 8 =
    [some 0xFFFF, some 0, some 0xFFFF, some 0, some 0, some 0xFFFF, some 0, some 0xFFFF] := by decide

/-- Vector S18: the extension byte adds 1. -/
theorem test_fom_extended : words (step (started 3 1 16 [0x40, 0x02, 0x05])) 0 3 =
    [some 0xFFFF, some 0, some 0xFFFF] := by decide

/-- Vector S23. -/
theorem test_fomM : words (step (started 3 1 16 [0xF2, 0x03, 0x00, 0x05])) 0 3 =
    [some 0xFFFF, some 0, some 0xFFFF] := by decide

/-- Vector S8, its second order. -/
theorem test_setmixFom :
    words (step (onSecondLine 8 2 16 [1, 0, 2, 0, 3, 0, 4, 0, 5, 0, 6, 0, 7, 0, 8, 0]
      [0xD1, 0x34, 0x12, 0x0F])) 0 8 =
    [some 0x1235, some 0x1236, some 0x1237, some 0x1230, some 5, some 6, some 7, some 8] := by decide

/-- Vector S26. -/
theorem test_setmixFomM : words (step (started 3 1 16 [0xF7, 0x03, 0x00, 0x0F, 0x00, 0x06])) 0 3 =
    [some 0, some 0xF, some 0xF] := by decide

/-- Vector S9b, its second order. -/
theorem test_fomS1 :
    words (step (onSecondLine 8 2 16 [1, 0, 2, 0, 3, 0, 4, 0, 5, 0, 6, 0, 7, 0, 8, 0] [0xF9])) 0 8 =
    [some 0xFFFE, some 0xFFFD, some 3, some 4, some 5, some 6, some 7, some 8] := by decide

/-- Vector S10. -/
theorem test_fomS2 : words (step (started 8 1 16 [0xFA])) 0 4 =
    [some 0xFFFF, some 0, some 0xFFFF, some 0] := by decide

/-- Vector S11. -/
theorem test_colour : words (step (started 3 1 16 [0x63, 0xCD, 0xAB])) 0 3 =
    List.replicate 3 (some 0xABCD) := by decide

/-- Vector S27. -/
theorem test_colourM : words (step (started 2 1 16 [0xF3, 0x02, 0x00, 0xCD, 0xAB])) 0 2 =
    List.replicate 2 (some 0xABCD) := by decide

/-- The 24-bit example of rule R111. -/
theorem test_copy_24 : bytes (step (started 2 1 24 [0x82, 1, 2, 3, 4, 5, 6])) 0 6 =
    [some 1, some 2, some 3, some 4, some 5, some 6] := by decide

/-- The failing example of rule R111. -/
theorem test_copy_underruns : (after (step (started 4 1 16 [0x84, 0x11, 0x11, 0x22]))).status =
    .error .streamUnderrun := by decide

/-- Vector S28. -/
theorem test_copyM : words (step (started 2 1 16 [0xF4, 0x02, 0x00, 0x11, 0x11, 0x22, 0x22])) 0 2 =
    [some 0x1111, some 0x2222] := by decide

/-- Vector S12. -/
theorem test_bicolour : words (step (started 3 1 16 [0xE2, 0x11, 0x11, 0x22, 0x22])) 0 3 =
    [some 0x2222, some 0x1111, some 0x2222] := by decide

/-- Vector S24. -/
theorem test_bicolourM : words (step (started 3 1 16 [0xF8, 0x02, 0x00, 0x11, 0x11, 0x22, 0x22])) 0 3 =
    [some 0x2222, some 0x1111, some 0x2222] := by decide

/-- Vector S15, its first order, and the 24-bit example of rule R126. -/
theorem test_white : words (step (started 3 1 16 [0xFD])) 0 1 = [some 0xFFFF] ∧
    bytes (step (started 2 1 24 [0xFD])) 0 3 = [some 0xFF, some 0xFF, some 0xFF] := by decide

/-- Vector S35. -/
theorem test_black : words (step (started 1 1 16 [0xFE])) 0 1 = [some 0] := by decide

/-- Rule R112: each reserved control byte fails, after its header. -/
theorem test_reserved :
    [[0xA0, 0x05], [0xA1, 0x00], [0xF5, 0x00, 0x00], [0xFB], [0xFC], [0xFF]].map
      (fun w : List Byte => (after (step (started 4 1 16 w))).status) =
    List.replicate 6 (.error .unknownOpcode) := by decide

/-- A run that passes the end of the raster. -/
theorem test_fill_overflows : (after (step (started 4 1 16 [0x05]))).status =
    .error .rasterOverflow := by decide

theorem test_marker : (after (step (started 2 2 32 [0x10, 0x20]))).cur = 1 ∧
    (after (step (started 2 2 32 [0x11, 0x20]))).status = .error .badMarker := by decide

/-- Vector PL2, its second control byte: 20 repeats of the literal AA. -/
theorem test_long16 : bytes (step { planar 21 1 0 0 1 0xAA [0x41] with cur := 1 }) 83 1 = [some 0xAA] ∧
    (after (step { planar 21 1 0 0 1 0xAA [0x41] with cur := 1 })).col = 21 := by decide

/-- Vector PL15: a run of 33. -/
theorem test_long32 : (after (step (planar 33 1 0 0 0 0 [0x12]))).col = 33 := by decide

/-- Rule R141: the alpha plane's first row, literals 80 and 81 in lane 3 of the bottom row. -/
theorem test_raw_literal : bytes (step (planar 2 2 0 0 0 0 [0x20, 0x80, 0x81])) 8 8 =
    [none, none, none, some 0x80, none, none, none, some 0x81] := by decide

/-- Rule R141: blue deltas FE and FF over 50 and 60 give CF and E0 (wrapping) in the top row. -/
theorem test_raw_delta :
    bytes (step { planar 2 2 3 1 0 0 [0x20, 0xFE, 0xFF] with
      pixels := Memory.writeList [] 8 [0x50, 0x30, 0x10, 0x80, 0x60, 0x40, 0x20, 0x81] }) 0 5 =
    [some 0xCF, none, none, none, some 0xE0] := by decide

/-- Rule R149: worked conversions. -/
theorem test_rgba :
    rgba 15 ⟨0x00, 0x7C, 0, 0⟩ = [0xF8, 0, 0, 0xFF] ∧ rgba 15 ⟨0xE0, 0x03, 0, 0⟩ = [0, 0xF8, 0, 0xFF] ∧
    rgba 15 ⟨0x00, 0x80, 0, 0⟩ = [0, 0, 0, 0xFF] ∧ rgba 16 ⟨0xCD, 0xAB, 0, 0⟩ = [0xA8, 0x78, 0x68, 0xFF] ∧
    rgba 16 ⟨0xE0, 0x07, 0, 0⟩ = [0, 0xFC, 0, 0xFF] ∧ rgba 24 ⟨1, 2, 3, 0⟩ = [3, 2, 1, 0xFF] ∧
    rgba 32 ⟨0xCF, 0x31, 0x10, 0x82⟩ = [0x10, 0x31, 0xCF, 0x82] := by decide

/-- Rule R137, its table. -/
theorem test_deltaValue :
    [0x00, 0x01, 0x02, 0x03, 0x04, 0xFC, 0xFD, 0xFE, 0xFF].map (fun b : Byte => deltaValue b) =
      [0, -1, 1, -2, 2, 126, -127, 127, -128] := by decide

/-- A whole call of no orders but one, from power-on: started, validated, decoded, ended. -/
theorem test_call_succeeds :
    (after (Sys2Proof.core.run 5 { State.reset with calls := [callFor 1 1 16 [0xFE]] })).callResult =
      (.ok, 0, 4, [some 0, some 0, some 0, some 255]) := by decide

/-! ## The hypotheses of the statements can be met -/

theorem witness_DecodeEncode :
    [Instr.fill (.inByte 31), .fill (.ext 0), .bicolour (.inByte 15), .setmixFom (.ext 255),
      .copyM 0xFFFF, .reservedF, .marker, .long16 15, .long32 0, .raw 0 0, .raw 15 3].all Instr.wf =
      true := by decide

theorem witness_EncodeDecode :
    decode .scan [0xE0, 0xFF, 0x11] = .instr (.bicolour (.ext 0xFF)) 2 ∧
    decode .marker [0x10] = .instr .marker 1 ∧ decode .control [0xFF] = .instr (.raw 15 15) 1 := by
  decide

theorem witness_MegaHeader : (0 : Byte) < 9 ∧ (8 : Byte) < 9 := by decide

theorem witness_SpecialHeader : (9 : Byte) ≤ 9 ∧ (9 : Byte) < 16 ∧ (9 : Byte) ≤ 15 ∧ (15 : Byte) < 16 := by
  decide

theorem witness_CountedHeaders :
    (0x00 : Byte) < 0xC0 ∧ (0xBF : Byte) < 0xC0 ∧ (0xC0 : Byte) ≤ 0xC0 ∧ (0xC0 : Byte) < 0xF0 ∧
    (0xC0 : Byte) ≤ 0xEF ∧ (0xEF : Byte) < 0xF0 := by decide

theorem witness_PlanarControlLatches :
    (0 : BitVec 4) ≠ 1 ∧ (0 : BitVec 4) ≠ 2 ∧ (3 : BitVec 4) ≠ 1 ∧ (3 : BitVec 4) ≠ 2 := by decide

theorem witness_DeltaValues : deltaValue 0xFF = deltaValue 0xFF := rfl

theorem witness_NativeReadWrite :
    (started 4 2 16 [0x04]).area = 8 ∧ 0 < (started 4 2 16 [0x04]).area ∧
    7 < (started 4 2 16 [0x04]).area ∧ 1 < (started 4 2 16 [0x04]).pb.toNat ∧
    3 < (started 2 2 32 [0x10]).area ∧ 3 < (started 2 2 32 [0x10]).pb.toNat ∧
    ¬ ((2 : Nat) = 3 ∧ (3 : Nat) = 3) ∧ ¬ ((3 : Nat) = 3 ∧ (2 : Nat) = 3) := by decide

theorem witness_StatusCodes : (Status.error .badMarker).code = (Status.error .badMarker).code := rfl

/-- The machine at power-on with one call to make, at a depth. -/
def waiting (w h bpp : Int) (stream : List Byte) : State :=
  { State.reset with calls := [⟨stream, w, h, 0, 0, w - 1, h - 1, bpp⟩] }

theorem witness_CallStart :
    [15, 16, 24, 32].all (fun bpp : Int =>
      ¬ (waiting 4 2 bpp [0x04]).Busy ∧ (waiting 4 2 bpp [0x04]).calls ≠ []) = true ∧
    (waiting 4 2 16 [0x04]).calls = callFor 4 2 16 [0x04] :: [] ∧
    ¬ { waiting 4 2 16 [0x04] with phase := .done }.Busy ∧
    ¬ { waiting 4 2 16 [0x04] with phase := .failed }.Busy := by decide

theorem witness_IdleStays : ¬ State.reset.Busy ∧ State.reset.calls = [] ∧
    ¬ { State.reset with phase := .done }.Busy := by decide

/-- A call about to be validated. -/
def toValidate (c : Call) : State := State.reset.startCall c

theorem witness_GeometryRejected :
    (toValidate (callFor 1 1 16 [])).phase = .validate ∧
    (toValidate ⟨[], 0, 1, 0, 0, 0, 0, 17⟩).srcW < 1 ∧ (toValidate ⟨[], 1, 0, 0, 0, 0, 0, 16⟩).srcH < 1 ∧
    (toValidate ⟨[], 1, 1, 1, 0, 0, 0, 16⟩).dstR < (toValidate ⟨[], 1, 1, 1, 0, 0, 0, 16⟩).dstL ∧
    (toValidate ⟨[], 1, 1, 0, 1, 0, 0, 16⟩).dstB < (toValidate ⟨[], 1, 1, 0, 1, 0, 0, 16⟩).dstT := by
  decide

theorem witness_DepthRejected :
    (toValidate (callFor 1 1 17 [])).phase = .validate ∧ (toValidate (callFor 1 1 17 [])).geometryOk = true ∧
    (toValidate (callFor 1 1 17 [])).bpp ≠ 15 ∧ (toValidate (callFor 1 1 17 [])).bpp ≠ 16 ∧
    (toValidate (callFor 1 1 17 [])).bpp ≠ 24 ∧ (toValidate (callFor 1 1 17 [])).bpp ≠ 32 := by decide

theorem witness_ValidateDispatches :
    [15, 16, 24, 32].all (fun bpp : Int =>
      let s := toValidate (callFor 1 1 bpp [])
      s.phase = .validate ∧ 1 ≤ s.srcW ∧ 1 ≤ s.srcH ∧ s.dstL ≤ s.dstR ∧ s.dstT ≤ s.dstB ∧
        (s.bpp = 15 ∨ s.bpp = 16 ∨ s.bpp = 24 ∨ s.bpp = 32)) = true := by decide

/-- A raster of 2 by 1 at 16 bits, decoded, for a destination of `dw` by `dh`. -/
def decoded (dw dh : Int) : State :=
  { started 2 1 16 [] with
    phase := .normalize, dstW := dw, dstH := dh, pixels := Memory.writeList [] 0 [0x11, 0x11, 0x22, 0x22] }

theorem witness_OversizeRejected :
    (decoded 3 1).phase = .normalize ∧ (decoded 3 1).srcW < (decoded 3 1).dstW ∧
    (decoded 2 2).srcH < (decoded 2 2).dstH := by decide

theorem witness_NormalizeEnds :
    (decoded 2 1).phase = .normalize ∧ (decoded 2 1).dstW ≤ (decoded 2 1).srcW ∧
    (decoded 2 1).dstH ≤ (decoded 2 1).srcH := by decide

theorem witness_NormalizerOutput :
    (decoded 2 1).phase = .normalize ∧ (decoded 2 1).dstW ≤ (decoded 2 1).srcW ∧
    (decoded 2 1).dstH ≤ (decoded 2 1).srcH ∧ step (decoded 2 1) = .next (after (step (decoded 2 1))) ∧
    1 < (decoded 2 1).dstW.toNat ∧ 0 < (decoded 2 1).dstH.toNat ∧ 3 < 4 ∧
    (decoded 2 1).dstW.toNat * (decoded 2 1).dstH.toNat * 4 ≤ 8 :=
  ⟨by decide, by decide, by decide, rfl, by decide, by decide, by decide, by decide⟩

theorem witness_StepRunsDecoded :
    ((started 4 1 16 [0x04]).phase = .scan ∧ (started 4 1 16 [0x04]).cur < (started 4 1 16 [0x04]).inLen ∧
      decode .scan (started 4 1 16 [0x04]).headerBytes = .instr (.fill (.inByte 4)) 1) ∧
    ((started 2 2 32 [0x10]).phase = .planar ∧ (started 2 2 32 [0x10]).cur = 0 ∧
      decode .marker (started 2 2 32 [0x10]).headerBytes = .instr .marker 1) ∧
    ((planar 2 2 0 0 1 0 [0x10, 5]).phase = .planar ∧ (planar 2 2 0 0 1 0 [0x10, 5]).cur ≠ 0 ∧
      (planar 2 2 0 0 1 0 [0x10, 5]).col < (planar 2 2 0 0 1 0 [0x10, 5]).width ∧
      decode .control (planar 2 2 0 0 1 0 [0x10, 5]).headerBytes = .instr (.raw 1 0) 1) := by decide

/-- The encoding of an instruction stands at the cursor. -/
abbrev Stands (s : State) (i : Instr) : Prop :=
  i.wf = true ∧ s.cur + (encode i).length ≤ s.inLen ∧
  ∀ k, k < (encode i).length → some (s.inByte (s.cur + k)) = (encode i)[k]?

theorem witness_StepRunsEncoded :
    ((started 4 1 16 [0xF4, 2, 1]).phase = .scan ∧ Stands (started 4 1 16 [0xF4, 2, 1]) (.copyM 0x0102)) ∧
    ((started 4 1 16 [0xFE]).phase = .scan ∧ Stands (started 4 1 16 [0xFE]) .black) ∧
    ((started 2 2 32 [0x10]).phase = .planar ∧ (started 2 2 32 [0x10]).cur = 0 ∧
      Stands (started 2 2 32 [0x10]) .marker) ∧
    ((planar 2 2 0 0 1 0 [0xF2]).phase = .planar ∧ (planar 2 2 0 0 1 0 [0xF2]).cur ≠ 0 ∧
      (planar 2 2 0 0 1 0 [0xF2]).col < (planar 2 2 0 0 1 0 [0xF2]).width ∧
      Stands (planar 2 2 0 0 1 0 [0xF2]) (.long32 15)) := by decide

/-- A scanline header of `n` bytes at the cursor starts with a byte in range and the stream ends there. -/
theorem witness_TruncatedHeader :
    [[0xF0], [0xF8], [0xC0], [0xE0], [0x00], [0xA0]].all (fun w : List Byte =>
      let s := started 4 1 16 w
      s.phase = .scan ∧ s.cur < s.inLen ∧ s.inLen = s.cur + 1 ∧
        (0xF0 ≤ s.inByte s.cur ∧ s.inByte s.cur < 0xF9 ∨
         0xC0 ≤ s.inByte s.cur ∧ s.inByte s.cur < 0xF0 ∧ s.inByte s.cur &&& 0x0F = 0 ∨
         s.inByte s.cur < 0xC0 ∧ s.inByte s.cur &&& 0x1F = 0)) = true ∧
    [[0xF0, 0x01], [0xF8, 0x01]].all (fun w : List Byte =>
      let s := started 4 1 16 w
      s.phase = .scan ∧ s.cur < s.inLen ∧ s.inLen = s.cur + 2 ∧
        0xF0 ≤ s.inByte s.cur ∧ s.inByte s.cur < 0xF9) = true := by decide

theorem witness_PlanarHeaderFailures :
    ((started 1 1 32 []).phase = .planar ∧ (started 1 1 32 []).cur = 0 ∧ (started 1 1 32 []).inLen = 0) ∧
    ((started 1 1 32 [0x11]).cur = 0 ∧ 0 < (started 1 1 32 [0x11]).inLen ∧
      (started 1 1 32 [0x11]).inByte 0 ≠ 0x10) ∧
    ((planar 1 1 0 0 0 0 []).cur ≠ 0 ∧ (planar 1 1 0 0 0 0 []).col < (planar 1 1 0 0 0 0 []).width ∧
      (planar 1 1 0 0 0 0 []).cur = (planar 1 1 0 0 0 0 []).inLen) := by decide

/-- The scanline engine runs, the raster has room for the instruction's pixels, the stream its data. -/
abbrev Ready (s : State) (i : Instr) : Prop :=
  s.ScanOk ∧ s.written + pixelsOf i ≤ s.area ∧ s.cur + dataBytes s.pb i ≤ s.inLen

theorem witness_FillOrders :
    Ready (started 4 1 16 []) (.fill (.inByte 4)) ∧ Ready (onSecondLine 4 2 16 bottom4 []) (.fillM 4) ∧
    Ready (onSecondLine 4 1 16 bottom4 []) (.fillM 0) := by decide

theorem witness_MixOrders :
    Ready (started 4 1 16 []) (.mix (.inByte 4)) ∧ Ready (onSecondLine 4 2 16 bottom4 []) (.mixM 4) := by
  decide

theorem witness_SetmixMixOrders :
    Ready (started 4 1 16 [1, 2]) (.setmixMix (.inByte 4)) ∧
    Ready (started 4 1 24 [1, 2, 3]) (.setmixMixM 0) := by decide

theorem witness_FomOrders :
    Ready (started 8 1 16 [1]) (.fom (.inByte 1)) ∧ Ready (started 9 1 16 [1, 2]) (.fomM 9) := by decide

theorem witness_SetmixFomOrders :
    Ready (started 8 1 16 [1, 2, 3]) (.setmixFom (.inByte 1)) ∧
    Ready (started 9 1 24 [1, 2, 3, 4, 5]) (.setmixFomM 9) := by decide

theorem witness_FixedFomOrders :
    (started 8 1 16 []).ScanOk ∧ (started 8 1 16 []).written + 8 ≤ (started 8 1 16 []).area := by decide

theorem witness_ColourOrders :
    Ready (started 4 1 16 [1, 2]) (.colour (.inByte 4)) ∧ Ready (started 4 1 24 [1, 2, 3]) (.colourM 4) := by
  decide

theorem witness_CopyOrders :
    Ready (started 2 1 16 [1, 2, 3, 4]) (.copy (.inByte 2)) ∧
    Ready (started 2 1 24 [1, 2, 3, 4, 5, 6]) (.copyM 2) := by decide

theorem witness_BicolourOrders :
    Ready (started 3 1 16 [1, 2, 3, 4]) (.bicolour (.inByte 2)) ∧
    Ready (started 1 1 24 [1, 2, 3, 4, 5, 6]) (.bicolourM 0) := by decide

theorem witness_WhiteBlackOrders :
    (started 1 1 16 []).ScanOk ∧ (started 1 1 16 []).written < (started 1 1 16 []).area ∧
    (started 1 1 24 []).ScanOk ∧ (started 1 1 24 []).written < (started 1 1 24 []).area := by decide

theorem witness_ReservedOrdersFail :
    (started 1 1 16 []).phase = .scan ∧ (started 1 1 16 []).pb ≠ .four := by decide

/-- Each reserved control byte with exactly its own header left in the stream (vectors E2, E2b, E3a to E3d). -/
theorem witness_ReservedBytesFail :
    [([0xA1], 1), ([0xBF], 1), ([0xA0, 5], 2), ([0xF5, 0, 0], 3), ([0xFB], 1), ([0xFC], 1), ([0xFF], 1)].all
      (fun (w, len) =>
        let s := started 1 1 16 w
        s.phase = .scan ∧ s.pb ≠ .four ∧
          (0xA0 ≤ s.inByte s.cur ∧ s.inByte s.cur < 0xC0 ∨ s.inByte s.cur = 0xF5 ∨
            s.inByte s.cur = 0xFB ∨ s.inByte s.cur = 0xFC ∨ s.inByte s.cur = 0xFF) ∧
          len = (if s.inByte s.cur = 0xF5 then 3 else if s.inByte s.cur = 0xA0 then 2 else 1) ∧
          s.cur + len = s.inLen) = true := by decide

/-- An order of more pixels than the raster has left, with the bytes it reads before the first of those and
no more. -/
abbrev Overflows (s : State) (i : Instr) : Prop :=
  s.ScanOk ∧ s.area < s.written + pixelsOf i ∧
    s.cur + dataBytesFor s.pb i (s.area - s.written) = s.inLen

/-- The second case is the second order of vector E15: the raster is full and no literal is left. -/
theorem witness_OrderOverflows :
    headerOpcode (.fill (.inByte 5)) = some 0 ∧ headerOpcode (.copy (.inByte 4)) = some 4 ∧
    headerOpcode (.setmixFomM 12) = some 7 ∧
    (effOp 0).isSome = true ∧ (effOp 4).isSome = true ∧ (effOp 7).isSome = true ∧
    Overflows (started 4 1 16 []) (.fill (.inByte 5)) ∧
    Overflows ((started 4 1 16 []).moved 4) (.copy (.inByte 4)) ∧
    Overflows (started 2 1 24 [1, 2, 3, 4, 5, 6]) (.copy (.inByte 4)) ∧
    Overflows (started 8 1 16 [1, 2, 3]) (.setmixFomM 12) := by
  refine ⟨?_, ?_, ?_, ?_, ?_, ?_, ?_, ?_, ?_, ?_⟩ <;> decide

/-- An order with one byte less in the stream than it reads for the pixels that have a place. -/
abbrev Underruns (s : State) (i : Instr) : Prop :=
  s.ScanOk ∧ s.cur ≤ s.inLen ∧
    s.inLen + 1 = s.cur + dataBytesFor s.pb i (min (pixelsOf i) (s.area - s.written))

/-- The last two cases would overflow the raster later. -/
theorem witness_OrderUnderruns :
    headerOpcode (.copy (.inByte 4)) = some 4 ∧ headerOpcode (.bicolour (.inByte 3)) = some 8 ∧
    (effOp 4).isSome = true ∧ (effOp 8).isSome = true ∧
    Underruns (started 4 1 16 [1, 2, 3, 4, 5, 6, 7]) (.copy (.inByte 4)) ∧
    Underruns (started 2 1 16 [1, 2, 3]) (.copy (.inByte 4)) ∧
    Underruns ((started 2 1 16 [1, 2, 3]).moved 2) (.bicolour (.inByte 3)) := by
  refine ⟨?_, ?_, ?_, ?_, ?_, ?_, ?_⟩ <;> decide

theorem witness_ScanEnds :
    ((started 4 1 16 []).phase = .scan ∧ (started 4 1 16 []).cur = (started 4 1 16 []).inLen ∧
      (started 4 1 16 []).rowsLeft ≠ 0) ∧
    (((started 4 1 16 []).moved 4).rowsLeft = 0 ∧
      ((started 4 1 16 []).moved 4).width ≤ ((started 4 1 16 []).moved 4).x) ∧
    ((started 4 1 16 []).moved 3).x < ((started 4 1 16 []).moved 3).width := by decide

theorem witness_MarkerEntersPlanes :
    (started 1 1 32 []).phase = .planar ∧ (started 1 1 32 []).pb = .four := by decide

theorem witness_LiteralRuns :
    [(Instr.raw 2 3, 2, 3), (.long16 0, 0, 16), (.long32 15, 0, 47)].all (fun (i, c, r) =>
      let s := planar (1 + c + r) 2 0 0 1 7 [1, 2]
      i.ctx = .control ∧ planarCtrl (controlByte i) = (c, r) ∧ s.PlanarOk ∧ s.krow = 0 ∧
        s.col + c + r ≤ s.width ∧ s.cur + c ≤ s.inLen) = true := by decide

theorem witness_DeltaRuns :
    [(Instr.raw 2 3, 2, 3), (.long16 0, 0, 16), (.long32 15, 0, 47)].all (fun (i, c, r) =>
      let s := planar (c + r) 2 3 1 0 7 [1, 2]
      i.ctx = .control ∧ planarCtrl (controlByte i) = (c, r) ∧ s.PlanarOk ∧ s.krow ≠ 0 ∧
        s.col + c + r ≤ s.width ∧ s.cur + c ≤ s.inLen) = true := by decide

theorem witness_PlanarOverruns :
    (Instr.raw 2 0).ctx = .control ∧ planarCtrl (controlByte (.raw 2 0)) = (2, 0) ∧
    (planar 1 1 0 0 0 0 [0, 0]).phase = .planar ∧ (planar 1 1 0 0 0 0 [0, 0]).pb = .four ∧
    (planar 1 1 0 0 0 0 [0, 0]).width < (planar 1 1 0 0 0 0 [0, 0]).col + 2 + 0 := by decide

theorem witness_PlanarUnderruns :
    (Instr.raw 2 0).ctx = .control ∧ planarCtrl (controlByte (.raw 2 0)) = (2, 0) ∧
    (planar 2 1 0 0 0 0 [9]).PlanarOk ∧
    (planar 2 1 0 0 0 0 [9]).col + 2 + 0 ≤ (planar 2 1 0 0 0 0 [9]).width ∧
    (planar 2 1 0 0 0 0 [9]).cur ≤ (planar 2 1 0 0 0 0 [9]).inLen ∧
    (planar 2 1 0 0 0 0 [9]).inLen < (planar 2 1 0 0 0 0 [9]).cur + 2 := by decide

theorem witness_PlanarLoops :
    [(0, 0), (2, 1), (3, 1)].all (fun (plane, krow) =>
      let s := planar 1 2 plane krow 1 5 []
      s.phase = .planar ∧ s.cur ≠ 0 ∧ s.width ≤ s.col) = true ∧
    (planar 1 2 0 0 1 5 []).krow + 1 < (planar 1 2 0 0 1 5 []).height ∧
    (planar 1 2 2 1 1 5 []).height ≤ (planar 1 2 2 1 1 5 []).krow + 1 ∧ (planar 1 2 2 1 1 5 []).plane < 3 ∧
    3 ≤ (planar 1 2 3 1 1 5 []).plane ∧ (planar 1 2 3 1 1 5 []).cur = (planar 1 2 3 1 1 5 []).inLen ∧
    (planar 1 2 3 1 1 5 [0]).cur ≠ (planar 1 2 3 1 1 5 [0]).inLen := by decide

theorem witness_StepKeepsInv :
    (started 4 2 16 [0x04]).Inv ∧ (planar 2 2 0 0 1 0 [0x10, 5]).Inv ∧ (toValidate (callFor 4 2 24 [])).Inv ∧
    step (started 4 2 16 [0x04]) = .next (after (step (started 4 2 16 [0x04]))) := by
  refine ⟨?_, ?_, ?_, rfl⟩ <;>
    exact ⟨by decide, by decide, by decide, by decide, by decide, by decide, by decide, by decide,
      by decide, by decide, by decide⟩

theorem witness_InvSteps : (waiting 4 2 16 [0x04]).Inv ∧ (planar 2 2 3 1 2 0 []).Inv := by
  constructor <;>
    exact ⟨by decide, by decide, by decide, by decide, by decide, by decide, by decide, by decide,
      by decide, by decide, by decide⟩

theorem witness_StepKeepsRaster :
    (started 4 2 16 [0x04]).Inv ∧ (started 4 2 16 [0x04]).RasterInv ∧
    (onSecondLine 4 2 16 bottom4 [0x04]).Inv ∧ (onSecondLine 4 2 16 bottom4 [0x04]).RasterInv ∧
    step (onSecondLine 4 2 16 bottom4 [0x04]) =
      .next (after (step (onSecondLine 4 2 16 bottom4 [0x04]))) := by
  refine ⟨?_, ?_, ?_, ?_, rfl⟩
  · exact ⟨by decide, by decide, by decide, by decide, by decide, by decide, by decide, by decide,
      by decide, by decide, by decide⟩
  · exact ⟨by decide, fun h => absurd h (by decide), by decide, by decide⟩
  · exact ⟨by decide, by decide, by decide, by decide, by decide, by decide, by decide, by decide,
      by decide, by decide, by decide⟩
  · exact ⟨by decide, fun h => absurd h (by decide), by decide, by decide⟩

/-- The same with the planar engine past the one pixel of its first plane. -/
theorem witness_StepKeepsRaster_planar :
    { planar 1 1 0 0 1 0x80 [] with pixels := [(3, 0x80)] }.Inv ∧
    { planar 1 1 0 0 1 0x80 [] with pixels := [(3, 0x80)] }.RasterInv ∧
    step { planar 1 1 0 0 1 0x80 [] with pixels := [(3, 0x80)] } =
      .next (after (step { planar 1 1 0 0 1 0x80 [] with pixels := [(3, 0x80)] })) := by
  refine ⟨?_, ?_, rfl⟩
  · exact ⟨by decide, by decide, by decide, by decide, by decide, by decide, by decide, by decide,
      by decide, by decide, by decide⟩
  · refine ⟨fun h => absurd h (by decide), fun _ _ p _ k hk c hc past => ?_, by decide, by decide⟩
    have hk : k < 1 := hk
    have hc : c < 1 := hc
    have past : p < 0 ∨ p = 0 ∧ (k < 0 ∨ k = 0 ∧ c < 1) := past
    obtain ⟨rfl, rfl, rfl⟩ : p = 0 ∧ k = 0 ∧ c = 0 := by omega
    decide

theorem witness_LatchesReadOnly :
    (started 4 1 16 [0x04]).Busy ∧
    step (started 4 1 16 [0x04]) = .next (after (step (started 4 1 16 [0x04]))) := ⟨by decide, rfl⟩

theorem witness_CursorMoves :
    (started 4 1 16 [0x04]).Busy ∧ (started 4 1 16 [0x04]).cur ≤ (started 4 1 16 [0x04]).inLen ∧
    step (started 4 1 16 [0x04]) = .next (after (step (started 4 1 16 [0x04]))) :=
  ⟨by decide, by decide, rfl⟩

theorem witness_PhaseOrder :
    ¬ (waiting 4 1 16 []).Busy ∧ (toValidate (callFor 4 1 16 [])).phase = .validate ∧
    (started 4 1 16 [0x04]).phase = .scan ∧ (started 1 1 32 [0x10]).phase = .planar ∧
    (decoded 2 1).phase = .normalize ∧
    step (decoded 2 1) = .next (after (step (decoded 2 1))) :=
  ⟨by decide, by decide, by decide, by decide, by decide, rfl⟩

theorem witness_ResultsAtEnd :
    (started 4 1 16 [0x04]).Busy ∧ (after (step (started 4 1 16 [0x04]))).Busy ∧
    step (started 4 1 16 [0x04]) = .next (after (step (started 4 1 16 [0x04]))) ∧
    (started 4 1 16 [0x05]).Busy ∧ (after (step (started 4 1 16 [0x05]))).phase = .failed ∧
    step (started 4 1 16 [0x05]) = .next (after (step (started 4 1 16 [0x05]))) ∧
    ¬ State.reset.Busy ∧ step State.reset = .next State.reset ∧
    ¬ (waiting 4 1 16 [0x04]).Busy ∧ (waiting 4 1 16 [0x04]).calls ≠ [] ∧
    step (waiting 4 1 16 [0x04]) = .next (after (step (waiting 4 1 16 [0x04]))) :=
  ⟨by decide, by decide, rfl, by decide, by decide, rfl, by decide, rfl, by decide, by decide, rfl⟩

theorem witness_PixelRegisterWriters :
    exec (.mix (.inByte 4)) (started 4 1 16 []) = .next (after (exec (.mix (.inByte 4)) (started 4 1 16 []))) ∧
    headerOpcode (.mix (.inByte 4)) ≠ some 6 ∧ headerOpcode (.mix (.inByte 4)) ≠ some 7 ∧
    headerOpcode (.mix (.inByte 4)) ≠ some 8 ∧ headerOpcode (.mix (.inByte 4)) ≠ some 3 :=
  ⟨rfl, by decide, by decide, by decide, by decide⟩

theorem witness_EnginesApart :
    exec .black (started 4 1 16 []) = .next (after (exec .black (started 4 1 16 []))) ∧
    Instr.black.ctx = .scan ∧
    exec (.raw 0 0) (planar 1 1 0 0 0 0 []) = .next (after (exec (.raw 0 0) (planar 1 1 0 0 0 0 []))) ∧
    (Instr.raw 0 0).ctx ≠ .scan := ⟨rfl, by decide, rfl, by decide⟩

theorem witness_CallTerminates :
    ¬ (waiting 4 1 16 [0x04]).Busy ∧ (waiting 4 1 16 [0x04]).calls = callFor 4 1 16 [0x04] :: [] := by
  decide

theorem witness_OutcomeFunctionOfCall :
    ¬ (waiting 1 1 17 [0xFE]).Busy ∧ ¬ { waiting 1 1 17 [0xFE] with phase := .failed, outLen := 3 }.Busy ∧
    (waiting 1 1 17 [0xFE]).calls = [callFor 1 1 17 [0xFE]] ∧
    Sys2Proof.core.run 2 (waiting 1 1 17 [0xFE]) =
      .next (after (Sys2Proof.core.run 2 (waiting 1 1 17 [0xFE]))) ∧
    State.Ended (after (Sys2Proof.core.run 2 (waiting 1 1 17 [0xFE]))) :=
  ⟨by decide, by decide, by decide, rfl, by decide⟩

end Sys2Proof.Tests
end

section
/-! The family of 10_state.md: the cursor over a step of a call in progress, from the inversion
`busy_step`, and what phase `VALIDATE` establishes, case by case of its two checks. -/

namespace Sys2Proof.Machine

/-! ## The cursor -/

theorem OrderFrame.inLen {s t : State} (h : OrderFrame s t) : t.inLen = s.inLen := by
  rw [h.same]; rfl

theorem PlanarFrame.inLen {s t : State} (h : PlanarFrame s t) : t.inLen = s.inLen := by
  rw [h.same]; rfl

theorem planarNextRow_cur (s : State) : (planarNextRow s).cur = s.cur := by
  unfold planarNextRow
  split <;> rfl

theorem planarNextRow_inLen (s : State) : (planarNextRow s).inLen = s.inLen := by
  unfold planarNextRow
  split <;> rfl

/-- The stream's length is latched when the call starts (10_state.md R13). -/
theorem BusyStep.inLen {s t : State} (h : BusyStep s t) : t.inLen = s.inLen := by
  cases h with
  | order u _ hu frame => exact frame.inLen.trans hu.inLen
  | run u _ hu frame => exact frame.inLen.trans hu.inLen
  | row _ eq => rw [eq, planarNextRow_inLen]
  | engine _ eq => rw [eq]
  | dispatch pb _ eq => rw [eq]
  | done _ eq => rw [eq]
  | failed v e pos same _ _ eq =>
    have hv : v.inLen = s.inLen := by
      rcases same with same | same
      · rw [same]; rfl
      · rw [same]; rfl
    rw [eq, State.failEntry_inLen, hv]

/-- Reading only adds to the cursor (10_state.md R15): an instruction starts past its header and its
frame is monotone, a failure keeps the cursor of the state it is entered from, and every other action
leaves it. -/
theorem BusyStep.cur_mono {s t : State} (h : BusyStep s t) : s.cur ≤ t.cur := by
  cases h with
  | order u _ hu frame => exact hu.cur.1.le.trans frame.mono
  | run u _ hu frame => exact hu.cur.1.le.trans frame.mono
  | row _ eq => rw [eq, planarNextRow_cur]
  | engine _ eq => rw [eq]
  | dispatch pb _ eq => rw [eq]
  | done _ eq => rw [eq]
  | failed v e pos _ mono _ eq => rwa [eq, State.failEntry_cur]

/-- A cursor within the stream stays there (10_state.md R14): every read checks it first. -/
theorem BusyStep.cur_le_inLen {s t : State} (h : BusyStep s t) (hs : s.cur ≤ s.inLen) :
    t.cur ≤ t.inLen := by
  rw [h.inLen]
  cases h with
  | order u _ hu frame => exact hu.inLen ▸ frame.bound (hu.inLen ▸ hu.cur.2)
  | run u _ hu frame => exact hu.inLen ▸ frame.bound (hu.inLen ▸ hu.cur.2)
  | row _ eq => rwa [eq, planarNextRow_cur]
  | engine _ eq => rwa [eq]
  | dispatch pb _ eq => rwa [eq]
  | done _ eq => rwa [eq]
  | failed v e pos _ _ bound eq => rw [eq, State.failEntry_cur]; exact bound hs

/-- Settles O54: both halves hold in each case of what a step of a call can answer. -/
theorem cursorMoves : Obligations.CursorMoves := fun _ _ busy inStream next =>
  have moved := busy_step busy next
  ⟨moved.cur_mono, moved.cur_le_inLen inStream⟩

/-! ## The pre-check and the dispatch -/

/-- `PreCheck()` passes exactly where the source has a pixel and the rectangle is not inverted
(45_geometry_validator.md R150). -/
theorem State.geometryOk_iff (s : State) :
    s.geometryOk = true ↔ 1 ≤ s.srcW ∧ 1 ≤ s.srcH ∧ s.dstL ≤ s.dstR ∧ s.dstT ≤ s.dstB := by
  simp [State.geometryOk, and_assoc]

/-- `PB` of a supported depth (10_state.md R10). -/
theorem pixelBytesOf_supported {bpp : Int} (h : bpp = 15 ∨ bpp = 16 ∨ bpp = 24 ∨ bpp = 32) :
    pixelBytesOf bpp = some (if bpp = 24 then .three else if bpp = 32 then .four else .two) := by
  rcases h with rfl | rfl | rfl | rfl <;> rfl

/-- The planar engine runs at `PB` 4, the scanline engine at the other widths (10_state.md R12). -/
theorem enginePhase_eq (pb : PixelBytes) :
    enginePhase pb = if pb = .four then .planar else .scan := by
  cases pb <;> rfl

theorem step_validate {s : State} (h : s.phase = .validate) : step s = .next (validateStep s) := by
  simp [step, State.action, h]

theorem validateStep_dispatch {s : State} {pb : PixelBytes} (geometry : s.geometryOk = true)
    (depth : pixelBytesOf s.bpp = some pb) :
    validateStep s = { s with
      pb := pb, dstW := s.dstR - s.dstL + 1, dstH := s.dstB - s.dstT + 1, phase := enginePhase pb } := by
  simp [validateStep, geometry, depth]

/-- Settles O20: both checks pass, so the step dispatches, and an inclusive rectangle that is not inverted
has positive sides. -/
theorem validateDispatches : Obligations.ValidateDispatches := by
  intro s phase srcW srcH columns rows depth
  have geometry := s.geometryOk_iff.mpr ⟨srcW, srcH, columns, rows⟩
  have dispatch := validateStep_dispatch geometry (pixelBytesOf_supported depth)
  have width : 0 < s.dstR - s.dstL + 1 := by omega
  have height : 0 < s.dstB - s.dstT + 1 := by omega
  exact ⟨_, (step_validate phase).trans (congrArg _ dispatch), rfl, rfl, rfl, rfl, width, height,
    enginePhase_eq _⟩

end Sys2Proof.Machine
end

section
/-! The family of 20_memory.md: what a read of the native buffer answers after a write of a pixel and after
a write of a lane, from the raster's laws of `storePixel` and `storeLane`. -/

namespace Sys2Proof.Machine

/-! ## A pixel read after a pixel was stored -/

section
variable {s : State} {i j : Nat}

theorem memRead_storePixel_self (v : Pixel) (hi : i < s.area) :
    memRead i (s.storePixel i v) = .ok (Pixel.fit s.pb v) (s.storePixel i v) := by
  rw [memRead_ok (s := s.storePixel i v) hi, State.storePixel_pixelAt_self]

theorem memRead_storePixel_ne (v : Pixel) (hj : j < s.area) (hne : j ≠ i) :
    memRead j (s.storePixel i v) = .ok (s.pixelAt j) (s.storePixel i v) := by
  rw [memRead_ok (s := s.storePixel i v) hj, State.storePixel_pixelAt_ne s v hne]

end

/-! ## A lane read after a lane was stored -/

/-- A stored lane is one byte of the native buffer; every other byte stays. -/
theorem State.storeLane_pixelByte (s : State) (i k : Nat) (b : Byte) (a : Nat) :
    (s.storeLane i k b).pixelByte a = if a = i * s.pb.toNat + k then b else s.pixelByte a := by
  simp only [State.pixelByte, State.storeLane_read]
  split <;> rfl

section
variable {s : State} {i j k l : Nat}

theorem memReadLane_storeLane_self (b : Byte) (hi : i < s.area) :
    memReadLane i k (s.storeLane i k b) = .ok b (s.storeLane i k b) := by
  rw [memReadLane_ok (s := s.storeLane i k b) k hi, State.storeLane_pb, State.storeLane_pixelByte,
    if_pos rfl]

/-- Different lanes lie at different byte addresses (`byte_index_inj`), so the store misses the lane read. -/
theorem memReadLane_storeLane_ne (b : Byte) (hj : j < s.area) (hk : k < s.pb.toNat)
    (hl : l < s.pb.toNat) (hne : ¬ (j = i ∧ l = k)) :
    memReadLane j l (s.storeLane i k b) =
      .ok (s.pixelByte (j * s.pb.toNat + l)) (s.storeLane i k b) := by
  have apart : j * s.pb.toNat + l ≠ i * s.pb.toNat + k := fun h => hne (byte_index_inj hl hk h)
  rw [memReadLane_ok (s := s.storeLane i k b) l hj, State.storeLane_pb, State.storeLane_pixelByte,
    if_neg apart]

end

/-- Settles O11: an access inside the area answers, and each read meets the store at its own index or lane
or misses it. -/
theorem nativeReadWrite : Obligations.NativeReadWrite := by
  constructor
  · intro s i v hi
    exact ⟨s.storePixel i v, memWrite_ok v hi, memRead_storePixel_self v hi,
      fun _ hne hj => memRead_storePixel_ne v hj hne⟩
  · intro s i k b hi hk
    exact ⟨s.storeLane i k b, memWriteLane_ok k b hi, memReadLane_storeLane_self b hi,
      fun _ _ hj hl hne => memReadLane_storeLane_ne b hj hk hl hne⟩

end Sys2Proof.Machine
end

section
/-! The family of 30_encoding.md: which header form a control byte opens, and for each form the opcode, the
count and the length that its decoder answers, with the fields of the control byte as numbers. -/

namespace Sys2Proof.Machine

/-! ## The fields of a control byte -/

theorem highNibble_toNat (code : Byte) : (highNibble code).toNat = code.toNat / 16 := by
  have := code.isLt
  rw [highNibble, BitVec.extractLsb'_toNat, Nat.shiftRight_eq_div_pow]
  omega

theorem lowNibble_toNat (code : Byte) : (lowNibble code).toNat = code.toNat % 16 := by
  simp [lowNibble]

theorem regularOpcode_toNat (code : Byte) : (code.extractLsb' 5 3).toNat = code.toNat / 32 := by
  have := code.isLt
  rw [BitVec.extractLsb'_toNat, Nat.shiftRight_eq_div_pow]
  omega

theorem regularField_toNat (code : Byte) : (code.extractLsb' 0 5).toNat = code.toNat % 32 := by
  simp

/-- The control byte of the mega and special forms, `1111 oooo`. -/
theorem toNat_F0_or {op : Byte} (h : op < 16) : (0xF0 ||| op).toNat = 240 + op.toNat := by
  have low : op.toNat < 2 ^ 4 := by bv_omega
  have sum := Nat.two_pow_add_eq_or_of_lt low 15
  rw [BitVec.toNat_or]
  exact sum.symm

/-! ## The form a control byte opens (R61) -/

theorem decodeScan_regular {code : Byte} (rest : List Byte) (h : code < 0xC0) :
    decodeScan (code :: rest) = decodeRegular code rest := by
  have top := highNibble_toNat code
  have notF : highNibble code ≠ 0xF := by bv_omega
  have notLite : ¬ (highNibble code = 0xC ∨ highNibble code = 0xD ∨ highNibble code = 0xE) := by
    bv_omega
  rw [decodeScan, if_neg notF, if_neg notLite]

theorem decodeScan_lite {code : Byte} (rest : List Byte) (hlo : 0xC0 ≤ code) (hhi : code < 0xF0) :
    decodeScan (code :: rest) = decodeLite code rest := by
  have top := highNibble_toNat code
  have notF : highNibble code ≠ 0xF := by bv_omega
  have lite : highNibble code = 0xC ∨ highNibble code = 0xD ∨ highNibble code = 0xE := by bv_omega
  rw [decodeScan, if_neg notF, if_pos lite]

theorem highNibble_F0_or {op : Byte} (h : op < 16) : highNibble (0xF0 ||| op) = 0xF := by
  have top := highNibble_toNat (0xF0 ||| op)
  rw [toNat_F0_or h] at top
  bv_omega

theorem lowNibble_F0_or {op : Byte} (h : op < 16) : (lowNibble (0xF0 ||| op)).toNat = op.toNat := by
  rw [lowNibble_toNat, toNat_F0_or h]
  bv_omega

theorem decodeScan_mega {op : Byte} (rest : List Byte) (h : op < 9) :
    decodeScan ((0xF0 ||| op) :: rest) = decodeMegaForm (0xF0 ||| op) rest := by
  have nibble : op < 16 := by bv_omega
  have low := lowNibble_F0_or nibble
  have mega : lowNibble (0xF0 ||| op) < 9 := by bv_omega
  rw [decodeScan, if_pos (highNibble_F0_or nibble), if_pos mega]

theorem decodeScan_special {op : Byte} (rest : List Byte) (hlo : 9 ≤ op) (hhi : op < 16) :
    decodeScan ((0xF0 ||| op) :: rest) = decodeSpecial (0xF0 ||| op) := by
  have low := lowNibble_F0_or hhi
  have special : ¬ lowNibble (0xF0 ||| op) < 9 := by bv_omega
  rw [decodeScan, if_pos (highNibble_F0_or hhi), if_neg special]

/-! ## The counted forms (R62, R65, R66) -/

/-- The answer `r` to a regular or lite header: opcode `op`, and R66's count and length for the count field
`field`, the extension byte `e` and the form's `offset`. -/
def CountedHeader (offset op field : Nat) (e : Byte) (r : DecodeResult) : Prop :=
  ∃ i len, r = .instr i len ∧ headerOpcode i = some op ∧
    if field = 0 then len = 2 ∧ headerCount i = e.toNat + if op = 2 ∨ op = 7 then 1 else offset
    else len = 1 ∧ headerCount i = if op = 2 ∨ op = 7 then field * 8 else field

/-- Serves every constructor `mk` of the two forms: `isOp` is the opcode test its arm has passed. -/
theorem decodeCounted_header {width offset op k : Nat} {mk : CountField width → Instr}
    (opcode : ∀ c, headerOpcode (mk c) = some k)
    (count : ∀ c, headerCount (mk c) = countOf offset (k = 2 ∨ k = 7) c) (isOp : op = k)
    (field : BitVec width) (e : Byte) (rest : List Byte) :
    CountedHeader offset op field.toNat e (decodeCounted field (e :: rest) mk) := by
  subst isOp
  by_cases zero : field = 0
  · exact ⟨mk (.ext e), 2, by rw [decodeCounted, if_pos zero], opcode _, by
      simp [zero, count, countOf]⟩
  · have nonzero : field.toNat ≠ 0 := fun h => zero (BitVec.eq_of_toNat_eq (by simpa using h))
    exact ⟨mk (.inByte field), 1, by rw [decodeCounted, if_neg zero], opcode _, by
      simp [nonzero, count, countOf, Nat.shiftLeft_eq]⟩

theorem decodeRegular_header {code : Byte} (e : Byte) (rest : List Byte) (h : code < 0xC0) :
    CountedHeader 32 (code.toNat / 32) (code.toNat % 32) e (decodeRegular code (e :: rest)) := by
  have valid : code.toNat / 32 < 6 := by bv_omega
  rw [← regularOpcode_toNat] at valid ⊢
  rw [← regularField_toNat]
  simp only [decodeRegular]
  generalize code.extractLsb' 5 3 = op at valid ⊢
  split_ifs
  all_goals exact decodeCounted_header (fun _ => rfl) (fun _ => rfl) (by bv_omega) _ e rest

theorem decodeLite_header {code : Byte} (e : Byte) (rest : List Byte) (hlo : 0xC0 ≤ code)
    (hhi : code < 0xF0) :
    CountedHeader 16 (code.toNat / 16 - 6) (code.toNat % 16) e (decodeLite code (e :: rest)) := by
  have lower : 12 ≤ code.toNat / 16 := by bv_omega
  have upper : code.toNat / 16 < 15 := by bv_omega
  rw [← highNibble_toNat] at lower upper ⊢
  rw [← lowNibble_toNat]
  simp only [decodeLite]
  generalize highNibble code = top at lower upper ⊢
  split_ifs
  all_goals exact decodeCounted_header (fun _ => rfl) (fun _ => rfl) (by bv_omega) _ e rest

/-- Settles O6: the header of each form, with the control byte's shifts and masks read as the quotients and
remainders it is stated in. Opcode 7 lies outside the regular form and opcode 2 outside the lite form, so each
form has one opcode that counts in groups of 8. -/
theorem countedHeaders : Obligations.CountedHeaders := by
  constructor
  · intro code e rest h
    have header := decodeRegular_header e rest h
    rw [← decodeScan_regular _ h] at header
    have field : code.toNat &&& 31 = code.toNat % 32 := Nat.and_two_pow_sub_one_eq_mod _ 5
    have not7 : code.toNat / 32 ≠ 7 := by bv_omega
    simpa [CountedHeader, decode, ← BitVec.toNat_inj, Nat.shiftRight_eq_div_pow, field, not7]
      using header
  · intro code e rest hlo hhi
    have header := decodeLite_header e rest hlo hhi
    rw [← decodeScan_lite _ hlo hhi] at header
    have field : code.toNat &&& 15 = code.toNat % 16 := Nat.and_two_pow_sub_one_eq_mod _ 4
    have grouped : (code.toNat / 16 - 6 = 2 ∨ code.toNat / 16 - 6 = 7) ↔ code.toNat / 16 = 13 := by
      bv_omega
    simpa [CountedHeader, decode, ← BitVec.toNat_inj, Nat.shiftRight_eq_div_pow, field, grouped]
      using header

/-! ## The mega form (R63, R45) -/

/-- Serves every constructor `mk` of the form: `isOp` is the opcode test its arm has passed. -/
theorem decodeMega_header {op k : Nat} {mk : Word16 → Instr} (opcode : ∀ n, headerOpcode (mk n) = some k)
    (count : ∀ n, headerCount (mk n) = n.toNat) (isOp : op = k) (lo hi : Byte) (rest : List Byte) :
    ∃ i, decodeMega (lo :: hi :: rest) mk = .instr i 3 ∧
      headerOpcode i = some op ∧ headerCount i = hi.toNat * 256 + lo.toNat :=
  ⟨mk (hi ++ lo), rfl, isOp ▸ opcode _, by
    rw [count, BitVec.toNat_append, ← Nat.shiftLeft_add_eq_or_of_lt lo.isLt, Nat.shiftLeft_eq]⟩

theorem decodeMegaForm_header {code : Byte} (lo hi : Byte) (rest : List Byte) (h : lowNibble code < 9) :
    ∃ i, decodeMegaForm code (lo :: hi :: rest) = .instr i 3 ∧
      headerOpcode i = some (lowNibble code).toNat ∧ headerCount i = hi.toNat * 256 + lo.toNat := by
  simp only [decodeMegaForm]
  generalize lowNibble code = op at h ⊢
  split_ifs
  all_goals exact decodeMega_header (fun _ => rfl) (fun _ => rfl) (by bv_omega) lo hi rest

/-- Settles O4: a low nibble below 9 is the mega form, whose decoder answers for each opcode. -/
theorem megaHeader : Obligations.MegaHeader := by
  intro op lo hi rest h
  have low := lowNibble_F0_or (op := op) (by bv_omega)
  rw [decode, decodeScan_mega _ h, ← low]
  exact decodeMegaForm_header lo hi rest (by bv_omega)

/-! ## The special form (R64) -/

theorem decodeSpecial_header {code : Byte} (h : 9 ≤ lowNibble code) :
    ∃ i, decodeSpecial code = .instr i 1 ∧ headerOpcode i = some (lowNibble code).toNat ∧
      headerCount i = if lowNibble code = 9 ∨ lowNibble code = 0xA then 8 else 1 := by
  unfold decodeSpecial
  generalize lowNibble code = op at h ⊢
  have cases : op = 9 ∨ op = 0xA ∨ op = 0xB ∨ op = 0xC ∨ op = 0xD ∨ op = 0xE ∨ op = 0xF := by bv_omega
  rcases cases with rfl | rfl | rfl | rfl | rfl | rfl | rfl
  all_goals exact ⟨_, rfl, rfl, rfl⟩

/-- Settles O5: a low nibble of 9 or more is the special form, whose decoder answers for each opcode. -/
theorem specialHeader : Obligations.SpecialHeader := by
  intro op rest hlo hhi
  have low := lowNibble_F0_or hhi
  have fixed9 : lowNibble (0xF0 ||| op) = 9 ↔ op = 9 := by bv_omega
  have fixedA : lowNibble (0xF0 ||| op) = 0xA ↔ op = 0xA := by bv_omega
  have header := decodeSpecial_header (code := 0xF0 ||| op) (by bv_omega)
  rwa [low, ← decodeScan_special rest hlo hhi, if_congr (or_congr fixed9 fixedA) rfl rfl] at header

end Sys2Proof.Machine
end

section
/-! The family of 40_decode_call.md: the step of phase `NORMALIZE` and its outcome where the post-check
passes. -/

namespace Sys2Proof.Machine

theorem step_normalize {s : State} (h : s.phase = .normalize) : step s = .next (normalizeStep s) := by
  simp [step, State.action, h]

/-- Neither side of the destination exceeds the source raster, so `PostCheck()` passes
(45_geometry_validator.md R152) and the normalizer runs to the end of the call (40_decode_call.md R85). -/
theorem normalizeStep_done {s : State} (columns : s.dstW ≤ s.srcW) (rows : s.dstH ≤ s.srcH) :
    normalizeStep s = { s with
      out := s.normalized s.outPixels, status := .ok, errPos := 0, outLen := s.outPixels * 4,
      phase := .done } := by
  have fits : ¬ (s.srcW < s.dstW ∨ s.srcH < s.dstH) := not_or.mpr ⟨columns.not_gt, rows.not_gt⟩
  rw [normalizeStep, if_neg fits]

/-- Settles O22: the step is the normalizer's, and its post-check passes. -/
theorem normalizeEnds : Obligations.NormalizeEnds := fun _ phase columns rows =>
  ⟨_, (step_normalize phase).trans (congrArg _ (normalizeStep_done columns rows)), rfl⟩

end Sys2Proof.Machine
end

section
/-! The family of 44_color_normalizer.md: the formats whose pixels are whole byte lanes. -/

namespace Sys2Proof.Machine

/-- A 24-bit pixel has no alpha lane of its own: A is opaque (R146). -/
@[simp] theorem rgba_24 (p : Pixel) : rgba 24 p = [p.b2, p.b1, p.b0, 255] := by
  have not15 : (24 : Int) ≠ 15 := by decide
  have not16 : (24 : Int) ≠ 16 := by decide
  rw [rgba, if_neg not15, if_neg not16, if_pos rfl, rgba24]

/-- The depth left when the three others are excluded: A is the pixel's fourth lane (R147). -/
@[simp] theorem rgba_32 (p : Pixel) : rgba 32 p = [p.b2, p.b1, p.b0, p.b3] := by
  have not15 : (32 : Int) ≠ 15 := by decide
  have not16 : (32 : Int) ≠ 16 := by decide
  have not24 : (32 : Int) ≠ 24 := by decide
  rw [rgba, if_neg not15, if_neg not16, if_neg not24, rgba32]

/-- Settles O13: one conversion for each of the two depths. -/
theorem byteConversions : Obligations.ByteConversions := fun p => ⟨rgba_24 p, rgba_32 p⟩

end Sys2Proof.Machine
end

section
/-! What one step is in each phase: one equation for each action of the engine (40_decode_call.md R80 ..
R86), the three answers of a fetch, and the statements that are these equations written out. -/

namespace Sys2Proof.Machine

/-! ## The action of a state -/

/-- The instruction due at the cursor, by its place of the stream. -/
theorem State.action_fetch_iff (s : State) (c : Ctx) :
    s.action = .fetch c ↔
      s.phase = .scan ∧ s.cur < s.inLen ∧ c = .scan ∨
      s.phase = .planar ∧ s.cur = 0 ∧ c = .marker ∨
      s.phase = .planar ∧ s.cur ≠ 0 ∧ s.col < s.width ∧ c = .control := by
  unfold State.action
  cases s.phase with
  | scan => by_cases hc : s.cur < s.inLen <;> simp [hc, eq_comm]
  | planar =>
    by_cases h0 : s.cur = 0
    · simp [h0, eq_comm]
    · by_cases h1 : s.col < s.width
      · simp [h0, h1, eq_comm]
      · by_cases h2 : s.planarDone = true <;> simp [h0, h1, h2]
  | _ => simp

theorem State.planarDone_iff (s : State) :
    s.planarDone = true ↔ 3 ≤ s.plane ∧ s.height ≤ s.krow + 1 := by
  simp [State.planarDone]

section
variable {s : State} {c : Ctx} {i : Instr} {len : Nat}

/-! ## The steps that read no instruction -/

theorem step_idle (idle : ¬ s.Busy) : step s = .next (idleStep s) := by
  have action : s.action = .idle := by
    unfold State.action
    cases h : s.phase <;> simp_all [State.Busy]
  rw [step, action]

theorem step_scanComplete (phase : s.phase = .scan) (atEnd : s.inLen ≤ s.cur) :
    step s = .next (scanComplete s) := by
  simp [step, State.action, phase, atEnd.not_gt]

theorem step_planarComplete (phase : s.phase = .planar) (marked : s.cur ≠ 0) (rowEnd : s.width ≤ s.col)
    (last : s.planarDone = true) : step s = .next (planarComplete s) := by
  simp [step, State.action, phase, marked, rowEnd.not_gt, last]

theorem step_planarNextRow (phase : s.phase = .planar) (marked : s.cur ≠ 0) (rowEnd : s.width ≤ s.col)
    (more : ¬ s.planarDone = true) : step s = .next (planarNextRow s) := by
  simp [step, State.action, phase, marked, rowEnd.not_gt, more]

/-! ## The steps that read a header -/

theorem step_instr (due : s.action = .fetch c) (header : decode c s.headerBytes = .instr i len) :
    step s = exec i (s.startOrder.advance len) := by
  simp [step, due, fetch, header]

theorem step_truncated (due : s.action = .fetch c)
    (header : decode c s.headerBytes = .error .truncated) :
    step s =
      .next ((s.startOrder.advance s.headerBytes.length).failEntry .streamUnderrun s.cur) := by
  simp [step, due, fetch, header]

theorem step_badMarker {b : Byte} (due : s.action = .fetch c)
    (header : decode c s.headerBytes = .error (.badMarker b)) :
    step s = .next ((s.startOrder.advance 1).failEntry .badMarker 0) := by
  simp [step, due, fetch, header]

end

/-- Settles O24: in each of the three places the due action is the fetch there. -/
theorem stepRunsDecoded : Obligations.StepRunsDecoded := fun s c _ _ due header =>
  step_instr ((s.action_fetch_iff c).mpr due) header

/-- Settles O17: the idle step takes a call from an empty list, so none. -/
theorem idleStays : Obligations.IdleStays := by
  intro s idle calls
  rw [step_idle idle, idleStep, calls]

/-! ## The start of a call -/

/-- A byte list placed from address 0 into an empty memory is read back byte for byte. -/
theorem Memory.read_placed (bs : List Byte) {a : Nat} (h : a < bs.length) :
    (Memory.writeList [] 0 bs).read a = bs[a]? := by
  simp [Memory.read_writeList, h]

/-- The step that takes the host's next call. -/
theorem step_startCall {s : State} {c : Call} {rest : List Call} (idle : ¬ s.Busy)
    (calls : s.calls = c :: rest) : step s = .next { s.startCall c with calls := rest } := by
  rw [step_idle idle, idleStep, calls]

theorem initialMix_word {bpp : Int} (h : bpp = 15 ∨ bpp = 16) : initialMix bpp = ⟨0xFF, 0xFF, 0, 0⟩ := by
  rcases h with rfl | rfl <;> rfl

/-- Settles O16: the fields of the started call, one by one. -/
theorem callStart : Obligations.CallStart := by
  intro s c rest idle calls
  refine ⟨_, step_startCall idle calls, rfl, rfl, rfl, fun a ha => Memory.read_placed c.input ha,
    rfl, rfl, rfl, rfl, rfl, rfl, rfl, rfl, rfl, rfl, rfl, rfl, rfl, rfl, initialMix_word,
    fun h => ?_, ?_⟩
  · exact (congrArg initialMix h).trans rfl
  · exact ⟨rfl, rfl, rfl, rfl, rfl, rfl, rfl, rfl, rfl, rfl, rfl, rfl, rfl, rfl, rfl, rfl, rfl, rfl, rfl,
      rfl⟩

/-- Settles O15: the fields of the power-on state. -/
theorem powerOn : Obligations.PowerOn := ⟨rfl, rfl, rfl, rfl⟩

/-! ## The failures of the checks -/

theorem validateStep_badGeometry {s : State} (bad : ¬ s.geometryOk = true) :
    validateStep s = s.failEntry .invalidDimensions 0 := if_neg bad

theorem validateStep_badDepth {s : State} (geometry : s.geometryOk = true)
    (depth : pixelBytesOf s.bpp = none) : validateStep s = s.failEntry .unsupportedDepth 0 := by
  rw [validateStep, if_pos geometry, depth]

theorem normalizeStep_oversize {s : State} (large : s.srcW < s.dstW ∨ s.srcH < s.dstH) :
    normalizeStep s = s.failEntry .bufferLengthMismatch 0 := if_pos large

/-- Settles O18: each of the four causes fails the pre-check. -/
theorem geometryRejected : Obligations.GeometryRejected := by
  intro s phase cause
  have bad : ¬ s.geometryOk = true := by
    rw [State.geometryOk_iff]
    omega
  exact (step_validate phase).trans (congrArg _ (validateStep_badGeometry bad))

theorem pixelBytesOf_unsupported {bpp : Int} (h15 : bpp ≠ 15) (h16 : bpp ≠ 16) (h24 : bpp ≠ 24)
    (h32 : bpp ≠ 32) : pixelBytesOf bpp = none := by
  simp [pixelBytesOf, h15, h16, h24, h32]

/-- Settles O19: the pre-check passes and no pixel width belongs to the depth. -/
theorem depthRejected : Obligations.DepthRejected := by
  intro s phase geometry h15 h16 h24 h32
  have depth := pixelBytesOf_unsupported h15 h16 h24 h32
  exact (step_validate phase).trans (congrArg _ (validateStep_badDepth geometry depth))

/-- Settles O21: the post-check's condition is the statement's. -/
theorem oversizeRejected : Obligations.OversizeRejected := fun _ phase large =>
  (step_normalize phase).trans (congrArg _ (normalizeStep_oversize large))

/-! ## The ends of the engines -/

theorem scanComplete_full {s : State} (full : s.rowsLeft = 0 ∧ s.width ≤ s.x) :
    scanComplete s = { s with phase := .normalize } := if_pos full

theorem scanComplete_short {s : State} (short : ¬ (s.rowsLeft = 0 ∧ s.width ≤ s.x)) :
    scanComplete s = s.failEntry .streamUnderrun s.inLen := if_neg short

theorem planarNextRow_inPlane {s : State} (row : s.krow + 1 < s.height) :
    planarNextRow s = { s with krow := s.krow + 1, col := 0, run := 0 } := if_pos row

theorem planarNextRow_newPlane {s : State} (row : ¬ s.krow + 1 < s.height) :
    planarNextRow s = { s with plane := s.plane + 1, krow := 0, col := 0, run := 0 } := if_neg row

theorem planarComplete_whole {s : State} (atEnd : s.cur = s.inLen) :
    planarComplete s = { s with phase := .normalize } := if_pos atEnd

theorem planarComplete_mismatch {s : State} (before : s.cur ≠ s.inLen) :
    planarComplete s = s.failEntry .lengthMismatch s.cur := if_neg before

/-- Settles O42: the test of the end of a scanline stream, both ways. -/
theorem scanEnds : Obligations.ScanEnds := by
  intro s phase atEnd
  rw [step_scanComplete phase atEnd.ge]
  exact ⟨fun rows column => congrArg _ (scanComplete_full ⟨rows, column⟩),
    fun left => congrArg _ (scanComplete_short (by omega))⟩

/-- Settles O48: the row that ended is the last of the last plane, the last of another, or not the last. -/
theorem planarLoops : Obligations.PlanarLoops := by
  intro s phase marked rowEnd
  have done := s.planarDone_iff
  refine ⟨fun row => ?_, fun row plane => ?_, fun row plane atEnd => ?_, fun row plane before => ?_⟩
  · exact (step_planarNextRow phase marked rowEnd (by rw [done]; omega)).trans
      (congrArg _ (planarNextRow_inPlane row))
  · exact (step_planarNextRow phase marked rowEnd (by rw [done]; omega)).trans
      (congrArg _ (planarNextRow_newPlane row.not_gt))
  · exact (step_planarComplete phase marked rowEnd (done.mpr ⟨plane, row⟩)).trans
      (congrArg _ (planarComplete_whole atEnd))
  · exact (step_planarComplete phase marked rowEnd (done.mpr ⟨plane, row⟩)).trans
      (congrArg _ (planarComplete_mismatch before))

end Sys2Proof.Machine
end

section
/-! The invariants of the machine: what a step from a state with the invariant can answer (`inv_step`), from
the laws of the two engines, and from it the invariant, the progress and the written raster. -/

namespace Sys2Proof.Machine

/-! ## The latches of a call -/

/-- The configuration latches of a call, its stream and the calls still to make (10_state.md R13). -/
def State.latches (s : State) :
    (Nat × Int × Int) × (Int × Int × Int × Int × Int) × Memory × List Call :=
  ((s.inLen, s.srcW, s.srcH), (s.dstL, s.dstT, s.dstR, s.dstB, s.bpp), s.input, s.calls)

theorem State.PastHeader.latches {s u : State} (h : s.PastHeader u) : u.latches = s.latches := by
  obtain ⟨len, _, _, rfl⟩ := h
  rfl

theorem OrderFrame.latches {s t : State} (h : OrderFrame s t) : t.latches = s.latches := by
  rw [h.same]; rfl

theorem PlanarFrame.latches {s t : State} (h : PlanarFrame s t) : t.latches = s.latches := by
  rw [h.same]; rfl

theorem planarNextRow_latches (s : State) : (planarNextRow s).latches = s.latches := by
  unfold planarNextRow
  split <;> rfl

theorem BusyStep.latches {s t : State} (h : BusyStep s t) : t.latches = s.latches := by
  cases h with
  | order u _ hu frame => exact frame.latches.trans hu.latches
  | run u _ hu frame => exact frame.latches.trans hu.latches
  | row _ eq => rw [eq, planarNextRow_latches]
  | engine _ eq => rw [eq]; rfl
  | dispatch pb _ eq => rw [eq]; rfl
  | done _ eq => rw [eq]; rfl
  | failed v e pos same _ _ eq =>
    rw [eq]
    rcases same with same | same
    · rw [same]; rfl
    · rw [same]; rfl

/-- Settles O53: the components of `BusyStep.latches`. -/
theorem latchesReadOnly : Obligations.LatchesReadOnly := by
  intro s t busy next
  have kept := (busy_step busy next).latches
  simp only [State.latches, Prod.mk.injEq] at kept
  obtain ⟨⟨inLen, srcW, srcH⟩, ⟨dstL, dstT, dstR, dstB, bpp⟩, input, calls⟩ := kept
  exact ⟨inLen, srcW, srcH, dstL, dstT, dstR, dstB, bpp, input, calls⟩

/-! ## What a step from a state with the invariant answers -/

/-- The answers of a step from a state with the invariant. It refines `BusyStep`: an instruction that went
on has kept what the engines' laws say, and each action says when it is due. -/
inductive InvStep (s t : State) : Prop where
  | idle (idle : ¬ s.Busy) (eq : t = idleStep s)
  | dispatch (pb : PixelBytes) (phase : s.phase = .validate) (geometry : s.geometryOk = true)
      (depth : pixelBytesOf s.bpp = some pb) (eq : t = { s with
        pb := pb, dstW := s.dstR - s.dstL + 1, dstH := s.dstB - s.dstT + 1, phase := enginePhase pb })
  | order (u : State) (phase : s.phase = .scan) (past : s.PastHeader u) (frame : OrderFrame u t)
      (keeps : ScanKeeps u t)
  | scanned (phase : s.phase = .scan) (rows : s.rowsLeft = 0) (column : s.width ≤ s.x)
      (eq : t = { s with phase := .normalize })
  | marker (u : State) (phase : s.phase = .planar) (first : s.cur = 0) (past : s.PastHeader u)
      (eq : t = u.enterPlanes)
  | run (u : State) (phase : s.phase = .planar) (marked : s.cur ≠ 0) (past : s.PastHeader u)
      (frame : PlanarFrame u t) (keeps : RunKeeps u t)
  | row (phase : s.phase = .planar) (marked : s.cur ≠ 0) (rowEnd : s.width ≤ s.col)
      (more : ¬ s.planarDone = true) (eq : t = planarNextRow s)
  | decoded (phase : s.phase = .planar) (marked : s.cur ≠ 0) (rowEnd : s.width ≤ s.col)
      (last : s.planarDone = true) (eq : t = { s with phase := .normalize })
  | normalized (phase : s.phase = .normalize) (eq : t = { s with
        out := s.normalized s.outPixels, status := .ok, errPos := 0, outLen := s.outPixels * 4
        phase := .done })
  | failed (busy : s.Busy) (e : Failure) (phase : t.phase = .failed) (status : t.status = .error e)
      (outLen : t.outLen = 0) (wf : s.pixels.wf → t.pixels.wf)

theorem InvStep.ofFailEntry {s : State} (busy : s.Busy) (v : State) (e : Failure) (pos : Nat)
    (wf : s.pixels.wf → v.pixels.wf) : InvStep s (v.failEntry e pos) :=
  .failed busy e rfl rfl rfl wf

theorem inv_step_validate {s : State} (phase : s.phase = .validate) : InvStep s (validateStep s) := by
  have busy : s.Busy := .inl phase
  unfold validateStep
  split
  · next geometry =>
    split
    · exact .ofFailEntry busy s _ _ id
    · next pb depth => exact .dispatch pb phase geometry depth rfl
  · exact .ofFailEntry busy s _ _ id

theorem inv_step_scanComplete {s : State} (phase : s.phase = .scan) : InvStep s (scanComplete s) := by
  unfold scanComplete
  split
  · next full => exact .scanned phase full.1 full.2 rfl
  · exact .ofFailEntry (.inr (.inl phase)) s _ _ id

theorem inv_step_planarComplete {s : State} (phase : s.phase = .planar) (marked : s.cur ≠ 0)
    (rowEnd : s.width ≤ s.col) (last : s.planarDone = true) : InvStep s (planarComplete s) := by
  unfold planarComplete
  split
  · exact .decoded phase marked rowEnd last rfl
  · exact .ofFailEntry (.inr (.inr (.inl phase))) s _ _ id

theorem inv_step_normalize {s : State} (phase : s.phase = .normalize) : InvStep s (normalizeStep s) := by
  unfold normalizeStep
  split
  · exact .ofFailEntry (.inr (.inr (.inr phase))) s _ _ id
  · exact .normalized phase rfl

theorem State.PastHeader.pixels {s u : State} (h : s.PastHeader u) : u.pixels = s.pixels := by
  obtain ⟨len, _, _, rfl⟩ := h
  rfl

/-- The scanline engine's orders, past their header. -/
theorem inv_step_order {s u : State} {i : Instr} (phase : s.phase = .scan) (ok : s.ScanOk)
    (past : s.PastHeader u) (place : i.ctx = .scan) : ∃ t, exec i u = .next t ∧ InvStep s t := by
  have busy : s.Busy := .inr (.inl phase)
  have running : u.ScanOk := by
    obtain ⟨len, _, _, rfl⟩ := past
    exact ok
  obtain ⟨t, next, kept⟩ := exec_scan_keeps place running
  obtain ⟨_, _, framed⟩ := exec_scan_next place next
  refine ⟨t, next, ?_⟩
  rcases kept with kept | ⟨v, e, wf, rfl⟩
  · rcases framed with frame | ⟨v, e, _, rfl⟩
    · exact .order u phase past frame kept
    · exact .ofFailEntry busy v _ _ (past.pixels ▸ kept.wf)
  · exact .ofFailEntry busy v _ _ (past.pixels ▸ wf)

/-- The planar engine's control bytes, past their byte. -/
theorem inv_step_run {s u : State} {i : Instr} (phase : s.phase = .planar) (marked : s.cur ≠ 0)
    (ok : s.PlanarOk) (past : s.PastHeader u) (place : i.ctx = .control) :
    ∃ t, exec i u = .next t ∧ InvStep s t := by
  have busy : s.Busy := .inr (.inr (.inl phase))
  have running : u.PlanarOk := by
    obtain ⟨len, _, _, rfl⟩ := past
    exact ok
  obtain ⟨t, next, kept⟩ := exec_control_keeps place running
  obtain ⟨_, _, framed⟩ := exec_planar_next (place ▸ (by decide)) next
  refine ⟨t, next, ?_⟩
  rcases kept with kept | ⟨v, e, wf, rfl⟩
  · rcases framed with frame | ⟨v, e, _, rfl⟩
    · exact .run u phase marked past frame kept
    · exact .ofFailEntry busy v _ _ (past.pixels ▸ kept.wf)
  · exact .ofFailEntry busy v _ _ (past.pixels ▸ wf)

theorem Instr.eq_marker {i : Instr} (h : i.ctx = .marker) : i = .marker := by
  cases i with
  | marker => rfl
  | _ => cases h

/-- The planar engine's marker, past its byte. -/
theorem inv_step_marker {s u : State} {i : Instr} (phase : s.phase = .planar) (first : s.cur = 0)
    (ok : s.PlanarOk) (past : s.PastHeader u) (place : i.ctx = .marker) :
    ∃ t, exec i u = .next t ∧ InvStep s t := by
  have running : u.phase = .planar ∧ u.pb = .four := by
    obtain ⟨len, _, _, rfl⟩ := past
    exact ⟨ok.1, ok.2.1⟩
  refine ⟨u.enterPlanes, ?_, .marker u phase first past rfl⟩
  rw [Instr.eq_marker place]
  exact if_pos running

/-- A fetch answers as its instruction does, or fails in the header. -/
theorem inv_step_fetch {s : State} {c : Ctx} (busy : s.Busy) (due : s.action = .fetch c)
    (runs : ∀ i u, i.ctx = c → s.PastHeader u → ∃ t, exec i u = .next t ∧ InvStep s t) :
    ∃ t, step s = .next t ∧ InvStep s t := by
  cases header : decode c s.headerBytes with
  | instr i len =>
    have length := decode_len header
    have within := headerBytes_length s
    rw [step_instr due header]
    exact runs i _ (decode_ctx header) ⟨len, length.1, by omega, rfl⟩
  | error e =>
    cases e with
    | truncated => exact ⟨_, step_truncated due header, .ofFailEntry busy _ _ _ id⟩
    | badMarker b => exact ⟨_, step_badMarker due header, .ofFailEntry busy _ _ _ id⟩

/-- A state with the invariant steps, to an answer of `InvStep`. -/
theorem inv_step {s : State} (inv : s.Inv) : ∃ t, step s = .next t ∧ InvStep s t := by
  obtain ⟨_, _, _, inStream, _, _, scan, planar, _, _, _⟩ := inv
  by_cases busy : s.Busy
  · rcases busy with phase | phase | phase | phase
    · exact ⟨_, step_validate phase, inv_step_validate phase⟩
    · by_cases more : s.cur < s.inLen
      · exact inv_step_fetch (.inr (.inl phase))
          ((s.action_fetch_iff .scan).mpr (.inl ⟨phase, more, rfl⟩))
          fun i u place past => inv_step_order phase (scan phase).2 past place
      · exact ⟨_, step_scanComplete phase (by omega), inv_step_scanComplete phase⟩
    · have fetches := fun c => inv_step_fetch (s := s) (c := c) (.inr (.inr (.inl phase)))
      by_cases first : s.cur = 0
      · exact fetches .marker ((s.action_fetch_iff _).mpr (.inr (.inl ⟨phase, first, rfl⟩)))
          fun i u place past => inv_step_marker phase first (planar phase).2 past place
      · by_cases inRow : s.col < s.width
        · exact fetches .control ((s.action_fetch_iff _).mpr (.inr (.inr ⟨phase, first, inRow, rfl⟩)))
            fun i u place past => inv_step_run phase first (planar phase).2 past place
        · have rowEnd : s.width ≤ s.col := by omega
          by_cases last : s.planarDone = true
          · exact ⟨_, step_planarComplete phase first rowEnd last,
              inv_step_planarComplete phase first rowEnd last⟩
          · exact ⟨_, step_planarNextRow phase first rowEnd last, .row phase first rowEnd last rfl⟩
    · exact ⟨_, step_normalize phase, inv_step_normalize phase⟩
  · exact ⟨_, step_idle busy, .idle busy rfl⟩

/-- Settles O51: the step that `inv_step` gives. -/
theorem invSteps : Obligations.InvSteps := fun _ inv =>
  let ⟨t, next, _⟩ := inv_step inv
  ⟨t, next⟩

theorem InvStep.ofNext {s t : State} (inv : s.Inv) (next : step s = .next t) : InvStep s t := by
  obtain ⟨u, next', answer⟩ := inv_step inv
  have same : u = t := Host.Outcome.next.inj (next'.symm.trans next)
  exact same ▸ answer

/-! ## The invariant, phase by phase -/

/-- What the invariant says in every phase. -/
def State.Sound (s : State) : Prop := s.input.wf ∧ s.pixels.wf ∧ s.out.wf ∧ s.cur ≤ s.inLen

/-- What the invariant says besides in one phase. -/
def Phase.Inv : Phase → State → Prop
  | .idle, s => s.status = .noCall ∧ s.errPos = 0 ∧ s.outLen = 0
  | .validate, s => s.Fresh
  | .scan, s => s.Validated ∧ s.ScanOk
  | .planar, s => s.Validated ∧ s.PlanarOk
  | .normalize, s => s.Validated
  | .done, s => s.status = .ok ∧ s.errPos = 0 ∧ s.outLen = s.outPixels * 4
  | .failed, s => s.status ≠ .noCall ∧ s.status ≠ .ok ∧ s.outLen = 0

theorem State.inv_iff {s : State} {p : Phase} (phase : s.phase = p) : s.Inv ↔ s.Sound ∧ p.Inv s := by
  subst phase
  cases phase : s.phase <;> simp [State.Inv, State.Sound, Phase.Inv, phase, and_assoc]

theorem Memory.wf_nil : Memory.wf [] := List.Pairwise.nil

/-- The start of a call gives the invariant whatever the state was. -/
theorem startCall_inv (s : State) (c : Call) (rest : List Call) :
    { s.startCall c with calls := rest }.Inv :=
  (State.inv_iff (p := .validate) rfl).mpr
    ⟨⟨Memory.wf_writeList Memory.wf_nil 0 _, Memory.wf_nil, Memory.wf_nil, Nat.zero_le _⟩,
      rfl, rfl, rfl, rfl, rfl, rfl, rfl, rfl⟩

theorem idleStep_inv {s : State} (inv : s.Inv) : (idleStep s).Inv := by
  unfold idleStep
  split
  · exact inv
  · exact startCall_inv s _ _

theorem State.geometryOk_sides {s : State} (h : s.geometryOk = true) : 0 < s.width ∧ 0 < s.height := by
  obtain ⟨srcW, srcH, _, _⟩ := s.geometryOk_iff.mp h
  exact ⟨by simp only [State.width]; omega, by simp only [State.height]; omega⟩

/-- `PB` selects the engine, whose registers are fresh. -/
theorem dispatch_inv {s : State} {pb : PixelBytes} (sound : s.Sound) (fresh : s.Fresh)
    (geometry : s.geometryOk = true) (depth : pixelBytesOf s.bpp = some pb) :
    { s with
      pb := pb, dstW := s.dstR - s.dstL + 1, dstH := s.dstB - s.dstT + 1
      phase := enginePhase pb }.Inv := by
  obtain ⟨columns, rows⟩ := State.geometryOk_sides geometry
  obtain ⟨_, x, rowsLeft, line, prevLine, plane, krow, col⟩ := fresh
  have scan : enginePhase pb = .scan → pb ≠ .four := by rintro h rfl; cases h
  have planar : enginePhase pb = .planar → pb = .four := by cases pb <;> decide
  cases phase : enginePhase pb with
  | scan =>
    exact (State.inv_iff rfl).mpr ⟨sound, ⟨geometry, depth, rfl, rfl⟩, rfl, scan phase, columns, x.le,
      .inl ⟨line, x, rowsLeft, prevLine⟩⟩
  | planar =>
    exact (State.inv_iff rfl).mpr ⟨sound, ⟨geometry, depth, rfl, rfl⟩, rfl, planar phase, columns,
      plane.trans_le (Nat.zero_le 3), krow.trans_lt rows, col.trans_le (Nat.zero_le _)⟩
  | _ => cases pb <;> cases phase

/-- The planar loops write only the loop registers (43_planar_engine.md R128). -/
theorem planarNextRow_same (s : State) : planarNextRow s = s.withPlanar (planarNextRow s) := by
  unfold planarNextRow
  split <;> rfl

/-- `OUT` is written by the normalizer only (20_memory.md R55). -/
theorem BusyStep.out_of_ne_done {s t : State} (h : BusyStep s t) (phase : t.phase ≠ .done) :
    t.out = s.out := by
  cases h with
  | order u _ hu frame =>
    obtain ⟨len, _, _, rfl⟩ := hu
    rw [frame.same]; rfl
  | run u _ hu frame =>
    obtain ⟨len, _, _, rfl⟩ := hu
    rw [frame.same]; rfl
  | row _ eq => rw [eq, planarNextRow_same]; rfl
  | engine _ eq => rw [eq]
  | dispatch pb _ eq => rw [eq]
  | done _ eq => exact absurd (congrArg State.phase eq) phase
  | failed v e pos same _ _ eq =>
    rw [eq]
    rcases same with same | same
    · rw [same]; rfl
    · rw [same]; rfl

theorem normalized_wf {s : State} (h : s.out.wf) (n : Nat) : (s.normalized n).wf := by
  induction n with
  | zero => exact h
  | succ n ih => exact Memory.wf_writeList ih _ _

/-- What `VALIDATE` establishes is about the latches and the registers it writes. -/
theorem State.Validated.congr {s t : State} (h : s.Validated) (latches : t.latches = s.latches)
    (pb : t.pb = s.pb) (dstW : t.dstW = s.dstW) (dstH : t.dstH = s.dstH) : t.Validated := by
  simp only [State.latches, Prod.mk.injEq] at latches
  obtain ⟨⟨_, srcW, srcH⟩, ⟨dstL, dstT, dstR, dstB, bpp⟩, _⟩ := latches
  simpa only [State.Validated, State.geometryOk, srcW, srcH, dstL, dstT, dstR, dstB, bpp, pb, dstW, dstH]
    using h

/-- An order that went on: its frame keeps the latches, its laws the line registers. -/
theorem order_inv {s u t : State} (sound : s.Sound) (validated : s.Validated) (ok : s.ScanOk)
    (past : s.PastHeader u) (frame : OrderFrame u t) (keeps : ScanKeeps u t) : t.Inv := by
  obtain ⟨input, pixels, out, _⟩ := sound
  obtain ⟨phase, pb, columns, _⟩ := ok
  have cursor := past.cur
  obtain ⟨len, _, _, rfl⟩ := past
  have same := frame.same
  have phase' : t.phase = .scan := by rw [same]; exact phase
  have sound' : t.Sound := by
    refine ⟨?_, keeps.wf pixels, ?_, ?_⟩
    · rw [same]; exact input
    · rw [same]; exact out
    · have inLen := frame.inLen
      have bound := frame.bound cursor.2
      rw [inLen]
      exact bound
  have validated' : t.Validated :=
    validated.congr frame.latches (by rw [same]; rfl) (by rw [same]; rfl) (by rw [same]; rfl)
  have pb' : t.pb ≠ .four := by rw [same]; exact pb
  have columns' : 0 < t.width := by rw [same]; exact columns
  exact (State.inv_iff phase').mpr ⟨sound', validated', phase', pb', columns', keeps.lines⟩

/-- A control byte that went on: its frame keeps the latches, its laws the row. -/
theorem run_inv {s u t : State} (sound : s.Sound) (validated : s.Validated) (ok : s.PlanarOk)
    (past : s.PastHeader u) (frame : PlanarFrame u t) (keeps : RunKeeps u t) : t.Inv := by
  obtain ⟨input, pixels, out, _⟩ := sound
  obtain ⟨phase, pb, columns, plane, krow, _⟩ := ok
  have cursor := past.cur
  obtain ⟨len, _, _, rfl⟩ := past
  have same := frame.same
  have phase' : t.phase = .planar := by rw [same]; exact phase
  have sound' : t.Sound := by
    refine ⟨?_, keeps.wf pixels, ?_, ?_⟩
    · rw [same]; exact input
    · rw [same]; exact out
    · have inLen := frame.inLen
      have bound := frame.bound cursor.2
      rw [inLen]
      exact bound
  have validated' : t.Validated :=
    validated.congr frame.latches (by rw [same]; rfl) (by rw [same]; rfl) (by rw [same]; rfl)
  have pb' : t.pb = .four := by rw [same]; exact pb
  have width' : t.width = s.width := by rw [same]; rfl
  have height' : t.height = s.height := by rw [same]; rfl
  have plane' := keeps.plane
  have krow' := keeps.krow
  refine (State.inv_iff phase').mpr ⟨sound', validated', phase', pb', ?_, ?_, ?_, ?_⟩
  · rw [width']; exact columns
  · rw [plane']; exact plane
  · rw [krow', height']; exact krow
  · rw [width']; exact keeps.inRow

/-- The next row is in range: within the plane, or the first of a plane before the last. -/
theorem planarNextRow_inv {s : State} (sound : s.Sound) (validated : s.Validated) (ok : s.PlanarOk)
    (more : ¬ s.planarDone = true) : (planarNextRow s).Inv := by
  obtain ⟨phase, pb, columns, plane, krow, _⟩ := ok
  rw [State.planarDone_iff] at more
  unfold planarNextRow
  split
  · next inPlane =>
    exact (State.inv_iff (s := { s with krow := s.krow + 1, col := 0, run := 0 }) phase).mpr
      ⟨sound, validated, phase, pb, columns, plane, inPlane, Nat.zero_le _⟩
  · next rowsEnd =>
    have next : s.plane + 1 ≤ 3 := by omega
    exact (State.inv_iff (s := { s with plane := s.plane + 1, krow := 0, col := 0, run := 0 })
      phase).mpr ⟨sound, validated, phase, pb, columns, next, Nat.zero_lt_of_lt krow, Nat.zero_le _⟩

/-- A failed call: the cursor and the memories as every step of a call leaves them. -/
theorem failed_inv {s t : State} {e : Failure} (sound : s.Sound) (answer : BusyStep s t)
    (phase : t.phase = .failed) (status : t.status = .error e) (outLen : t.outLen = 0)
    (wf : s.pixels.wf → t.pixels.wf) (out : t.out = s.out) : t.Inv := by
  obtain ⟨input, pixels, outWf, inStream⟩ := sound
  have kept := answer.latches
  simp only [State.latches, Prod.mk.injEq] at kept
  obtain ⟨_, _, input', _⟩ := kept
  refine (State.inv_iff phase).mpr ⟨⟨input' ▸ input, wf pixels, out ▸ outWf,
    answer.cur_le_inLen inStream⟩, ?_, ?_, outLen⟩
  · rw [status]; exact Status.noConfusion
  · rw [status]; exact Status.noConfusion

/-- Settles O50: each answer of a step has the invariant of its phase. -/
theorem stepKeepsInv : Obligations.StepKeepsInv := by
  intro s t inv next
  have answer := InvStep.ofNext inv next
  have sound : s.Sound := ((State.inv_iff rfl).mp inv).1
  have inPhase := fun {p} (phase : s.phase = p) => ((State.inv_iff phase).mp inv).2
  cases answer with
  | idle _ eq => exact eq ▸ idleStep_inv inv
  | dispatch pb phase geometry depth eq => exact eq ▸ dispatch_inv sound (inPhase phase) geometry depth
  | order u phase past frame keeps =>
    exact order_inv sound (inPhase phase).1 (inPhase phase).2 past frame keeps
  | scanned phase _ _ eq => exact eq ▸ (State.inv_iff rfl).mpr ⟨sound, (inPhase phase).1⟩
  | marker u phase first past eq =>
    obtain ⟨validated, ok⟩ := inPhase phase
    obtain ⟨_, pb, columns, _, krow, _⟩ := ok
    have cursor := past.cur
    obtain ⟨input, pixels, out, _⟩ := sound
    obtain ⟨len, _, _, rfl⟩ := past
    exact eq ▸ (State.inv_iff (s := (s.startOrder.advance len).enterPlanes) phase).mpr
      ⟨⟨input, pixels, out, cursor.2⟩, validated, phase, pb, columns, Nat.zero_le _,
        Nat.zero_lt_of_lt krow, Nat.zero_le _⟩
  | run u phase _ past frame keeps =>
    exact run_inv sound (inPhase phase).1 (inPhase phase).2 past frame keeps
  | row phase _ _ more eq =>
    exact eq ▸ planarNextRow_inv sound (inPhase phase).1 (inPhase phase).2 more
  | decoded phase _ _ _ eq => exact eq ▸ (State.inv_iff rfl).mpr ⟨sound, (inPhase phase).1⟩
  | normalized phase eq =>
    obtain ⟨input, pixels, out, inStream⟩ := sound
    exact eq ▸ (State.inv_iff rfl).mpr ⟨⟨input, pixels, normalized_wf out _, inStream⟩, rfl, rfl, rfl⟩
  | failed busy e phase status outLen wf =>
    have moved := busy_step busy next
    exact failed_inv sound moved phase status outLen wf
      (moved.out_of_ne_done (phase ▸ Phase.noConfusion))

/-- Settles O49: at power-on the phase is `IDLE`, whose result registers are those of D27, and the memories
are empty. -/
theorem resetInv : Obligations.ResetInv := by
  refine ⟨(State.inv_iff rfl).mpr ⟨⟨Memory.wf_nil, Memory.wf_nil, Memory.wf_nil, Nat.le_refl _⟩,
    rfl, rfl, rfl⟩, ?_, ?_, ?_, ?_⟩
  all_goals exact fun phase => Phase.noConfusion phase

end Sys2Proof.Machine
end

section
/-! What the engines have passed they have written (41_scanline_engine.md R102, 43_planar_engine.md R140):
each answer of a step keeps it, and where an engine finishes it has passed the whole raster. -/

namespace Sys2Proof.Machine

/-! ## The written raster, phase by phase -/

/-- Every lane the planar loops have passed is listed. -/
def State.LanesListed (s : State) : Prop :=
  ∀ p, p < 4 → ∀ k, k < s.height → ∀ c, c < s.width → s.planarPast p k c →
    s.has (((s.height - 1 - k) * s.width + c) * s.pb.toNat + planeOff p)

/-- What `RasterInv` says in one phase. -/
def Phase.Raster : Phase → State → Prop
  | .scan, s => s.Listed
  | .planar, s => s.cur ≠ 0 → s.LanesListed
  | .normalize, s => s.RasterFull
  | .done, s => s.RasterFull
  | _, _ => True

theorem State.rasterInv_iff {s : State} {p : Phase} (phase : s.phase = p) :
    s.RasterInv ↔ p.Raster s := by
  subst phase
  cases phase : s.phase <;>
    simp [State.RasterInv, Phase.Raster, State.Listed, State.LanesListed, phase]

/-! ## A whole raster -/

/-- A byte of the native buffer is a lane of a pixel of the raster. -/
theorem State.byte_of_area {s : State} {a : Nat} (h : a < s.area * s.pb.toNat) :
    a / s.pb.toNat < s.area ∧ a % s.pb.toNat < s.pb.toNat ∧
      a = a / s.pb.toNat * s.pb.toNat + a % s.pb.toNat := by
  have lane := Nat.mod_lt a (PixelBytes.toNat_pos s.pb)
  have split := Nat.div_add_mod' a s.pb.toNat
  exact ⟨Nat.div_lt_of_lt_mul (Nat.mul_comm _ _ ▸ h), lane, split.symm⟩

/-- The scanline engine at the end of the last line has passed every pixel. -/
theorem State.written_of_full {s : State} (rows : s.rowsLeft = 0) (column : s.width ≤ s.x) :
    s.area ≤ s.written := by
  have area := Nat.mul_comm s.width s.height
  simp only [State.written, State.area, rows, Nat.sub_zero]
  omega

theorem State.Listed.rasterFull {s : State} (listed : s.Listed) (rows : s.rowsLeft = 0)
    (column : s.width ≤ s.x) : s.RasterFull := by
  intro a inside
  obtain ⟨pixel, lane, split⟩ := State.byte_of_area inside
  obtain ⟨p, inRaster, index⟩ := State.exists_streamIndex pixel
  rw [split, ← index]
  exact listed p (inRaster.trans_le (State.written_of_full rows column)) _ lane

/-- A pixel is on the row `row`, which the loops decode as the `height - 1 - row`-th of a plane. -/
theorem State.LanesListed.has_lane {s : State} (listed : s.LanesListed) {i p : Nat} (pixel : i < s.area)
    (plane : p < 4) (past : ∀ k, k < s.height → ∀ c, c < s.width → s.planarPast p k c) :
    s.has (i * s.pb.toNat + planeOff p) := by
  have width : 0 < s.width := Nat.pos_of_mul_pos_right (Nat.zero_lt_of_lt pixel)
  have row := row_lt pixel
  have column := Nat.mod_lt i width
  have krow : s.height - 1 - i / s.width < s.height :=
    (Nat.sub_le _ _).trans_lt (Nat.sub_one_lt_of_lt row)
  have index : (s.height - 1 - (s.height - 1 - i / s.width)) * s.width + i % s.width = i := by
    rw [Nat.sub_sub_self (Nat.le_sub_one_of_lt row), Nat.div_add_mod']
  have lane := listed p plane _ krow _ column (past _ krow _ column)
  rwa [index] at lane

/-- The planes' lanes are all four lanes of a pixel (10_state.md R29). -/
theorem exists_planeOff {j : Nat} (h : j < 4) : ∃ p, p < 4 ∧ planeOff p = j := by
  refine ⟨3 - j, by omega, ?_⟩
  interval_cases j <;> rfl

theorem State.LanesListed.rasterFull {s : State} (listed : s.LanesListed) (pb : s.pb = .four)
    (last : s.planarDone = true) (krow : s.plane ≤ 3) (rowEnd : s.width ≤ s.col) : s.RasterFull := by
  intro a inside
  obtain ⟨pixel, lane, split⟩ := State.byte_of_area inside
  obtain ⟨p, plane, off⟩ := exists_planeOff (show a % s.pb.toNat < 4 by rw [pb] at lane ⊢; exact lane)
  obtain ⟨planes, rows⟩ := s.planarDone_iff.mp last
  rw [split, ← off]
  exact listed.has_lane pixel plane fun k hk c hc => by
    simp only [State.planarPast]
    omega

/-! ## The answers of a step -/

/-- Before its first line the scanline engine has passed no pixel. -/
theorem State.Fresh.written {s : State} (fresh : s.Fresh) : s.written = 0 := by
  obtain ⟨_, x, rowsLeft, _⟩ := fresh
  simp [State.written, x, rowsLeft]

theorem dispatch_raster {s t : State} {pb : PixelBytes} (fresh : s.Fresh) (eq : t = { s with
      pb := pb, dstW := s.dstR - s.dstL + 1, dstH := s.dstB - s.dstT + 1
      phase := enginePhase pb }) : t.RasterInv := by
  have written : t.written = 0 := by rw [eq]; exact fresh.written
  have cur : t.cur = 0 := by rw [eq]; exact fresh.1
  have phase : t.phase = enginePhase pb := by rw [eq]
  refine (State.rasterInv_iff phase).mpr ?_
  cases pb with
  | four => exact fun marked => absurd cur marked
  | _ => exact fun k hk => absurd hk (by rw [written]; exact Nat.not_lt_zero k)

/-- The lanes before the head of a row are listed where the loops were past them. -/
theorem State.LanesListed.atRow {s : State} (listed : s.LanesListed) {plane krow : Nat}
    (passed : ∀ p k c, k < s.height → c < s.width → p < plane ∨ p = plane ∧ k < krow →
      s.planarPast p k c) :
    { s with plane := plane, krow := krow, col := 0, run := 0 }.LanesListed := by
  intro p hp k row c column past
  simp only [State.planarPast, Nat.not_lt_zero, and_false, or_false] at past
  exact listed p hp k row c column (passed p k c row column past)

theorem planarNextRow_listed {s : State} (listed : s.LanesListed) (rowEnd : s.width ≤ s.col) :
    (planarNextRow s).LanesListed := by
  unfold planarNextRow
  split
  · exact listed.atRow fun p k c row column past => by
      simp only [State.planarPast]
      omega
  · exact listed.atRow fun p k c row column past => by
      simp only [State.planarPast]
      omega

/-- A control byte writes the lane of every column it passes and unlists no byte. -/
theorem RunKeeps.listed {u t : State} (keeps : RunKeeps u t) (listed : u.LanesListed) :
    t.LanesListed := by
  intro p plane k row c column past
  have width : t.width = u.width := by rw [keeps.same]; rfl
  have height : t.height = u.height := by rw [keeps.same]; rfl
  have pb : t.pb = u.pb := by rw [keeps.same]; rfl
  have samePlane := keeps.plane
  have sameRow := keeps.krow
  rw [height] at row
  rw [width] at column
  rw [height, width, pb]
  by_cases before : u.planarPast p k c
  · exact keeps.has _ (listed p plane k row c column before)
  · have here : p = u.plane ∧ k = u.krow ∧ u.col ≤ c ∧ c < t.col := by
      simp only [State.planarPast] at past before
      omega
    obtain ⟨rfl, rfl, from_, upTo⟩ := here
    exact keeps.passed c from_ upTo

/-- Settles O52: each answer of a step, phase by phase. -/
theorem stepKeepsRaster : Obligations.StepKeepsRaster := by
  intro s t inv raster next
  have inPhase := fun {p} (phase : s.phase = p) => ((State.inv_iff phase).mp inv).2
  have written := fun {p} (phase : s.phase = p) => (State.rasterInv_iff phase).mp raster
  cases InvStep.ofNext inv next with
  | idle _ eq =>
    rw [eq]
    unfold idleStep
    split
    · exact raster
    · exact (State.rasterInv_iff (p := .validate) rfl).mpr trivial
  | dispatch pb phase _ _ eq => exact dispatch_raster (inPhase phase) eq
  | order u phase past frame keeps =>
    obtain ⟨len, _, _, rfl⟩ := past
    have phase' : t.phase = .scan := by rw [frame.same]; exact phase
    exact (State.rasterInv_iff phase').mpr (keeps.listed (written phase))
  | scanned phase rows column eq =>
    have listed : s.Listed := written phase
    rw [eq]
    exact (State.rasterInv_iff (p := .normalize) rfl).mpr (listed.rasterFull rows column)
  | marker u phase first past eq =>
    have noLane : t.LanesListed := by
      intro p _ k _ c _ past'
      simp [State.planarPast, eq] at past'
    have phase' : t.phase = .planar := by
      obtain ⟨len, _, _, rfl⟩ := past
      rw [eq]
      exact phase
    exact (State.rasterInv_iff phase').mpr fun _ => noLane
  | run u phase marked past frame keeps =>
    obtain ⟨len, _, _, rfl⟩ := past
    have phase' : t.phase = .planar := by rw [keeps.same]; exact phase
    exact (State.rasterInv_iff phase').mpr fun _ => keeps.listed (written phase marked)
  | row phase marked rowEnd _ eq =>
    have listed := planarNextRow_listed (written phase marked) rowEnd
    have phase' : t.phase = .planar := by rw [eq, planarNextRow_same]; exact phase
    exact (State.rasterInv_iff phase').mpr fun _ => eq ▸ listed
  | decoded phase marked rowEnd last eq =>
    obtain ⟨_, _, pb, _, plane, _⟩ := inPhase phase
    have listed : s.LanesListed := written phase marked
    rw [eq]
    exact (State.rasterInv_iff (p := .normalize) rfl).mpr (listed.rasterFull pb last plane rowEnd)
  | normalized phase eq =>
    have full : s.RasterFull := written phase
    rw [eq]
    exact (State.rasterInv_iff (p := .done) rfl).mpr full
  | failed _ e phase => exact (State.rasterInv_iff phase).mpr trivial

end Sys2Proof.Machine
end

section
/-! What a step does to the phase and to the result registers (10_state.md R5, R34 .. R36), from the
inversion of a step of a call in progress. -/

namespace Sys2Proof.Machine

/-- `STATUS`, `ERR_POS`, `OUT_LEN` and the output buffer. -/
def State.results (s : State) : Status × Nat × Nat × Memory := (s.status, s.errPos, s.outLen, s.out)

/-- A step of a call in progress leaves the call in progress with its results as they were, ends it in
`DONE` from phase `NORMALIZE`, or ends it in a failure, which keeps `OUT`. -/
theorem BusyStep.results {s t : State} (h : BusyStep s t) :
    (t.phase = .done ∧ s.phase = .normalize) ∨
    (t.phase = .failed ∧ t.out = s.out ∧ t.outLen = 0 ∧ ∃ e, t.status = .error e) ∨
    (t.Busy ∧ t.results = s.results) := by
  cases h with
  | order u phase hu frame =>
    obtain ⟨len, _, _, rfl⟩ := hu
    have scan : t.phase = .scan := by rw [frame.same]; exact phase
    exact .inr (.inr ⟨.inr (.inl scan), by rw [frame.same]; rfl⟩)
  | run u phase hu frame =>
    obtain ⟨len, _, _, rfl⟩ := hu
    have planar : t.phase = .planar := by rw [frame.same]; exact phase
    exact .inr (.inr ⟨.inr (.inr (.inl planar)), by rw [frame.same]; rfl⟩)
  | row phase eq =>
    have planar : t.phase = .planar := by rw [eq, planarNextRow_same]; exact phase
    exact .inr (.inr ⟨.inr (.inr (.inl planar)), by rw [eq, planarNextRow_same]; rfl⟩)
  | engine _ eq => exact .inr (.inr ⟨.inr (.inr (.inr (by rw [eq]))), by rw [eq]; rfl⟩)
  | dispatch pb _ eq =>
    have engine : t.phase = enginePhase pb := by rw [eq]
    have busy : t.Busy := by
      rw [State.Busy, engine]
      cases pb <;> decide
    exact .inr (.inr ⟨busy, by rw [eq]; rfl⟩)
  | done phase eq => exact .inl ⟨by rw [eq], phase⟩
  | failed v e pos same mono bound eq =>
    have out := BusyStep.out_of_ne_done (.failed v e pos same mono bound eq)
      (by rw [eq]; exact Phase.noConfusion)
    exact .inr (.inl ⟨by rw [eq]; rfl, out, by rw [eq]; rfl, e, by rw [eq]; rfl⟩)

/-- The phase after a step of a call in progress, unless the call has failed. -/
theorem BusyStep.phase {s t : State} (h : BusyStep s t) :
    t.phase = .failed ∨ s.phase = .validate ∧ (t.phase = .scan ∨ t.phase = .planar) ∨
    (s.phase = .scan ∨ s.phase = .planar) ∧ (t.phase = s.phase ∨ t.phase = .normalize) ∨
    s.phase = .normalize ∧ t.phase = .done := by
  cases h with
  | order u phase hu frame =>
    obtain ⟨len, _, _, rfl⟩ := hu
    exact .inr (.inr (.inl ⟨.inl phase, .inl (by rw [frame.same]; rfl)⟩))
  | run u phase hu frame =>
    obtain ⟨len, _, _, rfl⟩ := hu
    exact .inr (.inr (.inl ⟨.inr phase, .inl (by rw [frame.same]; rfl)⟩))
  | row phase eq => exact .inr (.inr (.inl ⟨.inr phase, .inl (by rw [eq, planarNextRow_same]; rfl)⟩))
  | engine phase eq => exact .inr (.inr (.inl ⟨phase, .inr (by rw [eq])⟩))
  | dispatch pb phase eq =>
    have engine : t.phase = enginePhase pb := by rw [eq]
    exact .inr (.inl ⟨phase, by rw [engine]; cases pb <;> simp [enginePhase]⟩)
  | done phase eq => exact .inr (.inr (.inr ⟨phase, by rw [eq]⟩))
  | failed v e pos _ _ _ eq => exact .inl (by rw [eq]; rfl)

/-- A step with no call in progress. -/
theorem idle_next {s t : State} (idle : ¬ s.Busy) (next : step s = .next t) : t = idleStep s :=
  (Host.Outcome.next.inj ((step_idle idle).symm.trans next)).symm

/-- Settles O55: the phase after each answer of a step. -/
theorem phaseOrder : Obligations.PhaseOrder := by
  intro s t next
  refine ⟨fun idle => ?_, ?_, ?_, ?_, ?_⟩
  · rw [idle_next idle next, idleStep]
    split
    · exact .inr rfl
    · exact .inl rfl
  all_goals
    intro phase
    have moved := (busy_step (by simp [State.Busy, phase]) next).phase
    simp only [phase, reduceCtorEq, false_and, true_and, false_or, or_false] at moved
    tauto

/-- Settles O56: a step inside a call keeps the results, one that ends it writes them, and with no call in
progress only the start of the next call empties `OUT`. -/
theorem resultsAtEnd : Obligations.ResultsAtEnd := by
  intro s t next
  refine ⟨fun busy busy' => ?_, fun busy failed => ?_, fun idle => ?_⟩
  · rcases (busy_step busy next).results with ⟨phase, _⟩ | ⟨phase, _⟩ | ⟨_, kept⟩
    · simp [State.Busy, phase] at busy'
    · simp [State.Busy, phase] at busy'
    · simpa [State.results] using kept
  · rcases (busy_step busy next).results with ⟨phase, _⟩ | ⟨_, ended⟩ | ⟨inCall, _⟩
    · simp [phase] at failed
    · exact ended
    · simp [State.Busy, failed] at inCall
  · rw [idle_next idle next, idleStep]
    cases calls : s.calls with
    | nil => exact ⟨rfl, rfl, rfl, rfl⟩
    | cons c rest => exact ⟨rfl, rfl, rfl, rfl⟩

end Sys2Proof.Machine
end

section
/-! Every instruction as one of three shapes: a valid order of the scanline engine by its header opcode
(42_scanline_orders.md R104, R105), a reserved order (R112), a planar control byte (43_planar_engine.md
R132). -/

namespace Sys2Proof.Machine

/-- `OrderStart` by header opcode (42_scanline_orders.md R105). -/
def startOf : Nat → State → Eff Unit
  | 0 => startFill
  | 3 => startColour
  | 6 => startSetMix
  | 7 => startSetMix
  | 8 => startBicolour
  | 9 => startFixed 0x03
  | 0xA => startFixed 0x05
  | _ => startPlain

/-- A valid order runs its start and its body over its count, whatever its form. -/
theorem exec_order {i : Instr} {op : Nat} {e : EffOp} (opcode : headerOpcode i = some op)
    (valid : effOp op = some e) (s : State) :
    exec i s = inScan (runOrder (headerCount i) (startOf op) e) s := by
  cases i <;> cases opcode <;> cases valid <;> rfl

/-- A reserved order fails, whatever its form. -/
theorem exec_reserved {i : Instr} {op : Nat} (opcode : headerOpcode i = some op)
    (reserved : effOp op = none) (s : State) : exec i s = inScan unknownOrder s := by
  cases i with
  | reserved5 | reserved5M | reservedB | reservedC | reservedF => rfl
  | _ => cases opcode <;> cases reserved

/-- A planar control byte latches its two lengths and runs. -/
theorem exec_control {i : Instr} (place : i.ctx = .control) (s : State) :
    exec i s = inPlanar (fun s => runControl (s.latchRun (controlByte i))) s := by
  cases i with
  | long16 | long32 | raw => rfl
  | _ => cases place

theorem exec_marker (s : State) : exec .marker s = inPlanar (fun s => .ok () s.enterPlanes) s := rfl

theorem exists_headerOpcode {i : Instr} (place : i.ctx = .scan) : ∃ op, headerOpcode i = some op := by
  cases i with
  | marker | long16 | long32 | raw => cases place
  | _ => exact ⟨_, rfl⟩

theorem startOf_order (op : Nat) (s : State) : (startOf op s).Order s := by
  unfold startOf
  split
  · exact startFill_order s
  · exact startColour_order s
  · exact startSetMix_order s
  · exact startSetMix_order s
  · exact startBicolour_order s
  · exact startFixed_order _ s
  · exact startFixed_order _ s
  · exact startPlain_order s

/-- Settles O43: where the planar engine runs, the marker's meaning is the head of the loops. -/
theorem markerEntersPlanes : Obligations.MarkerEntersPlanes := fun _ phase pb => if_pos ⟨phase, pb⟩

theorem inScan_eq {run : State → Eff Unit} {s : State} (phase : s.phase = .scan) (pb : s.pb ≠ .four) :
    inScan run s = (run s).outcome := if_pos ⟨phase, pb⟩

theorem inPlanar_eq {run : State → Eff Unit} {s : State} (phase : s.phase = .planar)
    (pb : s.pb = .four) : inPlanar run s = (run s).outcome := if_pos ⟨phase, pb⟩

theorem exec_reserved_fails {i : Instr} {op : Nat} (opcode : headerOpcode i = some op)
    (reserved : effOp op = none) {s : State} (phase : s.phase = .scan) (pb : s.pb ≠ .four) :
    exec i s = .next (s.failEntry .unknownOpcode s.orderStart) := by
  rw [exec_reserved opcode reserved, inScan_eq phase pb]
  rfl

/-- Settles O38: each of the five rows has a header opcode without an effective one. -/
theorem reservedOrdersFail : Obligations.ReservedOrdersFail := by
  rintro i (⟨c, rfl⟩ | ⟨m, rfl⟩ | rfl | rfl | rfl) s phase pb
  all_goals exact exec_reserved_fails rfl rfl phase pb

/-- Settles O46: the overrun check comes before the run. -/
theorem planarOverruns : Obligations.PlanarOverruns := by
  intro i c r place lengths s phase pb pastEnd
  have latched : s.latchRun (controlByte i) = { s with collen := c, replen := r } := by
    rw [State.latchRun, lengths]
  rw [exec_control place, inPlanar_eq phase pb, latched, runControl, if_pos pastEnd]
  rfl

end Sys2Proof.Machine
end

section
/-! Every call ends (40_decode_call.md R89): a bound on the steps a call still takes, which every step of a
call in progress makes smaller. -/

namespace Sys2Proof.Machine

/-! ## The bound -/

/-- The rows the planar loops still have to finish, the current one among them. -/
def State.rowsToGo (s : State) : Nat := (3 - s.plane) * s.height + (s.height - s.krow)

/-- A bound on the steps a call in progress still takes: each byte of the stream starts at most one
instruction, each planar row ends in one step of its own, and the engine's other actions come once. -/
def State.stepsLeft (s : State) : Nat :=
  match s.phase with
  | .validate => s.inLen + 4 * s.height + 3
  | .scan => s.inLen - s.cur + 2
  | .planar =>
    if s.cur = 0 then s.inLen + 4 * s.height + 1 else s.inLen - s.cur + s.rowsToGo + 1
  | .normalize => 1
  | _ => 0

section
variable {s : State}

theorem State.stepsLeft_validate (phase : s.phase = .validate) :
    s.stepsLeft = s.inLen + 4 * s.height + 3 := by simp [State.stepsLeft, phase]

theorem State.stepsLeft_scan (phase : s.phase = .scan) : s.stepsLeft = s.inLen - s.cur + 2 := by
  simp [State.stepsLeft, phase]

theorem State.stepsLeft_marker (phase : s.phase = .planar) (first : s.cur = 0) :
    s.stepsLeft = s.inLen + 4 * s.height + 1 := by simp [State.stepsLeft, phase, first]

theorem State.stepsLeft_planar (phase : s.phase = .planar) (marked : s.cur ≠ 0) :
    s.stepsLeft = s.inLen - s.cur + s.rowsToGo + 1 := by simp [State.stepsLeft, phase, marked]

theorem State.stepsLeft_normalize (phase : s.phase = .normalize) : s.stepsLeft = 1 := by
  simp [State.stepsLeft, phase]

theorem State.stepsLeft_ended (ended : s.Ended) : s.stepsLeft = 0 := by
  rcases ended with phase | phase <;> simp [State.stepsLeft, phase]

theorem State.stepsLeft_pos (busy : s.Busy) : 0 < s.stepsLeft := by
  rcases busy with phase | phase | phase | phase
  · rw [State.stepsLeft_validate phase]; omega
  · rw [State.stepsLeft_scan phase]; omega
  · by_cases first : s.cur = 0
    · rw [State.stepsLeft_marker phase first]; omega
    · rw [State.stepsLeft_planar phase first]; omega
  · rw [State.stepsLeft_normalize phase]; omega

/-- Moving to the next row leaves one row less. -/
theorem planarNextRow_rowsToGo (krow : s.krow < s.height) (more : ¬ s.planarDone = true) :
    (planarNextRow s).rowsToGo + 1 = s.rowsToGo := by
  rw [State.planarDone_iff] at more
  unfold planarNextRow
  split
  · show (3 - s.plane) * s.height + (s.height - (s.krow + 1)) + 1 =
      (3 - s.plane) * s.height + (s.height - s.krow)
    omega
  · next rowsEnd =>
    have plane : 3 - s.plane = 3 - (s.plane + 1) + 1 := by omega
    show (3 - (s.plane + 1)) * s.height + (s.height - 0) + 1 =
      (3 - s.plane) * s.height + (s.height - s.krow)
    rw [plane, Nat.succ_mul]
    omega

end

theorem dispatch_stepsLeft {s t : State} {pb : PixelBytes} (phase : s.phase = .validate)
    (eq : t = { s with
      pb := pb, dstW := s.dstR - s.dstL + 1, dstH := s.dstB - s.dstT + 1
      phase := enginePhase pb }) (cur : s.cur = 0) : t.stepsLeft < s.stepsLeft := by
  have phase' : t.phase = enginePhase pb := by rw [eq]
  have cur' : t.cur = 0 := by rw [eq]; exact cur
  have inLen : t.inLen = s.inLen := by rw [eq]
  have height : t.height = s.height := by rw [eq]
  rw [State.stepsLeft_validate phase]
  cases pb with
  | four => rw [State.stepsLeft_marker phase' cur']; omega
  | _ => rw [State.stepsLeft_scan phase']; omega

/-- Every step of a call in progress brings its end nearer. -/
theorem InvStep.stepsLeft_lt {s t : State} (inv : s.Inv) (busy : s.Busy) (answer : InvStep s t) :
    t.stepsLeft < s.stepsLeft := by
  have inPhase := fun {p} (phase : s.phase = p) => ((State.inv_iff phase).mp inv).2
  cases answer with
  | idle idle _ => exact absurd busy idle
  | dispatch pb phase _ _ eq =>
    obtain ⟨cur, _⟩ := inPhase phase
    exact dispatch_stepsLeft phase eq cur
  | order u phase past frame keeps =>
    have read := past.cur
    have mono := frame.mono
    have inLen := frame.inLen.trans past.inLen
    obtain ⟨len, _, _, rfl⟩ := past
    have phase' : t.phase = .scan := by rw [frame.same]; exact phase
    rw [State.stepsLeft_scan phase, State.stepsLeft_scan phase']
    omega
  | scanned phase _ _ eq =>
    have phase' : t.phase = .normalize := by rw [eq]
    rw [State.stepsLeft_scan phase, State.stepsLeft_normalize phase']
    omega
  | marker u phase first past eq =>
    have read := past.cur
    have inLen := past.inLen
    have cur' : t.cur = u.cur := by rw [eq]; rfl
    have inLen' : t.inLen = u.inLen := by rw [eq]; rfl
    obtain ⟨len, _, _, rfl⟩ := past
    have phase' : t.phase = .planar := by rw [eq]; exact phase
    have rows : t.rowsToGo = 3 * s.height + s.height := by rw [eq]; rfl
    rw [State.stepsLeft_marker phase first, State.stepsLeft_planar phase' (by omega)]
    omega
  | run u phase marked past frame keeps =>
    have read := past.cur
    have mono := frame.mono
    have inLen := frame.inLen.trans past.inLen
    have plane := keeps.plane
    have krow := keeps.krow
    obtain ⟨len, _, _, rfl⟩ := past
    have phase' : t.phase = .planar := by rw [frame.same]; exact phase
    have height : t.height = s.height := by rw [frame.same]; rfl
    have rows : t.rowsToGo = s.rowsToGo := by
      simp only [State.rowsToGo, plane, krow, height]
      rfl
    rw [State.stepsLeft_planar phase marked, State.stepsLeft_planar phase' (by omega)]
    omega
  | row phase marked _ more eq =>
    obtain ⟨_, _, _, _, _, krow, _⟩ := inPhase phase
    have rows := planarNextRow_rowsToGo krow more
    have cur := planarNextRow_cur s
    have inLen := planarNextRow_inLen s
    have phase' : (planarNextRow s).phase = .planar := by rw [planarNextRow_same]; exact phase
    rw [eq, State.stepsLeft_planar phase marked, State.stepsLeft_planar phase' (by omega)]
    omega
  | decoded phase marked _ _ eq =>
    obtain ⟨_, _, _, _, _, krow, _⟩ := inPhase phase
    have phase' : t.phase = .normalize := by rw [eq]
    have rows : 0 < s.rowsToGo := by simp only [State.rowsToGo]; omega
    rw [State.stepsLeft_planar phase marked, State.stepsLeft_normalize phase']
    omega
  | normalized phase eq =>
    have ended : t.Ended := .inl (by rw [eq])
    rw [State.stepsLeft_ended ended]
    exact State.stepsLeft_pos busy
  | failed _ e phase =>
    rw [State.stepsLeft_ended (.inr phase)]
    exact State.stepsLeft_pos busy

/-! ## The run of a call -/

theorem core_run_succ {s t : State} (next : step s = .next t) (n : Nat) :
    Sys2Proof.core.run (n + 1) s = Sys2Proof.core.run n t := by
  have next' : Sys2Proof.core.step s = .next t := next
  simp only [Host.Core.run, next']

/-- A step of a call in progress leaves it in progress or ends it. -/
theorem BusyStep.busy_or_ended {s t : State} (h : BusyStep s t) : t.Busy ∨ t.Ended := by
  rcases h.results with ⟨phase, _⟩ | ⟨phase, _⟩ | ⟨busy, _⟩
  · exact .inr (.inl phase)
  · exact .inr (.inr phase)
  · exact .inl busy

theorem BusyStep.calls {s t : State} (h : BusyStep s t) : t.calls = s.calls := by
  have kept := h.latches
  simp only [State.latches, Prod.mk.injEq] at kept
  obtain ⟨_, _, _, calls⟩ := kept
  exact calls

/-- A call in progress ends within the bound. -/
theorem run_ends {s : State} (inv : s.Inv) (busy : s.Busy) :
    ∃ n t, n ≤ s.stepsLeft ∧ Sys2Proof.core.run n s = .next t ∧ t.Ended ∧ t.calls = s.calls := by
  induction bound : s.stepsLeft using Nat.strong_induction_on generalizing s with
  | _ m ih =>
    obtain ⟨u, next, answer⟩ := inv_step inv
    have moved := busy_step busy next
    have less := answer.stepsLeft_lt inv busy
    rcases moved.busy_or_ended with busy' | ended
    · obtain ⟨n, t, within, run, ended, calls⟩ :=
        ih u.stepsLeft (by omega) (stepKeepsInv s u inv next) busy' rfl
      exact ⟨n + 1, t, by omega, (core_run_succ next n).trans run, ended, calls.trans moved.calls⟩
    · exact ⟨1, u, by omega, core_run_succ next 0, ended, moved.calls⟩

/-- Settles O59: the start of a call gives the invariant, and from there the bound is `stepsLeft`. -/
theorem callTerminates : Obligations.CallTerminates := by
  intro s c rest idle calls
  have next := step_startCall idle calls
  obtain ⟨n, t, within, run, ended, calls'⟩ := run_ends (startCall_inv s c rest) (.inl rfl)
  have bound := State.stepsLeft_validate (s := { s.startCall c with calls := rest }) rfl
  refine ⟨n + 1, t, ?_, (core_run_succ next n).trans run, ended, calls'⟩
  have latched : n ≤ c.input.length + 4 * c.srcH.toNat + 3 := within.trans_eq bound
  omega

end Sys2Proof.Machine
end

section
/-! The outcome of a call is a function of its stream and descriptor (40_decode_call.md R90): no piece of an
engine reads the result registers, so two runs that differ in them go on alike until the call ends, which
writes all three. -/

namespace Sys2Proof.Machine

variable {α β : Type}

/-! ## Pieces that do not read the result registers -/

/-- The state with other values in `STATUS`, `ERR_POS` and `OUT_LEN`. -/
def State.withResults (s : State) (r : Status × Nat × Nat) : State :=
  { s with status := r.1, errPos := r.2.1, outLen := r.2.2 }

/-- The same answer with other result registers where it goes on; a failure has written them. -/
def Eff.withResults (r : Status × Nat × Nat) : Eff α → Eff α
  | .ok a s => .ok a (s.withResults r)
  | .failed s => .failed s
  | .fault f => .fault f

/-- A piece that does not read the result registers. -/
def Blind (k : State → Eff α) : Prop := ∀ s r, k (s.withResults r) = (k s).withResults r

theorem Blind.andThen {f : State → Eff α} {k : α → State → Eff β} (hf : Blind f)
    (hk : ∀ a, Blind (k a)) : Blind fun s => (f s).andThen k := by
  intro s r
  simp only [hf s r]
  cases f s with
  | ok a t => exact hk a t r
  | failed t => rfl
  | fault e => rfl

/-- A piece that only writes registers. -/
theorem blind_ok {a : State → α} {f : State → State} (ha : ∀ s r, a (s.withResults r) = a s)
    (hf : ∀ s r, f (s.withResults r) = (f s).withResults r) : Blind fun s => .ok (a s) (f s) := by
  intro s r
  simp only [ha, hf, Eff.withResults]

theorem blind_fault (e : Fault) : Blind fun _ => (Eff.fault e : Eff α) := fun _ _ => rfl

theorem blind_raise (e : Failure) : Blind fun s => (raise e s.orderStart s : Eff α) := fun _ _ => rfl

/-- A choice between two pieces by a test that does not read the result registers. -/
theorem Blind.ite {c : State → Prop} [DecidablePred c] {f g : State → Eff α}
    (hc : ∀ s r, c (s.withResults r) ↔ c s) (hf : Blind f) (hg : Blind g) :
    Blind fun s => if c s then f s else g s := by
  intro s r
  by_cases h : c s
  · simp only [h, (hc s r).mpr h, if_true, hf s r]
  · simp only [h, mt (hc s r).mp h, if_false, hg s r]

/-- A choice of the piece by a value that does not depend on the result registers. -/
theorem Blind.choose {γ : Type} {v : State → γ} {f : γ → State → Eff α}
    (hv : ∀ s r, v (s.withResults r) = v s) (hf : ∀ x, Blind (f x)) : Blind fun s => f (v s) s := by
  intro s r
  simp only [hv s r, hf (v s) s r]

/-! ## The shared operations -/

theorem readByte_blind : Blind readByte :=
  .ite (c := fun s => s.inLen ≤ s.cur) (fun _ _ => Iff.rfl) (blind_raise _)
    (blind_ok (fun _ _ => rfl) fun _ _ => rfl)

theorem readPixel_blind : Blind readPixel := by
  intro s r
  have pb : (s.withResults r).pb = s.pb := rfl
  rw [readPixel, readPixel, pb]
  cases s.pb with
  | two =>
    exact Blind.andThen readByte_blind (fun _ => Blind.andThen readByte_blind fun _ =>
      blind_ok (fun _ _ => rfl) fun _ _ => rfl) s r
  | three =>
    exact Blind.andThen readByte_blind (fun _ => Blind.andThen readByte_blind fun _ =>
      Blind.andThen readByte_blind fun _ => blind_ok (fun _ _ => rfl) fun _ _ => rfl) s r
  | four => rfl

theorem memRead_blind (i : Nat) : Blind (memRead i) :=
  .ite (c := fun s => i < s.area) (fun _ _ => Iff.rfl) (blind_ok (fun _ _ => rfl) fun _ _ => rfl)
    (blind_fault _)

theorem memWrite_blind (i : Nat) (v : Pixel) : Blind (memWrite i v) :=
  .ite (c := fun s => i < s.area) (fun _ _ => Iff.rfl) (blind_ok (fun _ _ => rfl) fun _ _ => rfl)
    (blind_fault _)

theorem memReadLane_blind (i k : Nat) : Blind (memReadLane i k) :=
  .ite (c := fun s => i < s.area) (fun _ _ => Iff.rfl) (blind_ok (fun _ _ => rfl) fun _ _ => rfl)
    (blind_fault _)

theorem memWriteLane_blind (i k : Nat) (b : Byte) : Blind (memWriteLane i k b) :=
  .ite (c := fun s => i < s.area) (fun _ _ => Iff.rfl) (blind_ok (fun _ _ => rfl) fun _ _ => rfl)
    (blind_fault _)

theorem slot_blind : Blind slot :=
  .ite (c := fun s => s.width ≤ s.x) (fun _ _ => Iff.rfl)
    (.ite (c := fun s => s.rowsLeft = 0) (fun _ _ => Iff.rfl) (blind_raise _)
      (blind_ok (fun _ _ => rfl) fun _ _ => rfl))
    (blind_ok (fun _ _ => rfl) fun _ _ => rfl)

theorem putPixel_blind (v : Pixel) : Blind (putPixel v) :=
  .choose (v := State.line)
    (f := fun line s => match line with
      | none => .fault .noCurrentLine
      | some l => (memWrite (l * s.width + s.x) v s).andThen fun _ s => .ok () s.nextColumn)
    (fun _ _ => rfl) fun line => match line with
      | none => blind_fault _
      | some l => .andThen
          (.choose (v := fun s => l * s.width + s.x) (fun _ _ => rfl) fun i => memWrite_blind i v)
          fun _ => blind_ok (fun _ _ => rfl) fun _ _ => rfl

theorem above_blind : Blind above :=
  .choose (v := State.prevLine)
    (f := fun line s => match line with
      | none => .ok none s
      | some l => (memRead (l * s.width + s.x) s).andThen fun p s => .ok (some p) s)
    (fun _ _ => rfl) fun line => match line with
      | none => blind_ok (fun _ _ => rfl) fun _ _ => rfl
      | some l => .andThen
          (.choose (v := fun s => l * s.width + s.x) (fun _ _ => rfl) fun i => memRead_blind i)
          fun _ => blind_ok (fun _ _ => rfl) fun _ _ => rfl

/-! ## The scanline engine -/

theorem fillPix_blind : Blind fillPix :=
  above_blind.andThen fun _ => blind_ok (fun _ _ => rfl) fun _ _ => rfl

theorem mixPix_blind : Blind mixPix :=
  above_blind.andThen fun a => match a with
    | none => blind_ok (fun _ _ => rfl) fun _ _ => rfl
    | some _ => blind_ok (fun _ _ => rfl) fun _ _ => rfl

theorem nextMaskBit_blind : Blind nextMaskBit :=
  .ite (c := fun s => shiftCursor s.mixMask = 0) (fun _ _ => Iff.rfl)
    (.choose (v := State.fixed)
      (f := fun fixed s => match fixed with
        | some m => .ok () { s with mixMask := 0x01, mask := m }
        | none => (readByte { s with mixMask := 0 }).andThen fun b s =>
            .ok () { s with mixMask := 0x01, mask := b })
      (fun _ _ => rfl) fun fixed => match fixed with
        | some _ => blind_ok (fun _ _ => rfl) fun _ _ => rfl
        | none => .andThen (fun s r => readByte_blind { s with mixMask := 0 } r)
            fun _ => blind_ok (fun _ _ => rfl) fun _ _ => rfl)
    (blind_ok (fun _ _ => rfl) fun _ _ => rfl)

theorem fillSource_blind : Blind fillSource :=
  .ite (c := fun s => s.insert = true) (fun _ _ => Iff.rfl)
    (mixPix_blind.andThen fun _ => blind_ok (fun _ _ => rfl) fun _ _ => rfl) fillPix_blind

theorem fomPixel_blind : Blind fomPixel :=
  nextMaskBit_blind.andThen fun _ =>
    .ite (c := fun s => maskBit s.mask s.mixMask = true) (fun _ _ => Iff.rfl) mixPix_blind fillPix_blind

theorem emit_blind {source : State → Eff Pixel} (h : Blind source) : Blind (emit source) :=
  slot_blind.andThen fun _ => h.andThen fun v => (putPixel_blind v).andThen fun _ =>
    blind_ok (fun _ _ => rfl) fun _ _ => rfl

theorem bicolourTurn_blind : Blind bicolourTurn :=
  slot_blind.andThen fun _ =>
    .choose (v := State.toggle)
      (f := fun toggle s => match toggle with
        | .second => (putPixel s.colour2 s).andThen fun _ s =>
            .ok () { s.countDown with toggle := nextToggle .second }
        | .first => (putPixel s.colour1 s).andThen fun _ s =>
            .ok () { s with toggle := nextToggle .first })
      (fun _ _ => rfl) fun toggle => match toggle with
        | .second => .andThen (.choose (v := State.colour2) (fun _ _ => rfl) putPixel_blind)
            fun _ => blind_ok (fun _ _ => rfl) fun _ _ => rfl
        | .first => .andThen (.choose (v := State.colour1) (fun _ _ => rfl) putPixel_blind)
            fun _ => blind_ok (fun _ _ => rfl) fun _ _ => rfl

theorem bodyTurn_blind (op : EffOp) : Blind (bodyTurn op) := by
  cases op with
  | fill => exact emit_blind fillSource_blind
  | mix => exact emit_blind mixPix_blind
  | fom => exact emit_blind fomPixel_blind
  | colour => exact emit_blind (blind_ok (fun _ _ => rfl) fun _ _ => rfl)
  | copy => exact emit_blind readPixel_blind
  | bicolour => exact bicolourTurn_blind
  | white => exact emit_blind (blind_ok (fun _ _ => rfl) fun _ _ => rfl)
  | black => exact emit_blind (blind_ok (fun _ _ => rfl) fun _ _ => rfl)

theorem bodyLoop_blind {turn : State → Eff Unit} (h : Blind turn) (fuel : Nat) :
    Blind (bodyLoop turn fuel) := by
  induction fuel with
  | zero => exact blind_ok (fun _ _ => rfl) fun _ _ => rfl
  | succ fuel ih =>
    exact .ite (c := fun s => s.count = 0) (fun _ _ => Iff.rfl)
      (blind_ok (fun _ _ => rfl) fun _ _ => rfl) (h.andThen fun _ => ih)

theorem orderBody_blind : Blind orderBody :=
  .choose (v := fun s => (s.op, 2 * s.count)) (f := fun v => bodyLoop (bodyTurn v.1) v.2)
    (fun _ _ => rfl) fun v => bodyLoop_blind (bodyTurn_blind v.1) v.2

theorem startOf_blind (op : Nat) : Blind (startOf op) := by
  have writes : ∀ {f : State → State}, (∀ s r, f (s.withResults r) = (f s).withResults r) →
      Blind fun s => Eff.ok () (f s) := fun h => blind_ok (fun _ _ => rfl) h
  have setMix : Blind startSetMix := readPixel_blind.andThen fun p => writes fun _ _ => rfl
  unfold startOf
  split
  · exact writes fun _ _ => rfl
  · exact readPixel_blind.andThen fun p => writes fun _ _ => rfl
  · exact setMix
  · exact setMix
  · exact readPixel_blind.andThen fun p =>
      .andThen (fun s r => readPixel_blind { s with colour1 := p } r) fun q => writes fun _ _ => rfl
  · exact writes fun _ _ => rfl
  · exact writes fun _ _ => rfl
  · exact writes fun _ _ => rfl

theorem runOrder_blind (n op : Nat) (e : EffOp) : Blind (runOrder n (startOf op) e) :=
  .andThen (fun s r => startOf_blind op (s.beginOrder n) r) fun _ s r => orderBody_blind (s.latchOp e) r

/-! ## The planar engine -/

theorem putLane_blind (b : Byte) : Blind (putLane b) :=
  .andThen (.choose (v := fun s => (s.planarIndex, s.planarLane))
      (f := fun v => memWriteLane v.1 v.2 b) (fun _ _ => rfl) fun v => memWriteLane_blind v.1 v.2 b)
    fun _ => blind_ok (fun _ _ => rfl) fun _ _ => rfl

theorem putDelta_blind : Blind putDelta :=
  .andThen (.choose (v := fun s => (s.planarUpIndex, s.planarLane))
      (f := fun v => memReadLane v.1 v.2) (fun _ _ => rfl) fun v => memReadLane_blind v.1 v.2)
    fun a => .choose (v := fun s => addDelta a s.run) (fun _ _ => rfl) putLane_blind

theorem repeatTimes_blind {turn : State → Eff Unit} (h : Blind turn) (n : Nat) :
    Blind (repeatTimes turn n) := by
  induction n with
  | zero => exact blind_ok (fun _ _ => rfl) fun _ _ => rfl
  | succ n ih => exact h.andThen fun _ => ih

/-- A run: its data turns, then its repeats. -/
theorem run_blind {turn again : State → Eff Unit} (ht : Blind turn) (ha : Blind again) :
    Blind fun s => (repeatTimes turn s.collen s).andThen fun _ s => repeatTimes again s.replen s :=
  .andThen (.choose (v := State.collen) (fun _ _ => rfl) (repeatTimes_blind ht))
    fun _ => .choose (v := State.replen) (fun _ _ => rfl) (repeatTimes_blind ha)

theorem literalRun_blind : Blind literalRun :=
  run_blind
    (readByte_blind.andThen fun b s r => putLane_blind b (s.setRun b.toNat) r)
    (.choose (v := fun s => BitVec.ofInt 8 s.run) (fun _ _ => rfl) putLane_blind)

theorem deltaRun_blind : Blind deltaRun :=
  run_blind (readByte_blind.andThen fun b s r => putDelta_blind (s.setRun (deltaValue b)) r)
    putDelta_blind

theorem runControl_blind : Blind runControl :=
  .ite (c := fun s => s.width < s.col + s.collen + s.replen) (fun _ _ => Iff.rfl) (blind_raise _)
    (.ite (c := fun s => s.krow = 0) (fun _ _ => Iff.rfl) literalRun_blind deltaRun_blind)

/-! ## A step of the engines -/

/-- What two steps that differ in the result registers answer: the same ended call, or a call in progress
that differs in those registers as before. -/
def Alongside (r : Status × Nat × Nat) (t t' : State) : Prop :=
  t.Ended ∧ t' = t ∨ t.Busy ∧ t' = t.withResults r

/-- A blind piece keeps the two steps together where it goes on within the call and its failures end it. -/
theorem Blind.outcome {run : State → Eff α} (blind : Blind run) {s t : State} {r : Status × Nat × Nat}
    {X : Prop} (sat : (run s).Sat X State.Busy State.Ended) (next : (run s).outcome = .next t) :
    ∃ t', (run (s.withResults r)).outcome = .next t' ∧ Alongside r t t' := by
  rw [blind s r]
  cases h : run s with
  | ok a u =>
    simp only [h, Eff.outcome_ok, Host.Outcome.next.injEq] at next
    have busy : u.Busy := by rw [h] at sat; exact sat
    exact ⟨u.withResults r, rfl, .inr ⟨next ▸ busy, next ▸ rfl⟩⟩
  | failed u =>
    simp only [h, Eff.outcome_failed, Host.Outcome.next.injEq] at next
    have ended : u.Ended := by rw [h] at sat; exact sat
    exact ⟨u, rfl, .inl ⟨next ▸ ended, next⟩⟩
  | fault e => simp [h] at next

theorem OrderFrame.phase {s t : State} (h : OrderFrame s t) : t.phase = s.phase := by
  rw [h.same]; rfl

theorem PlanarFrame.phase {s t : State} (h : PlanarFrame s t) : t.phase = s.phase := by
  rw [h.same]; rfl

/-- The meaning of every instruction reads no result register. -/
theorem exec_alongside {i : Instr} {s t : State} {r : Status × Nat × Nat} (next : exec i s = .next t) :
    ∃ t', exec i (s.withResults r) = .next t' ∧ Alongside r t t' := by
  have scan : ∀ {run : State → Eff Unit}, Blind run → (run s).Order s → inScan run s = .next t →
      ∃ t', inScan run (s.withResults r) = .next t' ∧ Alongside r t t' := by
    intro run blind order next
    obtain ⟨phase, pb, next⟩ := inScan_next next
    rw [inScan_eq (s := s.withResults r) phase pb]
    refine blind.outcome (order.mono (fun u frame => ?_) fun u failed => ?_) next
    · exact .inr (.inl (frame.phase.trans phase))
    · obtain ⟨v, e, _, rfl⟩ := failed
      exact .inr rfl
  have planar : ∀ {run : State → Eff Unit}, Blind run → (run s).Planar s → inPlanar run s = .next t →
      ∃ t', inPlanar run (s.withResults r) = .next t' ∧ Alongside r t t' := by
    intro run blind planar next
    obtain ⟨phase, pb, next⟩ := inPlanar_next next
    rw [inPlanar_eq (s := s.withResults r) phase pb]
    refine blind.outcome (planar.mono (fun u frame => ?_) fun u failed => ?_) next
    · exact .inr (.inr (.inl (frame.phase.trans phase)))
    · obtain ⟨v, e, _, rfl⟩ := failed
      exact .inr rfl
  cases place : i.ctx with
  | scan =>
    obtain ⟨op, opcode⟩ := exists_headerOpcode place
    cases valid : effOp op with
    | some e =>
      simp only [exec_order opcode valid] at next ⊢
      exact scan (runOrder_blind _ op e) (runOrder_order (startOf_order op) _ e s) next
    | none =>
      simp only [exec_reserved opcode valid] at next ⊢
      exact scan (blind_raise _) (unknownOrder_order s) next
  | marker =>
    rw [Instr.eq_marker place, exec_marker] at next ⊢
    exact planar (blind_ok (fun _ _ => rfl) fun _ _ => rfl) (.ok _ rfl rfl) next
  | control =>
    simp only [exec_control place] at next ⊢
    exact planar (run := fun s => runControl (s.latchRun (controlByte i)))
      (fun s r => runControl_blind (s.latchRun (controlByte i)) r)
      (runControl_planar _ s) next

theorem fetch_alongside {c : Ctx} {s t : State} {r : Status × Nat × Nat} (due : s.action = .fetch c)
    (next : step s = .next t) : ∃ t', step (s.withResults r) = .next t' ∧ Alongside r t t' := by
  have due' : (s.withResults r).action = .fetch c := due
  have bytes : (s.withResults r).headerBytes = s.headerBytes := rfl
  cases header : decode c s.headerBytes with
  | instr i len =>
    have past : (s.withResults r).startOrder.advance len = (s.startOrder.advance len).withResults r := rfl
    rw [step_instr due header] at next
    rw [step_instr due' (bytes.symm ▸ header), past]
    exact exec_alongside next
  | error e =>
    cases e with
    | truncated =>
      rw [step_truncated due header, Host.Outcome.next.injEq] at next
      exact ⟨t, (step_truncated due' (bytes.symm ▸ header)).trans (congrArg _ next), .inl ⟨next ▸ .inr rfl, rfl⟩⟩
    | badMarker b =>
      rw [step_badMarker due header, Host.Outcome.next.injEq] at next
      exact ⟨t, (step_badMarker due' (bytes.symm ▸ header)).trans (congrArg _ next), .inl ⟨next ▸ .inr rfl, rfl⟩⟩

theorem normalized_withResults (s : State) (r : Status × Nat × Nat) (n : Nat) :
    (s.withResults r).normalized n = s.normalized n := by
  induction n with
  | zero => rfl
  | succ n ih =>
    simp only [State.normalized, ih]
    rfl

theorem scanComplete_alongside {s : State} (r : Status × Nat × Nat) :
    Alongside r (scanComplete s) (scanComplete (s.withResults r)) := by
  by_cases full : s.rowsLeft = 0 ∧ s.width ≤ s.x
  · rw [scanComplete_full full, scanComplete_full (s := s.withResults r) full]
    exact .inr ⟨.inr (.inr (.inr rfl)), rfl⟩
  · rw [scanComplete_short full, scanComplete_short (s := s.withResults r) full]
    exact .inl ⟨.inr rfl, rfl⟩

theorem planarComplete_alongside {s : State} (r : Status × Nat × Nat) :
    Alongside r (planarComplete s) (planarComplete (s.withResults r)) := by
  by_cases whole : s.cur = s.inLen
  · rw [planarComplete_whole whole, planarComplete_whole (s := s.withResults r) whole]
    exact .inr ⟨.inr (.inr (.inr rfl)), rfl⟩
  · rw [planarComplete_mismatch whole, planarComplete_mismatch (s := s.withResults r) whole]
    exact .inl ⟨.inr rfl, rfl⟩

theorem planarNextRow_alongside {s : State} (phase : s.phase = .planar) (r : Status × Nat × Nat) :
    Alongside r (planarNextRow s) (planarNextRow (s.withResults r)) := by
  have busy : (planarNextRow s).Busy := by
    rw [planarNextRow_same]
    exact .inr (.inr (.inl phase))
  refine .inr ⟨busy, ?_⟩
  by_cases row : s.krow + 1 < s.height
  · rw [planarNextRow_inPlane row, planarNextRow_inPlane (s := s.withResults r) row]
    rfl
  · rw [planarNextRow_newPlane row, planarNextRow_newPlane (s := s.withResults r) row]
    rfl

/-- The end of a call writes all three result registers. -/
theorem normalizeStep_alongside {s : State} (r : Status × Nat × Nat) :
    Alongside r (normalizeStep s) (normalizeStep (s.withResults r)) := by
  by_cases large : s.srcW < s.dstW ∨ s.srcH < s.dstH
  · rw [normalizeStep_oversize large, normalizeStep_oversize (s := s.withResults r) large]
    exact .inl ⟨.inr rfl, rfl⟩
  · have columns : s.dstW ≤ s.srcW := by omega
    have rows : s.dstH ≤ s.srcH := by omega
    rw [normalizeStep_done columns rows, normalizeStep_done (s := s.withResults r) columns rows,
      normalized_withResults]
    exact .inl ⟨.inl rfl, rfl⟩

/-- Two states of the engines that differ in the result registers step alongside. -/
theorem step_alongside {s t : State} {r : Status × Nat × Nat} (busy : s.Busy)
    (late : s.phase ≠ .validate) (next : step s = .next t) :
    ∃ t', step (s.withResults r) = .next t' ∧ Alongside r t t' := by
  have answers : ∀ {f : State → State}, step s = .next (f s) →
      step (s.withResults r) = .next (f (s.withResults r)) → Alongside r (f s) (f (s.withResults r)) →
      ∃ t', step (s.withResults r) = .next t' ∧ Alongside r t t' := by
    intro f here there along
    have eq : f s = t := Host.Outcome.next.inj (here.symm.trans next)
    exact ⟨_, there, eq ▸ along⟩
  rcases busy with phase | phase | phase | phase
  · exact absurd phase late
  · by_cases more : s.cur < s.inLen
    · exact fetch_alongside ((s.action_fetch_iff .scan).mpr (.inl ⟨phase, more, rfl⟩)) next
    · have atEnd : s.inLen ≤ s.cur := by omega
      exact answers (step_scanComplete phase atEnd)
        (step_scanComplete (s := s.withResults r) phase atEnd) (scanComplete_alongside r)
  · by_cases first : s.cur = 0
    · exact fetch_alongside ((s.action_fetch_iff .marker).mpr (.inr (.inl ⟨phase, first, rfl⟩))) next
    · by_cases inRow : s.col < s.width
      · exact fetch_alongside
          ((s.action_fetch_iff .control).mpr (.inr (.inr ⟨phase, first, inRow, rfl⟩))) next
      · have rowEnd : s.width ≤ s.col := by omega
        by_cases last : s.planarDone = true
        · exact answers (step_planarComplete phase first rowEnd last)
            (step_planarComplete (s := s.withResults r) phase first rowEnd last)
            (planarComplete_alongside r)
        · exact answers (step_planarNextRow phase first rowEnd last)
            (step_planarNextRow (s := s.withResults r) phase first rowEnd last)
            (planarNextRow_alongside phase r)
  · exact answers (step_normalize phase) (step_normalize (s := s.withResults r) phase)
      (normalizeStep_alongside r)

/-! ## Two runs of one call -/

/-- The registers that hold values of earlier calls until `VALIDATE` or the end of the call writes them. -/
def State.withEarlier (s : State) (pb : PixelBytes) (dstW dstH : Int) (r : Status × Nat × Nat) : State :=
  { s with pb := pb, dstW := dstW, dstH := dstH }.withResults r

/-- Two states of one call, with no other call to make: about to validate, in the engines, or ended alike. -/
inductive OneCall (t t' : State) : Prop where
  | validate (pb : PixelBytes) (dstW dstH : Int) (r : Status × Nat × Nat) (phase : t.phase = .validate)
      (eq : t' = t.withEarlier pb dstW dstH r)
  | engines (r : Status × Nat × Nat) (busy : t.Busy) (late : t.phase ≠ .validate)
      (eq : t' = t.withResults r)
  | ended (ended : t.Ended) (ended' : t'.Ended) (calls' : t'.calls = [])
      (result : t'.callResult = t.callResult)

theorem Alongside.oneCall {r : Status × Nat × Nat} {t t' : State} (h : Alongside r t t')
    (calls : t.calls = []) (late : t.phase ≠ .validate) : OneCall t t' := by
  rcases h with ⟨ended, eq⟩ | ⟨busy, eq⟩
  · exact .ended ended (eq ▸ ended) (eq ▸ calls) (eq ▸ rfl)
  · exact .engines r busy late eq

/-- The pre-check and the depth do not depend on earlier calls, and the dispatch writes the rest. -/
theorem validateStep_oneCall {s : State} (calls : s.calls = []) (pb : PixelBytes) (dstW dstH : Int)
    (r : Status × Nat × Nat) :
    OneCall (validateStep s) (validateStep (s.withEarlier pb dstW dstH r)) := by
  have fails : ∀ e, OneCall (s.failEntry e 0) ((s.withEarlier pb dstW dstH r).failEntry e 0) :=
    fun e => .ended (.inr rfl) (.inr rfl) calls rfl
  by_cases geometry : s.geometryOk = true
  · cases depth : pixelBytesOf s.bpp with
    | none =>
      rw [validateStep_badDepth geometry depth,
        validateStep_badDepth (s := s.withEarlier pb dstW dstH r) geometry depth]
      exact fails _
    | some width =>
      have here := validateStep_dispatch geometry depth
      have there := validateStep_dispatch (s := s.withEarlier pb dstW dstH r) geometry depth
      rw [here, there]
      refine .engines r ?_ ?_ rfl
      · cases width <;> simp [State.Busy, enginePhase]
      · cases width <;> simp [enginePhase]
  · rw [validateStep_badGeometry geometry,
      validateStep_badGeometry (s := s.withEarlier pb dstW dstH r) geometry]
    exact fails _

theorem step_calls_nil {s t : State} (calls : s.calls = []) (next : step s = .next t) : t.calls = [] := by
  by_cases busy : s.Busy
  · exact (busy_step busy next).calls.trans calls
  · rw [idle_next busy next, idleStep, calls]
    exact calls

theorem State.Ended.not_busy {s : State} (h : s.Ended) : ¬ s.Busy := by
  rcases h with phase | phase <;> simp [State.Busy, phase]

/-- A step keeps two states of one call together. -/
theorem OneCall.step {s s' t : State} (h : OneCall s s') (calls : s.calls = [])
    (next : step s = .next t) : ∃ t', Machine.step s' = .next t' ∧ OneCall t t' := by
  have calls' := step_calls_nil calls next
  cases h with
  | validate pb dstW dstH r phase eq =>
    have here : validateStep s = t := Host.Outcome.next.inj ((step_validate phase).symm.trans next)
    rw [eq]
    exact ⟨_, step_validate (s := s.withEarlier pb dstW dstH r) phase,
      here ▸ validateStep_oneCall calls pb dstW dstH r⟩
  | engines r busy late eq =>
    obtain ⟨t', next', along⟩ := step_alongside (r := r) busy late next
    have late' : t.phase ≠ .validate := by
      have moved := (busy_step busy next).phase
      intro again
      simp only [again, reduceCtorEq, false_or, or_false, and_false] at moved
      exact late moved.2.symm
    exact ⟨t', eq ▸ next', along.oneCall calls' late'⟩
  | ended ended ended' stays result =>
    have here := Host.Outcome.next.inj ((idleStays s ended.not_busy calls).symm.trans next)
    exact ⟨s', idleStays s' ended'.not_busy stays, here ▸ .ended ended ended' stays result⟩

/-- A run that goes on has its first step. -/
theorem core_run_succ_next {s t : State} {n : Nat} (h : Sys2Proof.core.run (n + 1) s = .next t) :
    ∃ u, step s = .next u ∧ Sys2Proof.core.run n u = .next t := by
  cases next : step s with
  | next u => exact ⟨u, rfl, (core_run_succ next n).symm.trans h⟩
  | fault e =>
    have next' : Sys2Proof.core.step s = .fault e := next
    simp [Host.Core.run, next'] at h
  | refused e =>
    have next' : Sys2Proof.core.step s = .refused e := next
    simp [Host.Core.run, next'] at h

theorem OneCall.run {s s' t : State} {n : Nat} (h : OneCall s s') (calls : s.calls = [])
    (next : Sys2Proof.core.run n s = .next t) :
    ∃ t', Sys2Proof.core.run n s' = .next t' ∧ OneCall t t' := by
  induction n generalizing s s' with
  | zero =>
    have here : s = t := Host.Outcome.next.inj next
    exact ⟨s', rfl, here ▸ h⟩
  | succ n ih =>
    obtain ⟨u, first, rest⟩ := core_run_succ_next next
    obtain ⟨u', first', together⟩ := h.step calls first
    obtain ⟨t', rest', together'⟩ := ih together (step_calls_nil calls first) rest
    exact ⟨t', (core_run_succ first' n).trans rest', together'⟩

/-- Settles O60: the two started calls differ only in what earlier calls left. -/
theorem outcomeFunctionOfCall : Obligations.OutcomeFunctionOfCall := by
  intro s s' c n t idle idle' calls calls' some_ next ended
  obtain ⟨m, rfl⟩ : ∃ m, n = m + 1 := ⟨n - 1, by omega⟩
  have start := step_startCall idle calls
  have start' := step_startCall idle' calls'
  rw [core_run_succ start] at next
  have together : OneCall { s.startCall c with calls := [] } { s'.startCall c with calls := [] } :=
    .validate s'.pb s'.dstW s'.dstH (s'.status, s'.errPos, s'.outLen) rfl rfl
  obtain ⟨t', next', together'⟩ := together.run rfl next
  refine ⟨t', (core_run_succ start' m).trans next', ?_⟩
  cases together' with
  | validate _ _ _ _ phase _ => exact absurd (.inl phase) ended.not_busy
  | engines _ busy _ _ => exact absurd busy ended.not_busy
  | ended _ ended' _ result => exact ⟨ended', result⟩

end Sys2Proof.Machine
end

section
/-! Decode and encode agree (30_encoding.md sections 1 and 2): each header form as one constructor family
over its opcode field, what its decoder answers, and both directions for every instruction. -/

namespace Sys2Proof.Machine

/-! ## The opcode fields -/

/-- The instruction of a regular header with opcode `op` (30_encoding.md R71). -/
def regularOf (op : BitVec 3) : CountField 5 → Instr :=
  if op = 0 then .fill
  else if op = 1 then .mix
  else if op = 2 then .fom
  else if op = 3 then .colour
  else if op = 4 then .copy
  else .reserved5

/-- The instruction of a lite header with top nibble `top` (30_encoding.md R71). -/
def liteOf (top : BitVec 4) : CountField 4 → Instr :=
  if top = 0xC then .setmixMix
  else if top = 0xD then .setmixFom
  else .bicolour

/-- The instruction of a mega header with opcode `op` (30_encoding.md R71). -/
def megaOf (op : BitVec 4) : Word16 → Instr :=
  if op = 0 then .fillM
  else if op = 1 then .mixM
  else if op = 2 then .fomM
  else if op = 3 then .colourM
  else if op = 4 then .copyM
  else if op = 5 then .reserved5M
  else if op = 6 then .setmixMixM
  else if op = 7 then .setmixFomM
  else .bicolourM

/-- The instruction of a special header with opcode `op` (30_encoding.md R71). -/
def specialOf (op : BitVec 4) : Instr :=
  if op = 0x9 then .fomS1
  else if op = 0xA then .fomS2
  else if op = 0xB then .reservedB
  else if op = 0xC then .reservedC
  else if op = 0xD then .white
  else if op = 0xE then .black
  else .reservedF

/-- The instruction of a planar control byte with high nibble `c` and low nibble `r` (30_encoding.md R76). -/
def controlOf (c r : BitVec 4) : Instr :=
  if r = 1 then .long16 c else if r = 2 then .long32 c else .raw c r

theorem decodeRegular_eq (code : Byte) (rest : List Byte) :
    decodeRegular code rest =
      decodeCounted (code.extractLsb' 0 5) rest (regularOf (code.extractLsb' 5 3)) := by
  simp only [decodeRegular, regularOf]
  split_ifs <;> rfl

theorem decodeLite_eq (code : Byte) (rest : List Byte) :
    decodeLite code rest = decodeCounted (lowNibble code) rest (liteOf (highNibble code)) := by
  simp only [decodeLite, liteOf]
  split_ifs <;> rfl

theorem decodeMegaForm_eq (code : Byte) (rest : List Byte) :
    decodeMegaForm code rest = decodeMega rest (megaOf (lowNibble code)) := by
  simp only [decodeMegaForm, megaOf]
  split_ifs <;> rfl

theorem decodeSpecial_eq (code : Byte) :
    decodeSpecial code = .instr (specialOf (lowNibble code)) 1 := by
  simp only [decodeSpecial, specialOf]
  split_ifs <;> rfl

theorem decodeControl_eq (code : Byte) (rest : List Byte) :
    decodeControl (code :: rest) = .instr (controlOf (highNibble code) (lowNibble code)) 1 := by
  simp only [decodeControl, controlOf]
  split_ifs <;> rfl

theorem regularOf_wf (op : BitVec 3) (c : CountField 5) : (regularOf op c).wf = c.wf := by
  unfold regularOf
  split_ifs <;> rfl

theorem liteOf_wf (top : BitVec 4) (c : CountField 4) : (liteOf top c).wf = c.wf := by
  unfold liteOf
  split_ifs <;> rfl

theorem megaOf_wf (op : BitVec 4) (n : Word16) : (megaOf op n).wf = true := by
  unfold megaOf
  split_ifs <;> rfl

theorem specialOf_wf (op : BitVec 4) : (specialOf op).wf = true := by
  unfold specialOf
  split_ifs <;> rfl

theorem controlOf_wf (c r : BitVec 4) : (controlOf c r).wf = true := by
  unfold controlOf
  split_ifs with h1 h2
  · rfl
  · rfl
  · simpa [Instr.wf] using And.intro h1 h2

theorem encode_regularOf {op : BitVec 3} (valid : op < 6) (c : CountField 5) :
    encode (regularOf op c) = encodeRegular op c := by
  have cases : op = 0 ∨ op = 1 ∨ op = 2 ∨ op = 3 ∨ op = 4 ∨ op = 5 := by bv_omega
  rcases cases with rfl | rfl | rfl | rfl | rfl | rfl
  all_goals rfl

theorem encode_liteOf {top : BitVec 4} (valid : 0xC ≤ top ∧ top < 0xF) (c : CountField 4) :
    encode (liteOf top c) = encodeLite top c := by
  have cases : top = 0xC ∨ top = 0xD ∨ top = 0xE := by bv_omega
  rcases cases with rfl | rfl | rfl
  all_goals rfl

theorem encode_megaOf {op : BitVec 4} (valid : op < 9) (n : Word16) :
    encode (megaOf op n) = encodeMega op n := by
  have cases : op = 0 ∨ op = 1 ∨ op = 2 ∨ op = 3 ∨ op = 4 ∨ op = 5 ∨ op = 6 ∨ op = 7 ∨ op = 8 := by
    bv_omega
  rcases cases with rfl | rfl | rfl | rfl | rfl | rfl | rfl | rfl | rfl
  all_goals rfl

theorem encode_specialOf {op : BitVec 4} (valid : 9 ≤ op) :
    encode (specialOf op) = [(0xF : BitVec 4) ++ op] := by
  have cases : op = 9 ∨ op = 0xA ∨ op = 0xB ∨ op = 0xC ∨ op = 0xD ∨ op = 0xE ∨ op = 0xF := by bv_omega
  rcases cases with rfl | rfl | rfl | rfl | rfl | rfl | rfl
  all_goals rfl

theorem encode_controlOf (c r : BitVec 4) : encode (controlOf c r) = [c ++ r] := by
  unfold controlOf
  split_ifs with h1 h2
  · rw [h1]; rfl
  · rw [h2]; rfl
  · rfl

/-! ## A control byte and its fields -/

@[simp] theorem highNibble_append (c r : BitVec 4) : highNibble (c ++ r) = c :=
  BitVec.extractLsb'_append_eq_left

@[simp] theorem lowNibble_append (c r : BitVec 4) : lowNibble (c ++ r) = r :=
  BitVec.extractLsb'_append_eq_right

theorem nibbles_append (code : Byte) : highNibble code ++ lowNibble code = code :=
  (BitVec.extractLsb'_append_extractLsb'_eq_extractLsb' (start₁ := 0) rfl).trans
    BitVec.extractLsb'_eq_self

theorem regularFields_append (code : Byte) : code.extractLsb' 5 3 ++ code.extractLsb' 0 5 = code :=
  (BitVec.extractLsb'_append_extractLsb'_eq_extractLsb' (start₁ := 0) rfl).trans
    BitVec.extractLsb'_eq_self

theorem wordBytes_append (n : Word16) : n.extractLsb' 8 8 ++ n.extractLsb' 0 8 = n :=
  (BitVec.extractLsb'_append_extractLsb'_eq_extractLsb' (start₁ := 0) rfl).trans
    BitVec.extractLsb'_eq_self

/-! ## The form a control byte opens, by its fields -/

theorem decodeScan_of_regularOpcode {code : Byte} (rest : List Byte)
    (valid : code.extractLsb' 5 3 < 6) :
    decodeScan (code :: rest) =
      decodeCounted (code.extractLsb' 0 5) rest (regularOf (code.extractLsb' 5 3)) := by
  have opcode := regularOpcode_toNat code
  rw [decodeScan_regular rest (by bv_omega), decodeRegular_eq]

theorem decodeScan_of_liteNibble {code : Byte} (rest : List Byte)
    (valid : 0xC ≤ highNibble code ∧ highNibble code < 0xF) :
    decodeScan (code :: rest) = decodeCounted (lowNibble code) rest (liteOf (highNibble code)) := by
  have top := highNibble_toNat code
  rw [decodeScan_lite rest (by bv_omega) (by bv_omega), decodeLite_eq]

theorem decodeScan_of_megaNibble {code : Byte} (rest : List Byte) (top : highNibble code = 0xF)
    (valid : lowNibble code < 9) :
    decodeScan (code :: rest) = decodeMega rest (megaOf (lowNibble code)) := by
  rw [decodeScan, if_pos top, if_pos valid, decodeMegaForm_eq]

theorem decodeScan_of_specialNibble {code : Byte} (rest : List Byte) (top : highNibble code = 0xF)
    (valid : 9 ≤ lowNibble code) :
    decodeScan (code :: rest) = .instr (specialOf (lowNibble code)) 1 := by
  rw [decodeScan, if_pos top, if_neg (by bv_omega), decodeSpecial_eq]

/-! ## Decoding an encoding -/

theorem decodeCounted_inByte {w : Nat} {c : BitVec w} (nonzero : c ≠ 0) (rest : List Byte)
    (mk : CountField w → Instr) : decodeCounted c rest mk = .instr (mk (.inByte c)) 1 := if_neg nonzero

theorem decodeCounted_ext {w : Nat} (e : Byte) (rest : List Byte) (mk : CountField w → Instr) :
    decodeCounted 0 (e :: rest) mk = .instr (mk (.ext e)) 2 := if_pos rfl

theorem decodeScan_encodeRegular {op : BitVec 3} (valid : op < 6) {c : CountField 5} (wf : c.wf = true)
    (rest : List Byte) :
    decodeScan (encodeRegular op c ++ rest) = .instr (regularOf op c) (encodeRegular op c).length := by
  have opcode : ∀ f : BitVec 5, (op ++ f : Byte).extractLsb' 5 3 = op := fun _ =>
    BitVec.extractLsb'_append_eq_left
  have field : ∀ f : BitVec 5, (op ++ f : Byte).extractLsb' 0 5 = f := fun _ =>
    BitVec.extractLsb'_append_eq_right
  cases c with
  | inByte f =>
    have nonzero : f ≠ 0 := by simpa [CountField.wf] using wf
    rw [encodeRegular, List.cons_append, decodeScan_of_regularOpcode _ (by rwa [opcode]), opcode, field,
      decodeCounted_inByte nonzero]
    rfl
  | ext e =>
    rw [encodeRegular, List.cons_append, decodeScan_of_regularOpcode _ (by rwa [opcode]), opcode, field,
      List.cons_append, decodeCounted_ext]
    rfl

theorem decodeScan_encodeLite {top : BitVec 4} (valid : 0xC ≤ top ∧ top < 0xF) {c : CountField 4}
    (wf : c.wf = true) (rest : List Byte) :
    decodeScan (encodeLite top c ++ rest) = .instr (liteOf top c) (encodeLite top c).length := by
  cases c with
  | inByte f =>
    have nonzero : f ≠ 0 := by simpa [CountField.wf] using wf
    rw [encodeLite, List.cons_append, decodeScan_of_liteNibble _ (by rwa [highNibble_append]),
      highNibble_append, lowNibble_append, decodeCounted_inByte nonzero]
    rfl
  | ext e =>
    rw [encodeLite, List.cons_append, decodeScan_of_liteNibble _ (by rwa [highNibble_append]),
      highNibble_append, lowNibble_append, List.cons_append, decodeCounted_ext]
    rfl

theorem decodeScan_encodeMega {op : BitVec 4} (valid : op < 9) (n : Word16) (rest : List Byte) :
    decodeScan (encodeMega op n ++ rest) = .instr (megaOf op n) 3 := by
  rw [encodeMega, List.cons_append,
    decodeScan_of_megaNibble _ (highNibble_append _ _) (by rwa [lowNibble_append]), lowNibble_append]
  simp only [List.cons_append, decodeMega, wordBytes_append]

theorem decodeScan_specialByte {op : BitVec 4} (valid : 9 ≤ op) (rest : List Byte) :
    decodeScan (((0xF : BitVec 4) ++ op) :: rest) = .instr (specialOf op) 1 := by
  rw [decodeScan_of_specialNibble _ (highNibble_append _ _) (by rwa [lowNibble_append]),
    lowNibble_append]

theorem decodeControl_append (c r : BitVec 4) (rest : List Byte) :
    decodeControl ((c ++ r) :: rest) = .instr (controlOf c r) 1 := by
  rw [decodeControl_eq, highNibble_append, lowNibble_append]

theorem decodeMarker_marker (rest : List Byte) :
    decodeMarker (planarMarker :: rest) = .instr .marker 1 := by
  rw [decodeMarker, if_pos rfl]

/-- Settles O1: each constructor is the instruction of its form and opcode. -/
theorem decodeEncode : Obligations.DecodeEncode := by
  intro i rest wf
  cases i with
  | fill c => exact decodeScan_encodeRegular (op := 0) (by decide) wf rest
  | mix c => exact decodeScan_encodeRegular (op := 1) (by decide) wf rest
  | fom c => exact decodeScan_encodeRegular (op := 2) (by decide) wf rest
  | colour c => exact decodeScan_encodeRegular (op := 3) (by decide) wf rest
  | copy c => exact decodeScan_encodeRegular (op := 4) (by decide) wf rest
  | reserved5 c => exact decodeScan_encodeRegular (op := 5) (by decide) wf rest
  | setmixMix c => exact decodeScan_encodeLite (top := 0xC) (by decide) wf rest
  | setmixFom c => exact decodeScan_encodeLite (top := 0xD) (by decide) wf rest
  | bicolour c => exact decodeScan_encodeLite (top := 0xE) (by decide) wf rest
  | fillM n => exact decodeScan_encodeMega (op := 0) (by decide) n rest
  | mixM n => exact decodeScan_encodeMega (op := 1) (by decide) n rest
  | fomM n => exact decodeScan_encodeMega (op := 2) (by decide) n rest
  | colourM n => exact decodeScan_encodeMega (op := 3) (by decide) n rest
  | copyM n => exact decodeScan_encodeMega (op := 4) (by decide) n rest
  | reserved5M n => exact decodeScan_encodeMega (op := 5) (by decide) n rest
  | setmixMixM n => exact decodeScan_encodeMega (op := 6) (by decide) n rest
  | setmixFomM n => exact decodeScan_encodeMega (op := 7) (by decide) n rest
  | bicolourM n => exact decodeScan_encodeMega (op := 8) (by decide) n rest
  | fomS1 => exact decodeScan_specialByte (op := 9) (by decide) rest
  | fomS2 => exact decodeScan_specialByte (op := 0xA) (by decide) rest
  | reservedB => exact decodeScan_specialByte (op := 0xB) (by decide) rest
  | reservedC => exact decodeScan_specialByte (op := 0xC) (by decide) rest
  | white => exact decodeScan_specialByte (op := 0xD) (by decide) rest
  | black => exact decodeScan_specialByte (op := 0xE) (by decide) rest
  | reservedF => exact decodeScan_specialByte (op := 0xF) (by decide) rest
  | marker => exact decodeMarker_marker rest
  | long16 c => exact decodeControl_append c 1 rest
  | long32 c => exact decodeControl_append c 2 rest
  | raw c r =>
    have short : r ≠ 1 ∧ r ≠ 2 := by simpa [Instr.wf] using wf
    have self : controlOf c r = .raw c r := by rw [controlOf, if_neg short.1, if_neg short.2]
    exact (decodeControl_append c r rest).trans (congrArg (DecodeResult.instr · 1) self)

/-! ## Encoding what was decoded -/

/-- An instruction that some bytes begin with, of the length they hold it in. -/
def Fronts (bs : List Byte) (i : Instr) (len : Nat) : Prop :=
  i.wf = true ∧ encode i = bs.take len ∧ len = (encode i).length

theorem Fronts.of_eq {bs : List Byte} {i j : Instr} {len n : Nat} (front : Fronts bs j n)
    (h : DecodeResult.instr j n = .instr i len) : Fronts bs i len := by
  obtain ⟨rfl, rfl⟩ := DecodeResult.instr.inj h
  exact front

theorem decodeCounted_fronts {w : Nat} {f : BitVec w} {code : Byte} {rest : List Byte}
    {mk : CountField w → Instr} {i : Instr} {len : Nat} (wf : ∀ c, (mk c).wf = c.wf)
    (inByte : encode (mk (.inByte f)) = [code])
    (ext : ∀ e, f = 0 → encode (mk (.ext e)) = [code, e])
    (h : decodeCounted f rest mk = .instr i len) : Fronts (code :: rest) i len := by
  by_cases zero : f = 0
  · cases rest with
    | nil => simp [decodeCounted, zero] at h
    | cons e rest =>
      have long := ext e zero
      subst zero
      rw [decodeCounted_ext] at h
      exact Fronts.of_eq ⟨wf _, long, by rw [long]; rfl⟩ h
  · rw [decodeCounted_inByte zero] at h
    refine Fronts.of_eq ⟨(wf _).trans ?_, inByte, by rw [inByte]; rfl⟩ h
    simpa [CountField.wf] using zero

theorem decodeMega_fronts {op : BitVec 4} {code : Byte} {rest : List Byte} {i : Instr} {len : Nat}
    (valid : op < 9) (byte : (0xF : BitVec 4) ++ op = code)
    (h : decodeMega rest (megaOf op) = .instr i len) : Fronts (code :: rest) i len := by
  match rest, h with
  | lo :: hi :: rest, h =>
    have low : (hi ++ lo : Word16).extractLsb' 0 8 = lo := BitVec.extractLsb'_append_eq_right
    have high : (hi ++ lo : Word16).extractLsb' 8 8 = hi := BitVec.extractLsb'_append_eq_left
    have front : encode (megaOf op (hi ++ lo)) = [code, lo, hi] := by
      rw [encode_megaOf valid, encodeMega, low, high, byte]
    exact Fronts.of_eq ⟨megaOf_wf _ _, front, by rw [front]; rfl⟩ h

theorem decodeScan_fronts {bs : List Byte} {i : Instr} {len : Nat}
    (h : decodeScan bs = .instr i len) : Fronts bs i len := by
  match bs, h with
  | code :: rest, h =>
    have opcode := regularOpcode_toNat code
    have top := highNibble_toNat code
    by_cases regular : code < 0xC0
    · have valid : code.extractLsb' 5 3 < 6 := by bv_omega
      have byte := regularFields_append code
      rw [decodeScan_of_regularOpcode rest valid] at h
      refine decodeCounted_fronts (regularOf_wf _) ?_ (fun e zero => ?_) h
      · rw [encode_regularOf valid, encodeRegular, byte]
      · rw [encode_regularOf valid, encodeRegular, ← zero, byte]
    · have byte := nibbles_append code
      by_cases lite : code < 0xF0
      · have valid : 0xC ≤ highNibble code ∧ highNibble code < 0xF := by bv_omega
        rw [decodeScan_of_liteNibble rest valid] at h
        refine decodeCounted_fronts (liteOf_wf _) ?_ (fun e zero => ?_) h
        · rw [encode_liteOf valid, encodeLite, byte]
        · rw [encode_liteOf valid, encodeLite, ← zero, byte]
      · have isF : highNibble code = 0xF := by bv_omega
        rw [isF] at byte
        by_cases mega : lowNibble code < 9
        · rw [decodeScan_of_megaNibble rest isF mega] at h
          exact decodeMega_fronts mega byte h
        · have valid : 9 ≤ lowNibble code := by bv_omega
          have front : encode (specialOf (lowNibble code)) = [code] := by
            rw [encode_specialOf valid, byte]
          rw [decodeScan_of_specialNibble rest isF valid] at h
          exact Fronts.of_eq ⟨specialOf_wf _, front, by rw [front]; rfl⟩ h

theorem decodeMarker_fronts {bs : List Byte} {i : Instr} {len : Nat}
    (h : decodeMarker bs = .instr i len) : Fronts bs i len := by
  match bs, h with
  | b :: rest, h =>
    by_cases isMarker : b = planarMarker
    · rw [decodeMarker, if_pos isMarker] at h
      exact Fronts.of_eq ⟨rfl, by rw [isMarker]; rfl, rfl⟩ h
    · rw [decodeMarker, if_neg isMarker] at h
      cases h

theorem decodeControl_fronts {bs : List Byte} {i : Instr} {len : Nat}
    (h : decodeControl bs = .instr i len) : Fronts bs i len := by
  match bs, h with
  | b :: rest, h =>
    have front : encode (controlOf (highNibble b) (lowNibble b)) = [b] := by
      rw [encode_controlOf, nibbles_append]
    rw [decodeControl_eq] at h
    exact Fronts.of_eq ⟨controlOf_wf _ _, front, by rw [front]; rfl⟩ h

/-- Settles O2: the front of the bytes in each of the three places, and the place itself. -/
theorem encodeDecode : Obligations.EncodeDecode := by
  intro c bs i len h
  have front : Fronts bs i len := by
    cases c with
    | scan => exact decodeScan_fronts h
    | marker => exact decodeMarker_fronts h
    | control => exact decodeControl_fronts h
  obtain ⟨wf, bytes, length⟩ := front
  exact ⟨wf, decode_ctx h, bytes, length⟩

/-! ## Samples and tables -/

/-- Settles O3: the decoder evaluated on each sample. -/
theorem sampleWords : Obligations.SampleWords :=
  ⟨rfl, rfl, rfl, rfl, rfl, rfl, rfl, rfl, rfl, rfl, rfl⟩

/-- Settles O7: the table evaluated at each header opcode. -/
theorem effectiveOpcodes : Obligations.EffectiveOpcodes := ⟨rfl, rfl, rfl⟩

theorem toNat_nibbles (c r : BitVec 4) : (c ++ r : Byte).toNat = c.toNat * 16 + r.toNat := by
  rw [BitVec.toNat_append, ← Nat.shiftLeft_add_eq_or_of_lt r.isLt, Nat.shiftLeft_eq]

/-- The two lengths of a control byte from its nibbles: the reversed byte is a long run's length. -/
theorem planarCtrl_nibbles (c r : BitVec 4) :
    planarCtrl (c ++ r) =
      if 16 ≤ r.toNat * 16 + c.toNat ∧ r.toNat * 16 + c.toNat ≤ 47 then (0, r.toNat * 16 + c.toNat)
      else (c.toNat, r.toNat) := by
  have low : (c.toNat * 16 + r.toNat) % 16 = r.toNat := by have := r.isLt; omega
  have high : (c.toNat * 16 + r.toNat) / 16 = c.toNat := by have := r.isLt; omega
  rw [planarCtrl, toNat_nibbles, low, high]

/-- Settles O8: the reversed byte lies in the long runs' range exactly for a low nibble of 1 or 2. -/
theorem planarControlLatches : Obligations.PlanarControlLatches := by
  intro c r
  have bound := c.isLt
  refine ⟨?_, ?_, fun not1 not2 => ?_⟩
  · exact (planarCtrl_nibbles c 1).trans (if_pos (by bv_omega))
  · exact (planarCtrl_nibbles c 2).trans (if_pos (by bv_omega))
  · exact (planarCtrl_nibbles c r).trans (if_neg (by bv_omega))

end Sys2Proof.Machine
end

section
/-! The header at the cursor: which bytes a fetch has, what the stream's encoding makes of them, and the
failures in a header (20_memory.md R43, 43_planar_engine.md R129, 42_scanline_orders.md R112). -/

namespace Sys2Proof.Machine

/-! ## The bytes a fetch has -/

theorem State.headerBytes_getElem? (s : State) {k : Nat} (more : k < 3) (inStream : s.cur + k < s.inLen) :
    s.headerBytes[k]? = some (s.inByte (s.cur + k)) := by
  have inRange : k < min maxHeader (s.inLen - s.cur) := lt_min more (by omega)
  simp [State.headerBytes, List.getElem?_range inRange]

theorem State.headerBytes_nil {s : State} (atEnd : s.inLen ≤ s.cur) : s.headerBytes = [] := by
  simp [State.headerBytes, Nat.sub_eq_zero_of_le atEnd]

theorem State.headerBytes_cons {s : State} (more : s.cur < s.inLen) :
    ∃ rest, s.headerBytes = s.inByte s.cur :: rest ∧
      rest.length = min 2 (s.inLen - (s.cur + 1)) := by
  have first := s.headerBytes_getElem? (k := 0) (by omega) more
  have length : s.headerBytes.length = min 3 (s.inLen - s.cur) := by simp [State.headerBytes, maxHeader]
  match bytes : s.headerBytes with
  | [] => simp [bytes] at first
  | b :: rest =>
    simp only [bytes, List.getElem?_cons_zero, Option.some.injEq, Nat.add_zero] at first
    refine ⟨rest, by rw [first], ?_⟩
    simp only [bytes, List.length_cons] at length
    omega

/-- The law of a header's length, for every instruction (30_encoding.md R74). -/
theorem encodeLength (i : Instr) : Laws.EncodeLength.Statement i := by
  cases i with
  | fill c => exact Laws.EncodeLength.fill c
  | mix c => exact Laws.EncodeLength.mix c
  | fom c => exact Laws.EncodeLength.fom c
  | colour c => exact Laws.EncodeLength.colour c
  | copy c => exact Laws.EncodeLength.copy c
  | reserved5 c => exact Laws.EncodeLength.reserved5 c
  | setmixMix c => exact Laws.EncodeLength.setmixMix c
  | setmixFom c => exact Laws.EncodeLength.setmixFom c
  | bicolour c => exact Laws.EncodeLength.bicolour c
  | fillM n => exact Laws.EncodeLength.fillM n
  | mixM n => exact Laws.EncodeLength.mixM n
  | fomM n => exact Laws.EncodeLength.fomM n
  | colourM n => exact Laws.EncodeLength.colourM n
  | copyM n => exact Laws.EncodeLength.copyM n
  | reserved5M n => exact Laws.EncodeLength.reserved5M n
  | setmixMixM n => exact Laws.EncodeLength.setmixMixM n
  | setmixFomM n => exact Laws.EncodeLength.setmixFomM n
  | bicolourM n => exact Laws.EncodeLength.bicolourM n
  | fomS1 => exact Laws.EncodeLength.fomS1
  | fomS2 => exact Laws.EncodeLength.fomS2
  | reservedB => exact Laws.EncodeLength.reservedB
  | reservedC => exact Laws.EncodeLength.reservedC
  | white => exact Laws.EncodeLength.white
  | black => exact Laws.EncodeLength.black
  | reservedF => exact Laws.EncodeLength.reservedF
  | marker => exact Laws.EncodeLength.marker
  | long16 c => exact Laws.EncodeLength.long16 c
  | long32 c => exact Laws.EncodeLength.long32 c
  | raw c r => exact Laws.EncodeLength.raw c r

/-- An encoding that stands in `IN` at the cursor is the front of the header's bytes. -/
theorem State.headerBytes_encoded {s : State} {i : Instr}
    (inStream : s.cur + (encode i).length ≤ s.inLen)
    (bytes : ∀ k, k < (encode i).length → some (s.inByte (s.cur + k)) = (encode i)[k]?) :
    ∃ rest, s.headerBytes = encode i ++ rest := by
  obtain ⟨_, longest, _⟩ := encodeLength i
  refine ⟨s.headerBytes.drop (encode i).length, ?_⟩
  have front : s.headerBytes.take (encode i).length = encode i := by
    refine List.ext_getElem? fun k => ?_
    by_cases inside : k < (encode i).length
    · have within : k < 3 := inside.trans_le longest
      rw [List.getElem?_take_of_lt inside, ← bytes k inside]
      exact s.headerBytes_getElem? within (by omega)
    · rw [List.getElem?_eq_none (by simp; omega), List.getElem?_eq_none (by omega)]
  conv_lhs => rw [← List.take_append_drop (encode i).length s.headerBytes, front]

/-- Settles O25: the header decodes to the encoded instruction, whatever follows. -/
theorem stepRunsEncoded : Obligations.StepRunsEncoded := by
  intro s i wf due inStream bytes
  obtain ⟨rest, header⟩ := State.headerBytes_encoded inStream bytes
  have decoded := header ▸ decodeEncode i rest wf
  refine step_instr ((s.action_fetch_iff i.ctx).mpr ?_) decoded
  rcases due with ⟨phase, place⟩ | due | due
  · obtain ⟨length, _⟩ := encodeLength i
    exact .inl ⟨phase, by omega, place⟩
  · exact .inr (.inl due)
  · exact .inr (.inr due)

/-! ## A header the stream ends inside -/

theorem decodeMega_short {rest : List Byte} (short : rest.length < 2) (mk : Word16 → Instr) :
    decodeMega rest mk = .error .truncated := by
  match rest, short with
  | [], _ => rfl
  | [_], _ => rfl

theorem decodeCounted_short {w : Nat} {f : BitVec w} (zero : f = 0) (mk : CountField w → Instr) :
    decodeCounted f [] mk = .error .truncated := if_pos zero

/-- A mega header takes two bytes after its first, a zero count field one. -/
theorem decodeScan_truncated {code : Byte} {rest : List Byte}
    (short : rest.length < 2 ∧ 0xF0 ≤ code ∧ code < 0xF9 ∨
      rest = [] ∧ (0xC0 ≤ code ∧ code < 0xF0 ∧ code &&& 0x0F = 0 ∨ code < 0xC0 ∧ code &&& 0x1F = 0)) :
    decodeScan (code :: rest) = .error .truncated := by
  have top := highNibble_toNat code
  have low := lowNibble_toNat code
  have opcode := regularOpcode_toNat code
  have field := regularField_toNat code
  have byte := code.isLt
  rcases short with ⟨short, lower, upper⟩ | ⟨rfl, ⟨lower, upper, zero⟩ | ⟨upper, zero⟩⟩
  · rw [decodeScan_of_megaNibble rest (by bv_omega) (by bv_omega)]
    exact decodeMega_short short _
  · have masked : code.toNat &&& 15 = code.toNat % 16 := Nat.and_two_pow_sub_one_eq_mod _ 4
    have zero' : code.toNat % 16 = 0 := by rw [← masked]; simpa using congrArg BitVec.toNat zero
    rw [decodeScan_of_liteNibble [] (by bv_omega)]
    exact decodeCounted_short (by bv_omega) _
  · have masked : code.toNat &&& 31 = code.toNat % 32 := Nat.and_two_pow_sub_one_eq_mod _ 5
    have zero' : code.toNat % 32 = 0 := by rw [← masked]; simpa using congrArg BitVec.toNat zero
    rw [decodeScan_of_regularOpcode [] (by bv_omega)]
    exact decodeCounted_short (by bv_omega) _

/-- Settles O26: the bytes left are fewer than the header's form takes. -/
theorem truncatedHeader : Obligations.TruncatedHeader := by
  intro s phase more short
  obtain ⟨rest, header, length⟩ := State.headerBytes_cons more
  have truncated : decode .scan s.headerBytes = .error .truncated := by
    rw [header]
    refine decodeScan_truncated ?_
    rcases short with ⟨left, mega | counted⟩ | ⟨left, mega⟩
    · exact .inl ⟨by omega, mega⟩
    · exact .inr ⟨List.eq_nil_of_length_eq_zero (by omega), counted⟩
    · exact .inl ⟨by omega, mega⟩
  have read : s.cur + s.headerBytes.length = s.inLen := by
    rw [header, List.length_cons]
    omega
  rw [step_truncated ((s.action_fetch_iff _).mpr (.inl ⟨phase, more, rfl⟩)) truncated]
  simp [State.failEntry, State.advance, State.startOrder, read]

/-! ## The planar headers -/

theorem decodeMarker_bad {b : Byte} (bad : b ≠ 0x10) (rest : List Byte) :
    decodeMarker (b :: rest) = .error (.badMarker b) := if_neg bad

/-- Settles O27: the marker's place and the row's place, without a byte and with a wrong one. -/
theorem planarHeaderFailures : Obligations.PlanarHeaderFailures := by
  intro s phase
  have marker := fun first : s.cur = 0 =>
    (s.action_fetch_iff .marker).mpr (.inr (.inl ⟨phase, first, rfl⟩))
  refine ⟨fun first empty => ?_, fun first some_ bad => ?_, fun marked inRow atEnd => ?_⟩
  · have header := State.headerBytes_nil (s := s) (by omega)
    rw [step_truncated (marker first) (by rw [header]; rfl), header]
    simp [State.failEntry, State.advance, State.startOrder, first]
  · obtain ⟨rest, header, _⟩ := State.headerBytes_cons (s := s) (by omega)
    rw [first] at header
    have decoded : decode .marker s.headerBytes = .error (.badMarker (s.inByte 0)) := by
      rw [header]
      exact decodeMarker_bad bad rest
    rw [step_badMarker (marker first) decoded]
    simp [State.failEntry, State.advance, State.startOrder, first]
  · have header := State.headerBytes_nil (s := s) (by omega)
    have due := (s.action_fetch_iff .control).mpr (.inr (.inr ⟨phase, marked, inRow, rfl⟩))
    rw [step_truncated due (by rw [header]; rfl), header]
    rfl

/-! ## Reserved control bytes -/

/-- The control bytes with a reserved header opcode (30_encoding.md R70). -/
def ReservedByte (b : Byte) : Prop :=
  0xA0 ≤ b ∧ b < 0xC0 ∨ b = 0xF5 ∨ b = 0xFB ∨ b = 0xFC ∨ b = 0xFF

/-- The bytes of a reserved order's header. -/
def reservedLength (b : Byte) : Nat := if b = 0xF5 then 3 else if b = 0xA0 then 2 else 1

/-- A reserved control byte with its whole header decodes to a reserved order. -/
theorem decodeScan_reserved {b : Byte} {rest : List Byte} (reserved : ReservedByte b)
    (whole : reservedLength b ≤ rest.length + 1) :
    ∃ i op, decodeScan (b :: rest) = .instr i (reservedLength b) ∧ headerOpcode i = some op ∧
      effOp op = none := by
  rcases reserved with ⟨lower, upper⟩ | rfl | rfl | rfl | rfl
  · have opcode := regularOpcode_toNat b
    have field := regularField_toNat b
    have five : b.extractLsb' 5 3 = 5 := by bv_omega
    have notMega : b ≠ 0xF5 := by bv_omega
    rw [decodeScan_of_regularOpcode rest (by bv_omega), five]
    by_cases zero : b.extractLsb' 0 5 = 0
    · have byte : b = 0xA0 := by bv_omega
      subst byte
      match rest, whole with
      | e :: rest, _ => exact ⟨.reserved5 (.ext e), 5, decodeCounted_ext e rest _, rfl, rfl⟩
    · have notA0 : b ≠ 0xA0 := by
        rintro rfl
        exact zero rfl
      rw [reservedLength, if_neg notMega, if_neg notA0]
      exact ⟨.reserved5 (.inByte _), 5, decodeCounted_inByte zero rest _, rfl, rfl⟩
  · match rest, whole with
    | lo :: hi :: rest, _ => exact ⟨.reserved5M (hi ++ lo), 5, rfl, rfl, rfl⟩
  · exact ⟨.reservedB, 0xB, rfl, rfl, rfl⟩
  · exact ⟨.reservedC, 0xC, rfl, rfl, rfl⟩
  · exact ⟨.reservedF, 0xF, rfl, rfl, rfl⟩

theorem reservedLength_le (b : Byte) : 1 ≤ reservedLength b ∧ reservedLength b ≤ 3 := by
  unfold reservedLength
  split_ifs <;> simp

/-- Settles O39: the step decodes a reserved order, whose meaning is the failure. -/
theorem reservedBytesFail : Obligations.ReservedBytesFail := by
  intro s len phase pb reserved length whole
  have isLength : len = reservedLength (s.inByte s.cur) := length
  obtain ⟨atLeast, atMost⟩ := reservedLength_le (s.inByte s.cur)
  obtain ⟨rest, header, restLength⟩ := State.headerBytes_cons (s := s) (by omega)
  obtain ⟨i, op, decoded, opcode, none_⟩ :=
    decodeScan_reserved (rest := rest) reserved (by rw [restLength]; omega)
  rw [← isLength, ← header] at decoded
  rw [step_instr ((s.action_fetch_iff .scan).mpr (.inl ⟨phase, by omega, rfl⟩)) decoded]
  exact exec_reserved_fails (s := s.startOrder.advance len) opcode none_ phase pb

end Sys2Proof.Machine
end

section
/-! Values: the delta byte, the XOR of pixels, the colour conversions of the 16-bit words, the outcome
codes (43_planar_engine.md R137, 41_scanline_engine.md R100, 44_color_normalizer.md R144, R145,
60_exceptions.md R156), and the output of the normalizer (R142). -/

namespace Sys2Proof.Machine

/-! ## Delta bytes -/

theorem getLsbD_zero_iff (b : Byte) : b.getLsbD 0 = true ↔ b.toNat % 2 = 1 := by
  simp [BitVec.getLsbD, Nat.testBit_zero]

theorem toNat_half (b : Byte) : (b >>> 1).toNat = b.toNat / 2 := by
  rw [BitVec.toNat_ushiftRight, Nat.shiftRight_eq_div_pow, Nat.pow_one]

theorem deltaValue_odd {b : Byte} (odd : b.toNat % 2 = 1) :
    deltaValue b = -((b.toNat / 2 : Nat) + 1 : Int) := if_pos odd

theorem deltaValue_even {b : Byte} (even : ¬ b.toNat % 2 = 1) :
    deltaValue b = (b.toNat / 2 : Nat) := if_neg even

/-- Settles O9: an odd byte is a negative value, an even one a value that is not, and both halve. -/
theorem deltaValues : Obligations.DeltaValues := by
  refine ⟨fun b => ?_, fun b => ?_, fun b c same => ?_⟩
  · by_cases odd : b.toNat % 2 = 1
    · rw [if_pos ((getLsbD_zero_iff b).mpr odd), deltaValue_odd odd, toNat_half]
    · rw [if_neg (mt (getLsbD_zero_iff b).mp odd), deltaValue_even odd, toNat_half]
  · have byte := b.isLt
    by_cases odd : b.toNat % 2 = 1
    · rw [deltaValue_odd odd]; omega
    · rw [deltaValue_even odd]; omega
  · refine BitVec.eq_of_toNat_eq ?_
    by_cases oddB : b.toNat % 2 = 1 <;> by_cases oddC : c.toNat % 2 = 1
    · rw [deltaValue_odd oddB, deltaValue_odd oddC] at same; omega
    · rw [deltaValue_odd oddB, deltaValue_even oddC] at same; omega
    · rw [deltaValue_even oddB, deltaValue_odd oddC] at same; omega
    · rw [deltaValue_even oddB, deltaValue_even oddC] at same; omega

/-! ## Pixels as words -/

/-- Settles O10: the word's bytes are the pixel's lanes. -/
theorem pixelXor : Obligations.PixelXor := fun _ _ => ⟨BitVec.xor_append.symm, rfl, rfl, rfl⟩

theorem rgba_15 (p : Pixel) : rgba 15 p = rgba15 p := by rw [rgba, if_pos rfl]

theorem rgba_16 (p : Pixel) : rgba 16 p = rgba16 p := by
  have not15 : (16 : Int) ≠ 15 := by decide
  rw [rgba, if_neg not15, if_pos rfl]

/-- A channel of an output pixel: the number it is, the largest it can be, the bits it leaves zero. -/
def Channel (b : Byte) (n : Nat) (top low : Byte) : Prop := b.toNat = n ∧ b ≤ top ∧ b &&& low = 0

theorem Channel.of_and {x top low : Byte} {n : Nat} (number : (x &&& top).toNat = n)
    (apart : top &&& low = 0) : Channel (x &&& top) n top low := by
  refine ⟨number, ?_, ?_⟩
  · rw [BitVec.le_def, BitVec.toNat_and]
    exact Nat.and_le_right
  · rw [BitVec.and_assoc, apart]
    exact BitVec.and_zero

/-- A field of a word moved down to a byte. -/
theorem channel_down (w : Word16) {mask : Word16} {k : Nat} {top low : Byte}
    (field : mask >>> k = top.setWidth 16) (apart : top &&& low = 0) :
    Channel (((w &&& mask) >>> k).setWidth 8) ((w.toNat &&& mask.toNat) >>> k) top low := by
  have byte : ((w &&& mask) >>> k).setWidth 8 = (w >>> k).setWidth 8 &&& top := by
    rw [BitVec.ushiftRight_and_distrib, field, BitVec.setWidth_and, BitVec.setWidth_setWidth_of_le _ (by decide),
      BitVec.setWidth_eq]
  have number : ((w &&& mask) >>> k).toNat < 256 := by
    rw [BitVec.ushiftRight_and_distrib, field, BitVec.toNat_and]
    exact Nat.and_le_right.trans_lt (by simpa using Nat.mod_lt_of_lt top.isLt)
  rw [byte]
  refine Channel.of_and ?_ apart
  rw [← byte, BitVec.toNat_setWidth, Nat.mod_eq_of_lt number, BitVec.toNat_ushiftRight, BitVec.toNat_and]

/-- A field of a word moved up to a byte. -/
theorem channel_up (w : Word16) {mask : Word16} {k : Nat} {top low : Byte}
    (field : mask <<< k = top.setWidth 16) (small : mask.toNat <<< k < 256) (apart : top &&& low = 0) :
    Channel (((w &&& mask) <<< k).setWidth 8) ((w.toNat &&& mask.toNat) <<< k) top low := by
  have byte : ((w &&& mask) <<< k).setWidth 8 = (w <<< k).setWidth 8 &&& top := by
    rw [BitVec.shiftLeft_and_distrib, field, BitVec.setWidth_and, BitVec.setWidth_setWidth_of_le _ (by decide),
      BitVec.setWidth_eq]
  have number : (w.toNat &&& mask.toNat) <<< k < 256 := by
    refine lt_of_le_of_lt ?_ small
    simp only [Nat.shiftLeft_eq]
    exact Nat.mul_le_mul_right _ Nat.and_le_right
  rw [byte]
  refine Channel.of_and ?_ apart
  rw [← byte, BitVec.toNat_setWidth, BitVec.toNat_shiftLeft, BitVec.toNat_and,
    Nat.mod_eq_of_lt (number.trans (by decide)), Nat.mod_eq_of_lt number]

/-- Clearing bit 15 of a word is clearing the top bit of its high lane. -/
theorem word_clear_top (p : Pixel) :
    Pixel.word { p with b1 := p.b1 &&& 0x7F } = Pixel.word p &&& 0x7FFF := by
  have split : (0x7FFF : Word16) = (0x7F : Byte) ++ (0xFF : Byte) := rfl
  have low : p.b0 &&& 0xFF = p.b0 := BitVec.and_allOnes
  rw [split, Pixel.word, Pixel.word, BitVec.and_append, low]

/-- No channel of a 15-bit pixel takes bit 15. -/
theorem rgba15_clear_top (p : Pixel) : rgba15 { p with b1 := p.b1 &&& 0x7F } = rgba15 p := by
  have red : (0x7FFF : Word16) &&& 0x7C00 = 0x7C00 := rfl
  have green : (0x7FFF : Word16) &&& 0x03E0 = 0x03E0 := rfl
  have blue : (0x7FFF : Word16) &&& 0x001F = 0x001F := rfl
  simp only [rgba15, word_clear_top, BitVec.and_assoc, red, green, blue]

/-- Settles O12: each channel is a field of the word. -/
theorem wordConversions : Obligations.WordConversions := by
  intro p
  rw [rgba_15, rgba_15, rgba_16]
  have blue := channel_up (Pixel.word p) (mask := 0x001F) (k := 3) (top := 0xF8) (low := 7) rfl (by decide) rfl
  refine ⟨(rgba15_clear_top p).symm, ?_, ?_⟩
  · have red := channel_down (Pixel.word p) (mask := 0x7C00) (k := 7) (top := 0xF8) (low := 7) rfl rfl
    have green := channel_down (Pixel.word p) (mask := 0x03E0) (k := 2) (top := 0xF8) (low := 7) rfl rfl
    exact ⟨_, _, _, rfl, red.1, green.1, blue.1, red.2.1, green.2.1, blue.2.1, red.2.2, green.2.2,
      blue.2.2⟩
  · have red := channel_down (Pixel.word p) (mask := 0xF800) (k := 8) (top := 0xF8) (low := 7) rfl rfl
    have green := channel_down (Pixel.word p) (mask := 0x07E0) (k := 3) (top := 0xFC) (low := 3) rfl rfl
    exact ⟨_, _, _, rfl, red.1, green.1, blue.1, red.2.1, green.2.1, blue.2.1, red.2.2, green.2.2,
      blue.2.2⟩

/-! ## Outcome codes -/

/-- The outcome a code stands for (60_exceptions.md R156). -/
def statusOf : Option Nat → Status
  | none => .noCall
  | some 0 => .ok
  | some 1 => .error .invalidDimensions
  | some 2 => .error .unsupportedDepth
  | some 3 => .error .streamUnderrun
  | some 4 => .error .lengthMismatch
  | some 5 => .error .unknownOpcode
  | some 6 => .error .bufferLengthMismatch
  | some 7 => .error .rasterOverflow
  | some _ => .error .badMarker

theorem statusOf_code (a : Status) : statusOf a.code = a := by
  cases a with
  | error e => cases e <;> rfl
  | _ => rfl

/-- Settles O14: the table evaluated, and a code gives its outcome back. -/
theorem statusCodes : Obligations.StatusCodes :=
  ⟨rfl, Function.LeftInverse.injective statusOf_code⟩

/-! ## The normalizer's output -/

theorem rgba_length (bpp : Int) (p : Pixel) : (rgba bpp p).length = 4 := by
  unfold rgba
  split_ifs <;> rfl

/-- What `OUT` reads as after the normalizer's first `n` pixels: pixel `k`'s bytes at `4 * k`, and what it
held past them. -/
theorem read_normalized (s : State) (n : Nat) :
    (∀ k, k < n → ∀ j, j < 4 →
      (s.normalized n).read (k * 4 + j) = (rgba s.bpp (s.pixelAt (s.sourceIndex k)))[j]?) ∧
    ∀ a, n * 4 ≤ a → (s.normalized n).read a = s.out.read a := by
  induction n with
  | zero => exact ⟨fun k hk => absurd hk (Nat.not_lt_zero k), fun _ _ => rfl⟩
  | succ n ih =>
    obtain ⟨done, beyond⟩ := ih
    refine ⟨fun k hk j hj => ?_, fun a ha => ?_⟩
    · rw [State.normalized, Memory.read_writeList, rgba_length]
      rcases Nat.lt_succ_iff_lt_or_eq.mp hk with before | rfl
      · rw [if_neg (by omega), done k before j hj]
      · rw [if_pos (by omega), Nat.add_sub_cancel_left]
    · rw [State.normalized, Memory.read_writeList, rgba_length, if_neg (by omega), beyond a (by omega)]

/-- The native pixel of output pixel `(x, y)`, row-major. -/
theorem State.sourceIndex_at (s : State) {x : Nat} (y : Nat) (column : x < s.dstW.toNat) :
    s.sourceIndex (y * s.dstW.toNat + x) = y * s.width + x := by
  have width : 0 < s.dstW.toNat := Nat.zero_lt_of_lt column
  have row : (y * s.dstW.toNat + x) / s.dstW.toNat = y := by
    rw [Nat.mul_comm, Nat.mul_add_div width, Nat.div_eq_of_lt column, Nat.add_zero]
  have col : (y * s.dstW.toNat + x) % s.dstW.toNat = x := by
    rw [Nat.mul_comm, Nat.mul_add_mod, Nat.mod_eq_of_lt column]
  rw [State.sourceIndex, row, col]

/-- Settles O23: the host reads the normalizer's output, four bytes for each pixel of the destination. -/
theorem normalizerOutput : Obligations.NormalizerOutput := by
  intro s t phase columns rows next
  have ended : normalizeStep s = t := Host.Outcome.next.inj ((step_normalize phase).symm.trans next)
  rw [normalizeStep_done columns rows] at ended
  obtain ⟨written, beyond⟩ := read_normalized s s.outPixels
  subst ended
  refine ⟨fun x y j column row lane => ?_, beyond⟩
  have pixel : y * s.dstW.toNat + x < s.outPixels := row_mul_add_lt row column
  rw [State.hostOut, if_pos ⟨rfl, by show _ < s.outPixels * 4; omega⟩]
  exact (written _ pixel j lane).trans (by rw [s.sourceIndex_at y column])

end Sys2Proof.Machine
end

section
/-! Which registers an instruction can change (10_state.md sections 4 to 6): the pixel registers by header
opcode, and the two engines' registers apart. -/

namespace Sys2Proof.Machine

/-! ## The pixel registers -/

/-- From `s` to `t` an order of header opcode `op` changed only the pixel registers it reads
(42_scanline_orders.md R105). -/
def PixelRegs (op : Nat) (s t : State) : Prop :=
  (op ≠ 6 → op ≠ 7 → t.mix = s.mix) ∧ (op ≠ 8 → t.colour1 = s.colour1) ∧
  (op ≠ 3 → op ≠ 8 → t.colour2 = s.colour2)

theorem PixelRegs.of_eq {op : Nat} {s t : State} (mix : t.mix = s.mix) (colour1 : t.colour1 = s.colour1)
    (colour2 : t.colour2 = s.colour2) : PixelRegs op s t :=
  ⟨fun _ _ => mix, fun _ => colour1, fun _ _ => colour2⟩

theorem BodyFrame.pixelRegs {op : Nat} {s t : State} (h : BodyFrame s t) : PixelRegs op s t :=
  .of_eq (by rw [h.same]; rfl) (by rw [h.same]; rfl) (by rw [h.same]; rfl)

theorem BodyFailed.pixelRegs {op : Nat} {s t : State} (h : BodyFailed s t) : PixelRegs op s t := by
  obtain ⟨u, e, frame, rfl⟩ := h
  exact frame.pixelRegs

theorem PixelRegs.trans {op : Nat} {s t u : State} (h : PixelRegs op s t) (g : PixelRegs op t u) :
    PixelRegs op s u := by
  obtain ⟨hmix, h1, h2⟩ := h
  obtain ⟨gmix, g1, g2⟩ := g
  exact ⟨fun n6 n7 => (gmix n6 n7).trans (hmix n6 n7), fun n8 => (g1 n8).trans (h1 n8),
    fun n3 n8 => (g2 n3 n8).trans (h2 n3 n8)⟩

/-- The claim a piece of an order of header opcode `op` satisfies. -/
abbrev Eff.KeepsRegs {α : Type} (op : Nat) (s : State) (e : Eff α) : Prop :=
  e.Sat True (PixelRegs op s) (PixelRegs op s)

theorem readPixel_keepsRegs (op : Nat) (s : State) : (readPixel s).KeepsRegs op s :=
  (readPixel_body s).mono (fun _ h => h.pixelRegs) fun _ h => h.pixelRegs

/-- An operand read that is followed by a write of the pixel registers the opcode may write. -/
theorem readPixel_then_keepsRegs {op : Nat} {s : State} {k : Pixel → State → Eff Unit}
    (hk : ∀ p t, (k p t).KeepsRegs op t) : ((readPixel s).andThen k).KeepsRegs op s :=
  (readPixel_keepsRegs op s).andThen fun p t ht =>
    (hk p t).mono (fun _ => ht.trans) fun _ => ht.trans

theorem startBicolour_keepsRegs (s : State) : (startBicolour s).KeepsRegs 8 s := by
  refine readPixel_then_keepsRegs fun p t => ?_
  have first : PixelRegs 8 t { t with colour1 := p } :=
    ⟨fun _ _ => rfl, fun h => absurd rfl h, fun _ h => absurd rfl h⟩
  refine Eff.Sat.mono (readPixel_then_keepsRegs (s := { t with colour1 := p }) fun q u => ?_)
    (fun _ => first.trans) fun _ => first.trans
  exact ⟨fun _ _ => rfl, fun _ => rfl, fun _ h => absurd rfl h⟩

theorem startOf_keepsRegs (op : Nat) (s : State) : (startOf op s).KeepsRegs op s := by
  have still : PixelRegs op s s := .of_eq rfl rfl rfl
  unfold startOf
  split
  · exact still
  · exact readPixel_then_keepsRegs fun p t => ⟨fun _ _ => rfl, fun _ => rfl, fun h => absurd rfl h⟩
  · exact readPixel_then_keepsRegs fun p t => ⟨fun h => absurd rfl h, fun _ => rfl, fun _ _ => rfl⟩
  · exact readPixel_then_keepsRegs fun p t => ⟨fun _ h => absurd rfl h, fun _ => rfl, fun _ _ => rfl⟩
  · exact startBicolour_keepsRegs s
  · exact still
  · exact still
  · exact still

/-- A body writes no pixel register, so an order writes those its start writes. -/
theorem runOrder_keepsRegs (n op : Nat) (e : EffOp) (s : State) :
    (runOrder n (startOf op) e s).KeepsRegs op s := by
  refine Eff.Sat.andThen (startOf_keepsRegs op (s.beginOrder n)) fun _ t ht => ?_
  have before : PixelRegs op s (t.latchOp e) := ht
  exact (orderBody_body (t.latchOp e)).mono (fun _ h => before.trans h.pixelRegs)
    fun _ h => before.trans h.pixelRegs

theorem exec_order_pixelRegs {i : Instr} {op : Nat} {s t : State} (opcode : headerOpcode i = some op)
    (next : exec i s = .next t) : PixelRegs op s t := by
  cases valid : effOp op with
  | some e =>
    rw [exec_order opcode valid] at next
    obtain ⟨_, _, ran⟩ := inScan_next next
    exact ((runOrder_keepsRegs _ op e s).outcome ran).elim id id
  | none =>
    rw [exec_reserved opcode valid] at next
    obtain ⟨_, _, ran⟩ := inScan_next next
    have failed : s.failEntry .unknownOpcode s.orderStart = t := Host.Outcome.next.inj ran
    exact failed ▸ .of_eq rfl rfl rfl

/-! ## The engines' registers -/

/-- The scanline engine's registers (10_state.md sections 4 and 5). -/
def State.scanRegs (s : State) :
    (Nat × Nat × Option Nat × Option Nat) × (Option EffOp × Byte × Byte × Toggle) ×
      (EffOp × Nat × Bool × Option Byte) × Pixel × Pixel × Pixel :=
  ((s.x, s.rowsLeft, s.line, s.prevLine), (s.lastOp, s.mask, s.mixMask, s.toggle),
    (s.op, s.count, s.insert, s.fixed), s.mix, s.colour1, s.colour2)

/-- The planar engine's registers (10_state.md section 6). -/
def State.planarRegs (s : State) : (Nat × Nat × Nat) × Int × Nat × Nat :=
  ((s.plane, s.krow, s.col), s.run, s.collen, s.replen)

theorem exec_planarRegs {i : Instr} {s t : State} (place : i.ctx = .scan) (next : exec i s = .next t) :
    t.planarRegs = s.planarRegs := by
  rcases (exec_scan_next place next).2.2 with frame | ⟨u, e, frame, rfl⟩
  · rw [frame.same]; rfl
  · show u.planarRegs = _
    rw [frame.same]; rfl

theorem exec_scanRegs {i : Instr} {s t : State} (place : i.ctx ≠ .scan) (next : exec i s = .next t) :
    t.scanRegs = s.scanRegs := by
  rcases (exec_planar_next place next).2.2 with frame | ⟨u, e, frame, rfl⟩
  · rw [frame.same]; rfl
  · show u.scanRegs = _
    rw [frame.same]; rfl

/-- Settles O58: the registers of the other engine, one by one. -/
theorem enginesApart : Obligations.EnginesApart := by
  intro i s t next
  refine ⟨fun place => ?_, fun place => ?_⟩
  · have kept := exec_planarRegs place next
    simp only [State.planarRegs, Prod.mk.injEq] at kept
    obtain ⟨⟨plane, krow, col⟩, run, collen, replen⟩ := kept
    exact ⟨plane, krow, col, run, collen, replen⟩
  · have kept := exec_scanRegs place next
    simp only [State.scanRegs, Prod.mk.injEq] at kept
    obtain ⟨⟨x, rowsLeft, line, prevLine⟩, ⟨lastOp, mask, mixMask, toggle⟩, ⟨op, count, insert, fixed⟩,
      mix, colour1, colour2⟩ := kept
    exact ⟨x, rowsLeft, line, prevLine, lastOp, mask, mixMask, toggle, op, count, insert, fixed, mix,
      colour1, colour2⟩

/-- Settles O57: a scanline order writes those of its opcode, a planar instruction none. -/
theorem pixelRegisterWriters : Obligations.PixelRegisterWriters := by
  intro i s t next
  by_cases place : i.ctx = .scan
  · obtain ⟨op, opcode⟩ := exists_headerOpcode place
    obtain ⟨mix, colour1, colour2⟩ := exec_order_pixelRegs opcode next
    simp only [opcode, ne_eq, Option.some.injEq]
    exact ⟨mix, colour1, colour2⟩
  · have kept := exec_scanRegs place next
    simp only [State.scanRegs, Prod.mk.injEq] at kept
    obtain ⟨_, _, _, mix, colour1, colour2⟩ := kept
    exact ⟨fun _ _ => mix, fun _ => colour1, fun _ _ => colour2⟩

end Sys2Proof.Machine
end

section
/-! The scanline orders as one run (42_scanline_orders.md R104 .. R111, R115, R126, R127): the state an order
begins in by its header opcode, the registers and the pixel of each of its turns by its effective opcode, and
how far a body runs. -/

namespace Sys2Proof.Machine

/-! ## The start of an order -/

/-- The operand pixels by header opcode (30_encoding.md R72). -/
def operandsOf : Nat → Nat
  | 3 => 1
  | 6 => 1
  | 7 => 1
  | 8 => 2
  | _ => 0

/-- The state after `OrderStart` where the stream holds the operand pixels (42_scanline_orders.md R105). -/
def State.started (s : State) (op n : Nat) : State :=
  match op with
  | 0 => { s.beginOrder n with insert := insertFlag s }
  | 3 => { s.beginOrder n with cur := s.cur + s.pb.toNat, colour2 := s.streamPixel s.cur }
  | 6 => { s.beginOrder n with cur := s.cur + s.pb.toNat, mix := s.streamPixel s.cur }
  | 7 => { s.beginOrder n with cur := s.cur + s.pb.toNat, mix := s.streamPixel s.cur }
  | 8 => { s.beginOrder n with
      cur := s.cur + 2 * s.pb.toNat, colour1 := s.streamPixel s.cur
      colour2 := s.streamPixel (s.cur + s.pb.toNat), toggle := .second }
  | 9 => { s.beginOrder n with fixed := some 0x03 }
  | 0xA => { s.beginOrder n with fixed := some 0x05 }
  | _ => s.beginOrder n

theorem operandPixels_eq {i : Instr} {op : Nat} (opcode : headerOpcode i = some op) :
    operandPixels i = operandsOf op := by
  cases i <;> cases opcode <;> rfl

theorem startBicolour_loads {s : State} (pb : s.pb ≠ .four) (data : s.cur + 2 * s.pb.toNat ≤ s.inLen) :
    startBicolour s = .ok () { s with
      cur := s.cur + 2 * s.pb.toNat, colour1 := s.streamPixel s.cur
      colour2 := s.streamPixel (s.cur + s.pb.toNat), toggle := .second } := by
  have first := readPixel_ok (s := s) pb (by omega)
  have second := readPixel_ok (s := { s.advance s.pb.toNat with colour1 := s.streamPixel s.cur }) pb
    (by simp only [State.advance_cur, State.advance_inLen, State.advance_pb]; omega)
  rw [startBicolour, first, Eff.andThen_ok, second, Eff.andThen_ok]
  simp only [State.advance, Nat.two_mul, Nat.add_assoc]
  rfl

/-- `OrderStart` where the stream holds the operand pixels. -/
theorem startOf_ok {s : State} {op : Nat} (n : Nat) (pb : s.pb ≠ .four)
    (data : operandsOf op = 0 ∨ s.cur + operandsOf op * s.pb.toNat ≤ s.inLen) :
    startOf op (s.beginOrder n) = .ok () (s.started op n) := by
  have onePixel : s.cur + 1 * s.pb.toNat ≤ s.inLen → readPixel (s.beginOrder n) = _ := fun h =>
    readPixel_ok (s := s.beginOrder n) pb (by simpa using h)
  unfold startOf
  split
  · rfl
  · rw [startColour, onePixel (by simpa [operandsOf] using data)]; rfl
  · rw [startSetMix, onePixel (by simpa [operandsOf] using data)]; rfl
  · rw [startSetMix, onePixel (by simpa [operandsOf] using data)]; rfl
  · exact startBicolour_loads (s := s.beginOrder n) pb (by simpa [operandsOf] using data)
  · rfl
  · rfl
  · unfold State.started
    split
    case h_8 => rfl
    all_goals contradiction

/-! ## The turns of a body -/

/-- The pixels a body of count `n` writes (42_scanline_orders.md R115). -/
def turnsOf (e : EffOp) (n : Nat) : Nat :=
  match e with
  | .bicolour => 2 * n - 1
  | _ => n

/-- The stream bytes a body begun in `b` has read after `k` pixels (42_scanline_orders.md R106, R111). -/
def State.bodyRead (b : State) (e : EffOp) (k : Nat) : Nat :=
  match e with
  | .copy => k * b.pb.toNat
  | .fom => b.masksRead k
  | _ => 0

theorem State.bodyRead_mono (b : State) (e : EffOp) {j k : Nat} (h : j ≤ k) :
    b.bodyRead e j ≤ b.bodyRead e k := by
  cases e with
  | copy => exact Nat.mul_le_mul_right _ h
  | fom =>
    simp only [State.bodyRead, State.masksRead]
    split <;> omega
  | _ => exact Nat.le_refl 0

/-- The registers of a body of count `n` begun in `b` after `k` of its pixels. -/
def State.bodyRegs (b : State) (e : EffOp) (n k : Nat) : TurnRegs :=
  match e with
  | .fill => { b.turnRegs with insert := if k = 0 then b.insert else false, count := n - k }
  | .fom => b.fomRegs n k
  | .copy => { b.turnRegs with cur := b.cur + k * b.pb.toNat, count := n - k }
  | .bicolour => b.bicolourRegs n k
  | _ => { b.turnRegs with count := n - k }

/-- The mix pixel over an above pixel (41_scanline_engine.md R98). -/
def mixOver (mix : Pixel) (above : Option Pixel) : Pixel :=
  match above with
  | none => mix
  | some p => Pixel.xor p mix

/-- The pixel `k` of a body begun in `b`, with the pixel above it. -/
def State.bodyPixel (b : State) (e : EffOp) (k : Nat) (above : Option Pixel) : Pixel :=
  match e with
  | .fill => if k = 0 ∧ b.insert = true then mixOver b.mix above else above.getD Pixel.zero
  | .mix => mixOver b.mix above
  | .fom => if (b.maskAt k).getLsbD (k % 8) then mixOver b.mix above else above.getD Pixel.zero
  | .colour => b.colour2
  | .copy => b.streamPixel (b.cur + k * b.pb.toNat)
  | .bicolour => if k % 2 = 0 then b.colour2 else b.colour1
  | .white => Pixel.ones b.pb
  | .black => Pixel.zero

theorem State.mixAt_eq (s : State) (p : Nat) : s.mixAt p = mixOver s.mix (s.aboveAt p) := by
  unfold State.mixAt mixOver
  cases s.aboveAt p <;> rfl

theorem State.bodyRegs_cur (b : State) (e : EffOp) (n k : Nat) :
    (b.bodyRegs e n k).cur = b.cur + b.bodyRead e k := by
  cases e <;> rfl

/-- The registers of a turn whose pixel has been put but not counted. -/
def TurnRegs.uncounted (r : TurnRegs) : TurnRegs := { r with count := r.count + 1 }

/-- A body that has begun: its count is `n`, its mask cursor is clear, and its toggle is at `SECOND` where it
reads it. -/
structure Begun (b : State) (e : EffOp) (n : Nat) : Prop where
  count : b.count = n
  mixMask : b.mixMask = 0
  toggle : e = .bicolour → b.toggle = .second

theorem Begun.bodyRegs_zero {b : State} {e : EffOp} {n : Nat} (h : Begun b e n) :
    b.bodyRegs e n 0 = b.turnRegs := by
  obtain ⟨rfl, mixMask, toggle⟩ := h
  cases e with
  | fom => simp [State.bodyRegs, State.fomRegs, State.turnRegs, State.masksRead, mixMask]
  | copy => simp [State.bodyRegs, State.turnRegs]
  | bicolour => simp [State.bodyRegs, State.bicolourRegs, State.turnRegs, toggle rfl]
  | _ => simp [State.bodyRegs, State.turnRegs]

/-- A body's count is not 0 before its last pixel. -/
theorem State.bodyRegs_count_ne {b : State} {e : EffOp} {n k : Nat} (h : k < turnsOf e n) :
    (b.bodyRegs e n k).count ≠ 0 := by
  cases e with
  | bicolour =>
    have count : (b.bodyRegs .bicolour n k).count = n - (k + 1) / 2 := rfl
    have pixels : k < 2 * n - 1 := h
    rw [count]
    omega
  | _ =>
    exact Nat.sub_ne_zero_of_lt h

/-- A body's count is 0 after its last pixel. -/
theorem State.bodyRegs_count_last (b : State) (e : EffOp) (n : Nat) :
    (b.bodyRegs e n (turnsOf e n)).count = 0 := by
  cases e with
  | bicolour =>
    have count : (b.bodyRegs .bicolour n (2 * n - 1)).count = n - (2 * n - 1 + 1) / 2 := rfl
    rw [turnsOf, count]
    omega
  | _ => exact Nat.sub_self n

theorem turnsOf_le (e : EffOp) (n : Nat) : turnsOf e n ≤ 2 * n := by
  unfold turnsOf
  split
  · omega
  · omega

section
variable {b : State} {e : EffOp} {n k : Nat} {m : Memory}

/-- Counting down from `k` to `k + 1` of `n` pixels. -/
theorem count_step (h : k < n) : n - (k + 1) + 1 = n - k := by omega

/-- The bodies that change no register but the count: a turn is put before it is counted. -/
theorem State.bodyRegs_uncounted (h : k < n) (plain : e = .mix ∨ e = .colour ∨ e = .white ∨ e = .black) :
    (b.bodyRegs e n (k + 1)).uncounted = b.bodyRegs e n k := by
  rcases plain with rfl | rfl | rfl | rfl
  all_goals simp only [State.bodyRegs, TurnRegs.uncounted, count_step h]

/-- One turn of a body that emits, whose source leaves the registers `r'` but for the count. -/
theorem emit_turn {source : State → Eff Pixel} (lines : b.LineOk) (width : 0 < b.width)
    (room : b.written + k < b.area) {r r' : TurnRegs} {v : Pixel}
    (emitted : source ((b.staged k r m).openAt (b.written + k)) =
      .ok v (((b.staged k r m).openAt (b.written + k)).setTurn r'.uncounted)) :
    emit source (b.staged k r m) =
      .ok () (b.staged (k + 1) r'
        (m.writeList (b.streamIndex (b.written + k) * b.pb.toNat) (Pixel.bytes b.pb v))) :=
  emit_staged lines width room emitted

/-- One turn of a body in the slot of a pixel of the raster, with its data in the stream. -/
theorem bodyTurn_staged (lines : b.LineOk) (width : 0 < b.width) (pb : b.pb ≠ .four)
    (turn : k < turnsOf e n) (room : b.written + k < b.area)
    (data : b.bodyRead e (k + 1) = 0 ∨ b.cur + b.bodyRead e (k + 1) ≤ b.inLen) :
    bodyTurn e (b.staged k (b.bodyRegs e n k) m) =
      .ok () (b.staged (k + 1) (b.bodyRegs e n (k + 1))
        (m.writeList (b.streamIndex (b.written + k) * b.pb.toNat)
          (Pixel.bytes b.pb
            (b.bodyPixel e k ((b.staged k (b.bodyRegs e n k) m).aboveAt (b.written + k)))))) := by
  have width' : ∀ r, 0 < (b.staged k r m).width := fun r => by simpa [State.width] using width
  have room' : ∀ r, b.written + k < (b.staged k r m).area := fun r => by
    rw [State.staged_area]; exact room
  cases e with
  | bicolour => exact bicolourTurn_staged lines width room
  | fom =>
    refine emit_turn lines width room ?_
    have masks : b.fixed = none → b.cur + b.masksRead (k + 1) ≤ b.inLen := by
      intro stream
      have some_ : b.masksRead (k + 1) ≠ 0 := by
        simp only [State.masksRead, stream, Option.isSome_none, Bool.false_eq_true, if_false]
        omega
      exact data.resolve_left some_
    refine (fomPixel_staged width room masks).trans ?_
    rw [State.mixAt_eq, State.staged_mix, State.fillAt, ← count_step (show k < n from turn)]
    rfl
  | fill =>
    refine emit_turn lines width room ((fillSource_openAt (width' _) (room' _)).trans ?_)
    rw [State.mixAt_eq, State.staged_mix, State.fillAt]
    have uncount := count_step (show k < n from turn)
    by_cases first : k = 0
    · simp only [State.bodyRegs, State.bodyPixel, TurnRegs.uncounted, first, State.staged_insert,
        if_true, true_and] at uncount ⊢
      rw [uncount]
      rfl
    · simp only [State.bodyRegs, State.bodyPixel, TurnRegs.uncounted, first, State.staged_insert,
        if_false, false_and, uncount]
      rfl
  | mix =>
    refine emit_turn lines width room ((mixPix_openAt (width' _) (room' _)).trans ?_)
    rw [State.mixAt_eq, State.staged_mix, State.bodyRegs_uncounted (n := n) turn (.inl rfl)]
    rfl
  | colour =>
    refine emit_turn lines width room ?_
    rw [State.bodyRegs_uncounted (n := n) turn (.inr (.inl rfl)), colourSource]
    exact congrArg (Eff.ok · _) (State.staged_colour2 b k (b.bodyRegs .colour n k) m)
  | copy =>
    have cur : (b.staged k (b.bodyRegs .copy n k) m).cur = b.cur + k * b.pb.toNat := rfl
    have bytes : b.cur + k * b.pb.toNat + b.pb.toNat ≤ b.inLen := by
      have here := data.resolve_left (by simp [State.bodyRead, (PixelBytes.toNat_pos b.pb).ne'])
      simpa only [State.bodyRead, Nat.succ_mul, Nat.add_assoc] using here
    refine emit_turn lines width room ((copySource_openAt ?_ ?_).trans ?_)
    · rwa [State.staged_pb]
    · rwa [cur, State.staged_pb, State.staged_inLen]
    · rw [State.staged_streamPixel, cur, State.staged_pb]
      simp only [State.bodyRegs, TurnRegs.uncounted, Nat.succ_mul, count_step (show k < n from turn),
        ← Nat.add_assoc]
      rfl
  | white =>
    refine emit_turn lines width room ?_
    rw [State.bodyRegs_uncounted (n := n) turn (.inr (.inr (.inl rfl))), whiteSource]
    exact congrArg (fun pb => Eff.ok (Pixel.ones pb) _) (State.staged_pb b k (b.bodyRegs .white n k) m)
  | black =>
    refine emit_turn lines width room ?_
    rw [State.bodyRegs_uncounted (n := n) turn (.inr (.inr (.inr rfl)))]
    rfl

end

/-! ## How far a body runs -/

/-- The state a body begun in `b` has come to after `k` pixels with buffer `m`. -/
def State.bodyAt (b : State) (e : EffOp) (n k : Nat) (m : Memory) : State :=
  b.staged k (b.bodyRegs e n k) m

/-- A body comes to its first `k` pixels where the raster has room for them and the stream their data, and
has written them. -/
theorem bodyLoop_comes {b : State} {e : EffOp} {n k : Nat} (begun : Begun b e n) (lines : b.LineOk)
    (width : 0 < b.width) (pb : b.pb ≠ .four) (turns : k ≤ turnsOf e n) (room : b.written + k ≤ b.area)
    (data : b.bodyRead e k = 0 ∨ b.cur + b.bodyRead e k ≤ b.inLen) :
    ∃ m, (∀ fuel, bodyLoop (bodyTurn e) (fuel + k) b = bodyLoop (bodyTurn e) fuel (b.bodyAt e n k m)) ∧
      WrotePixels b (b.bodyAt e n k m) k
        fun j => b.bodyPixel e j ((b.bodyAt e n k m).aboveAt (b.written + j)) := by
  have less : ∀ j, j < k → b.bodyRead e (j + 1) = 0 ∨ b.cur + b.bodyRead e (j + 1) ≤ b.inLen := by
    intro j hj
    have mono := b.bodyRead_mono e (show j + 1 ≤ k from hj)
    omega
  obtain ⟨m, run, _, wrote⟩ := bodyLoop_run (turn := bodyTurn e) width room (b.bodyRegs e n)
    (b.bodyPixel e) (fun j hj => State.bodyRegs_count_ne (by omega))
    (fun j m hj => bodyTurn_staged lines width pb (by omega) (by omega) (less j hj)) k (Nat.le_refl k)
  rw [begun.bodyRegs_zero, State.staged_zero] at run
  exact ⟨m, run, wrote⟩

end Sys2Proof.Machine
end

section
/-! The scanline orders complete (42_scanline_orders.md sections 2 to 5): one theorem for every valid order,
and from it the statement of each. -/

namespace Sys2Proof.Machine

/-! ## An order that has begun -/

/-- The state in which an order's body begins (42_scanline_orders.md R105). -/
def State.begunAs (s : State) (op : Nat) (e : EffOp) (n : Nat) : State := (s.started op n).latchOp e

/-- The valid header opcodes and their effective opcodes (42_scanline_orders.md R104). -/
theorem effOp_cases {op : Nat} {e : EffOp} (valid : effOp op = some e) :
    op = 0 ∧ e = .fill ∨ op = 1 ∧ e = .mix ∨ op = 2 ∧ e = .fom ∨ op = 3 ∧ e = .colour ∨
    op = 4 ∧ e = .copy ∨ op = 6 ∧ e = .mix ∨ op = 7 ∧ e = .fom ∨ op = 8 ∧ e = .bicolour ∨
    op = 9 ∧ e = .fom ∨ op = 0xA ∧ e = .fom ∨ op = 0xD ∧ e = .white ∨ op = 0xE ∧ e = .black := by
  unfold effOp at valid
  split at valid <;> cases valid <;> simp

theorem State.started_cur (s : State) (op n : Nat) :
    (s.started op n).cur = s.cur + operandsOf op * s.pb.toNat := by
  unfold State.started operandsOf
  split <;> simp [State.beginOrder]

/-- The registers an order's start may write. -/
theorem State.started_same (s : State) (op n : Nat) :
    s.started op n = { s.beginOrder n with
      cur := (s.started op n).cur, insert := (s.started op n).insert, fixed := (s.started op n).fixed
      toggle := (s.started op n).toggle, mix := (s.started op n).mix
      colour1 := (s.started op n).colour1, colour2 := (s.started op n).colour2 } := by
  unfold State.started
  split <;> rfl

theorem State.started_begun {s : State} {op n : Nat} {e : EffOp} (valid : effOp op = some e) :
    Begun (s.begunAs op e n) e n := by
  have same := s.started_same op n
  refine ⟨?_, ?_, fun bicolour => ?_⟩
  · rw [State.begunAs, same]; rfl
  · rw [State.begunAs, same]; rfl
  · have isEight : op = 8 := by
      have cases_ := effOp_cases valid
      simp only [bicolour, reduceCtorEq, and_false, and_true, false_or, or_false] at cases_
      exact cases_
    rw [State.begunAs, isEight]
    rfl

/-- What stays at an order's start. -/
theorem State.begunAs_still (s : State) (op n : Nat) (e : EffOp) : SameLines s (s.begunAs op e n) := by
  have same := s.started_same op n
  rw [State.begunAs, same]
  exact SameLines.refl s

theorem State.begunAs_inLen (s : State) (op n : Nat) (e : EffOp) :
    (s.begunAs op e n).inLen = s.inLen := by
  rw [State.begunAs, State.started_same]
  rfl

/-- The body of an order reads what the lengths of 30_encoding.md R73 say. -/
theorem State.begunAs_bodyRead {i : Instr} {op : Nat} {e : EffOp} (opcode : headerOpcode i = some op)
    (valid : effOp op = some e) (s : State) (n k : Nat) :
    (s.begunAs op e n).bodyRead e k = bodyBytesFor s.pb i k := by
  rw [bodyBytesFor, opcode]
  rcases effOp_cases valid with h | h | h | h | h | h | h | h | h | h | h | h
  all_goals
    obtain ⟨rfl, rfl⟩ := h
    rfl

theorem turnsOf_eq {i : Instr} {op : Nat} {e : EffOp} (opcode : headerOpcode i = some op)
    (valid : effOp op = some e) : turnsOf e (headerCount i) = pixelsOf i := by
  cases i <;> cases opcode <;> cases valid <;> rfl

/-- The state of an order of effective opcode `e` after `k` pixels: the lines `k` pixels on, and the registers
the order's start and turns write. -/
def State.ordered (s b : State) (e : EffOp) (k : Nat) (r : TurnRegs) (m : Memory) : State :=
  { s with
    x := (s.moved k).x, rowsLeft := (s.moved k).rowsLeft, line := (s.moved k).line
    prevLine := (s.moved k).prevLine, op := e, lastOp := some e
    cur := r.cur, mask := r.mask, mixMask := r.mixMask, insert := r.insert, toggle := r.toggle
    count := r.count, fixed := b.fixed, mix := b.mix, colour1 := b.colour1, colour2 := b.colour2
    pixels := m }

theorem State.begunAs_staged (s : State) (op n : Nat) (e : EffOp) (k : Nat) (r : TurnRegs) (m : Memory) :
    (s.begunAs op e n).staged k r m = s.ordered (s.begunAs op e n) e k r m := by
  rw [State.begunAs, State.started_same]
  generalize s.started op n = b
  by_cases none_ : k = 0
  · simp only [State.staged, State.ordered, State.moved, if_pos none_]
    rfl
  · simp only [State.staged, State.ordered, State.moved, if_neg none_]
    rfl

/-- A valid order runs its body from the state its start leaves. -/
theorem exec_begun {i : Instr} {op : Nat} {e : EffOp} (opcode : headerOpcode i = some op)
    (valid : effOp op = some e) {s : State} (phase : s.phase = .scan) (pb : s.pb ≠ .four)
    (operands : operandsOf op = 0 ∨ s.cur + operandsOf op * s.pb.toNat ≤ s.inLen) :
    exec i s = (bodyLoop (bodyTurn e) (2 * headerCount i) (s.begunAs op e (headerCount i))).outcome := by
  have count : ((s.started op (headerCount i)).latchOp e).count = headerCount i :=
    (State.started_begun (s := s) valid).count
  rw [exec_order opcode valid, inScan_eq phase pb, runOrder, startOf_ok _ pb operands, Eff.andThen_ok,
    orderBody, count]
  rfl

/-- A valid order comes to its first `k` pixels where the raster has room for them and the stream the
operands and their data, and has written them. -/
theorem exec_comes {i : Instr} {op : Nat} {e : EffOp} (opcode : headerOpcode i = some op)
    (valid : effOp op = some e) {s : State} (ok : s.ScanOk) {k : Nat}
    (turns : k ≤ turnsOf e (headerCount i)) (room : s.written + k ≤ s.area)
    (operands : operandsOf op = 0 ∨ s.cur + operandsOf op * s.pb.toNat ≤ s.inLen)
    (data : (s.begunAs op e (headerCount i)).bodyRead e k = 0 ∨
      (s.begunAs op e (headerCount i)).cur + (s.begunAs op e (headerCount i)).bodyRead e k ≤ s.inLen) :
    ∃ m, exec i s = (bodyLoop (bodyTurn e) (2 * headerCount i - k)
        ((s.begunAs op e (headerCount i)).bodyAt e (headerCount i) k m)).outcome ∧
      WrotePixels s ((s.begunAs op e (headerCount i)).bodyAt e (headerCount i) k m) k fun j =>
        (s.begunAs op e (headerCount i)).bodyPixel e j
          (((s.begunAs op e (headerCount i)).bodyAt e (headerCount i) k m).aboveAt (s.written + j)) := by
  obtain ⟨phase, pb, width, lines⟩ := ok
  have still := s.begunAs_still op (headerCount i) e
  have begun := exec_begun opcode valid phase pb operands
  have inLen := s.begunAs_inLen op (headerCount i) e
  have ready := State.started_begun (s := s) (n := headerCount i) valid
  have fuel := turnsOf_le e (headerCount i)
  generalize s.begunAs op e (headerCount i) = b at still begun inLen ready data ⊢
  have lines' := still.lineOk lines
  obtain ⟨x, rows, _, _, pixels, srcW, srcH, pb', _⟩ := still
  have written : b.written = s.written := by
    simp only [State.written, State.width, State.height, x, rows, srcW, srcH]
  have area : b.area = s.area := by simp only [State.area, State.width, State.height, srcW, srcH]
  have index : b.streamIndex = s.streamIndex := by
    funext p
    simp only [State.streamIndex, State.width, State.height, srcW, srcH]
  have width' : 0 < b.width := by simpa only [State.width, srcW] using width
  obtain ⟨m, run, wrote⟩ := bodyLoop_comes ready lines' width' (pb'.trans_ne pb) turns
    (by rw [written, area]; exact room) (by rw [inLen]; exact data)
  refine ⟨m, ?_, ?_⟩
  · rw [begun, ← run, Nat.sub_add_cancel (turns.trans fuel)]
  · simpa only [WrotePixels, written, index, pb', pixels] using wrote

theorem State.count_zero {s : State} (h : s.count = 0) : s = { s with count := 0 } := by
  rw [← h]

/-- A valid order completes where the raster has room for its pixels and the stream the bytes it reads. -/
theorem exec_completes {i : Instr} {op : Nat} {e : EffOp} (opcode : headerOpcode i = some op)
    (valid : effOp op = some e) {s : State} (ok : s.ScanOk)
    (room : s.written + turnsOf e (headerCount i) ≤ s.area)
    (operands : operandsOf op = 0 ∨ s.cur + operandsOf op * s.pb.toNat ≤ s.inLen)
    (data : (s.begunAs op e (headerCount i)).bodyRead e (turnsOf e (headerCount i)) = 0 ∨
      (s.begunAs op e (headerCount i)).cur +
        (s.begunAs op e (headerCount i)).bodyRead e (turnsOf e (headerCount i)) ≤ s.inLen) :
    ∃ t, exec i s = .next t ∧
      t = { s.ordered (s.begunAs op e (headerCount i)) e (turnsOf e (headerCount i))
        ((s.begunAs op e (headerCount i)).bodyRegs e (headerCount i) (turnsOf e (headerCount i)))
        t.pixels with count := 0 } ∧
      WrotePixels s t (turnsOf e (headerCount i)) fun j =>
        (s.begunAs op e (headerCount i)).bodyPixel e j (t.aboveAt (s.written + j)) := by
  have last := (s.begunAs op e (headerCount i)).bodyRegs_count_last e (headerCount i)
  obtain ⟨m, runs, wrote⟩ := exec_comes opcode valid ok (Nat.le_refl _) room operands data
  refine ⟨_, runs.trans ?_, ?_, wrote⟩
  · rw [bodyLoop_done (by exact last)]
    rfl
  · rw [State.bodyAt, s.begunAs_staged op]
    exact State.count_zero last

theorem WrotePixels.congr {s t : State} {n : Nat} {v w : Nat → Pixel} (h : WrotePixels s t n v)
    (same : ∀ k, k < n → v k = w k) : WrotePixels s t n w := by
  obtain ⟨new, old⟩ := h
  exact ⟨fun k hk => same k hk ▸ new k hk, old⟩

/-! ## The statements of each order -/

/-- An order moves the line registers on; every other register of it has its value. -/
theorem State.afterOrder_eq (s : State) (n : Nat) (e : EffOp) :
    s.afterOrder n e = { s with
      x := (s.moved n).x, rowsLeft := (s.moved n).rowsLeft, line := (s.moved n).line
      prevLine := (s.moved n).prevLine, count := 0, mixMask := 0, fixed := none, insert := false
      op := e, lastOp := some e } := by
  by_cases none_ : n = 0
  · simp only [State.afterOrder, State.moved, if_pos none_]
  · simp only [State.afterOrder, State.moved, if_neg none_]

/-- Settles O28: the order before decides the first pixel, and the flag is down after it. -/
theorem fillOrders : Obligations.FillOrders := by
  intro i row s ok room
  have opcode : headerOpcode i = some 0 := by rcases row with ⟨c, rfl⟩ | ⟨m, rfl⟩ <;> rfl
  obtain ⟨t, next, eq, wrote⟩ := exec_completes opcode rfl ok room (.inl rfl) (.inl rfl)
  have mix : t.mix = s.mix := by rw [eq]; rfl
  refine ⟨t, next, eq.trans ?_, wrote.congr fun k _ => ?_⟩
  · rw [State.afterOrder_eq]
    rfl
  · show (if k = 0 ∧ insertFlag s = true then mixOver s.mix _ else _) = _
    rw [State.mixAt_eq, mix]
    by_cases first : k = 0 ∧ insertFlag s = true
    · rw [if_pos first, if_pos first, first.1]
      rfl
    · rw [if_neg first, if_neg first]
      rfl

/-- Settles O29: the source of each turn is the mix pixel. -/
theorem mixOrders : Obligations.MixOrders := by
  intro i row s ok room
  have opcode : headerOpcode i = some 1 := by rcases row with ⟨c, rfl⟩ | ⟨m, rfl⟩ <;> rfl
  obtain ⟨t, next, eq, wrote⟩ := exec_completes opcode rfl ok room (.inl rfl) (.inl rfl)
  have mix : t.mix = s.mix := by rw [eq]; rfl
  refine ⟨t, next, eq.trans ?_, wrote.congr fun k _ => ?_⟩
  · rw [State.afterOrder_eq]
    rfl
  · rw [State.mixAt_eq, mix]
    rfl

/-- Settles O30: `MIX` is loaded at the order's start. -/
theorem setmixMixOrders : Obligations.SetmixMixOrders := by
  intro i row s ok room data
  have opcode : headerOpcode i = some 6 := by rcases row with ⟨c, rfl⟩ | ⟨m, rfl⟩ <;> rfl
  obtain ⟨t, next, eq, wrote⟩ := exec_completes opcode rfl ok room
    (.inr (by simpa [operandsOf] using data)) (.inl rfl)
  have mix : t.mix = s.streamPixel s.cur := by rw [eq]; rfl
  refine ⟨t, next, eq.trans ?_, wrote.congr fun k _ => ?_⟩
  · rw [State.afterOrder_eq]
    rfl
  · rw [State.mixAt_eq, mix]
    rfl

/-- Settles O31: the body reads one mask byte before each eighth pixel. -/
theorem fomOrders : Obligations.FomOrders := by
  intro i row s ok room data
  have opcode : headerOpcode i = some 2 := by rcases row with ⟨c, rfl⟩ | ⟨m, rfl⟩ <;> rfl
  obtain ⟨t, next, eq, wrote⟩ := exec_completes opcode rfl ok room (.inl rfl) (.inr data)
  have mix : t.mix = s.mix := by rw [eq]; rfl
  refine ⟨t, next, eq.trans ?_, wrote.congr fun k _ => ?_⟩
  · rw [State.afterOrder_eq]
    rfl
  · rw [State.mixAt_eq, mix]
    rfl

/-- Settles O32: `MIX` is loaded at the order's start, and the mask bytes follow it. -/
theorem setmixFomOrders : Obligations.SetmixFomOrders := by
  intro i row s ok room data
  have opcode : headerOpcode i = some 7 := by rcases row with ⟨c, rfl⟩ | ⟨m, rfl⟩ <;> rfl
  obtain ⟨t, next, eq, wrote⟩ := exec_completes opcode rfl ok room
    (.inr (by simpa [operandsOf] using (Nat.le_add_right _ _).trans data)) (.inr data)
  have mix : t.mix = s.streamPixel s.cur := by rw [eq]; rfl
  refine ⟨t, next, eq.trans ?_, wrote.congr fun k _ => ?_⟩
  · rw [State.afterOrder_eq]
    rfl
  · rw [State.mixAt_eq, mix]
    rfl

/-- What FOM_S1 and FOM_S2 share: their header opcode starts eight turns under a fixed mask. -/
theorem fixedFom_started {i : Instr} {m : Byte} (row : i = .fomS1 ∧ m = 0x03 ∨ i = .fomS2 ∧ m = 0x05)
    (s : State) : headerCount i = 8 ∧ ∃ op, headerOpcode i = some op ∧ effOp op = some .fom ∧
      operandsOf op = 0 ∧ s.started op 8 = { s.beginOrder 8 with fixed := some m } := by
  rcases row with ⟨rfl, rfl⟩ | ⟨rfl, rfl⟩
  · exact ⟨rfl, 9, rfl, rfl, rfl, rfl⟩
  · exact ⟨rfl, 0xA, rfl, rfl, rfl, rfl⟩

/-- Settles O33: the order's start sets the fixed mask, so the body reads no byte. -/
theorem fixedFomOrders : Obligations.FixedFomOrders := by
  intro i m row s ok room
  obtain ⟨count, op, opcode, valid, operands, started⟩ := fixedFom_started row s
  have begun : s.begunAs op .fom 8 = { s.beginOrder 8 with
      fixed := some m, op := .fom, lastOp := some .fom } := by
    rw [State.begunAs, started]
    rfl
  obtain ⟨t, next, eq, wrote⟩ := exec_completes opcode valid ok (by rw [count]; exact room)
    (.inl operands) (by rw [count, begun]; exact .inl rfl)
  rw [count, begun] at eq wrote
  have mix : t.mix = s.mix := by rw [eq]; rfl
  refine ⟨t, next, eq.trans ?_, wrote.congr fun k hk => ?_⟩
  · rw [State.afterOrder_eq]
    rfl
  · show (if m.getLsbD (k % 8) then mixOver s.mix _ else _) = _
    rw [State.mixAt_eq, mix, Nat.mod_eq_of_lt (show k < 8 from hk)]
    rfl

/-- Settles O34: `COLOUR2` is loaded at the order's start. -/
theorem colourOrders : Obligations.ColourOrders := by
  intro i row s ok room data
  have opcode : headerOpcode i = some 3 := by rcases row with ⟨c, rfl⟩ | ⟨m, rfl⟩ <;> rfl
  obtain ⟨t, next, eq, wrote⟩ := exec_completes opcode rfl ok room
    (.inr (by simpa [operandsOf] using data)) (.inl rfl)
  refine ⟨t, next, eq.trans ?_, wrote⟩
  rw [State.afterOrder_eq]
  rfl

/-- Settles O35: each turn reads the next literal. -/
theorem copyOrders : Obligations.CopyOrders := by
  intro i row s ok room data
  have opcode : headerOpcode i = some 4 := by rcases row with ⟨c, rfl⟩ | ⟨m, rfl⟩ <;> rfl
  obtain ⟨t, next, eq, wrote⟩ := exec_completes opcode rfl ok room (.inl rfl) (.inr data)
  refine ⟨t, next, eq.trans ?_, wrote⟩
  rw [State.afterOrder_eq]
  rfl

/-- The toggle after the last pixel of a Bicolour order: its number of pixels is odd, or 0. -/
theorem bicolourRegs_toggle_last (b : State) (n : Nat) :
    (b.bicolourRegs n (2 * n - 1)).toggle = if n = 0 then .second else .first := by
  show (if (2 * n - 1) % 2 = 0 then Toggle.second else .first) = _
  by_cases none_ : n = 0
  · simp [none_]
  · rw [if_neg (by omega), if_neg none_]

/-- Settles O36: both colours are loaded at the order's start, and a count of `N` is `2N - 1` turns. -/
theorem bicolourOrders : Obligations.BicolourOrders := by
  intro i row s ok room data
  have opcode : headerOpcode i = some 8 := by rcases row with ⟨c, rfl⟩ | ⟨m, rfl⟩ <;> rfl
  obtain ⟨t, next, eq, wrote⟩ := exec_completes opcode rfl ok room (.inr data) (.inl rfl)
  refine ⟨t, next, eq.trans ?_, wrote⟩
  rw [State.afterOrder_eq, ← bicolourRegs_toggle_last s]
  rfl

/-- Settles O37: WHITE and BLACK are one turn each. -/
theorem whiteBlackOrders : Obligations.WhiteBlackOrders := by
  intro s ok room
  constructor
  · obtain ⟨t, next, eq, wrote⟩ := exec_completes (i := .white) rfl rfl ok room (.inl rfl) (.inl rfl)
    refine ⟨t, next, eq.trans ?_, wrote.congr fun k _ => ?_⟩
    · rw [State.afterOrder_eq]
      rfl
    · show Pixel.ones s.pb = _
      obtain ⟨_, pb, _, _⟩ := ok
      revert pb
      cases s.pb with
      | two => exact fun _ => rfl
      | three => exact fun _ => rfl
      | four => exact fun pb => absurd rfl pb
  · obtain ⟨t, next, eq, wrote⟩ := exec_completes (i := .black) rfl rfl ok room (.inl rfl) (.inl rfl)
    refine ⟨t, next, eq.trans ?_, wrote⟩
    rw [State.afterOrder_eq]
    rfl

end Sys2Proof.Machine
end

section
/-! Where a valid order stops (41_scanline_engine.md R93; 42_scanline_orders.md R106, R111; 20_memory.md R43):
in the slot of the first pixel that has no place, or at the first byte the stream does not hold. -/

namespace Sys2Proof.Machine

/-! ## What an order that fails leaves -/

/-- A scanline instruction that fails answers the failure at the order's start. -/
theorem exec_scan_failed {i : Instr} (place : i.ctx = .scan) {s t : State} (next : exec i s = .next t)
    (failed : t.phase = .failed) : t.errPos = s.orderStart ∧ t.outLen = 0 ∧ t.out = s.out := by
  obtain ⟨phase, _, frame | ⟨u, e, frame, rfl⟩⟩ := exec_scan_next place next
  · have same : t.phase = s.phase := by
      rw [frame.same]
      rfl
    rw [same, phase] at failed
    cases failed
  · have out : u.out = s.out := by
      rw [frame.same]
      rfl
    exact ⟨rfl, rfl, out⟩

theorem ctx_of_headerOpcode {i : Instr} {op : Nat} (opcode : headerOpcode i = some op) : i.ctx = .scan := by
  cases i with
  | marker | long16 | long32 | raw => cases opcode
  | _ => rfl

/-- The engine has written no more pixels than the raster has. -/
theorem State.LineOk.written_le {s : State} (lines : s.LineOk) : s.written ≤ s.area := by
  obtain ⟨column, ⟨_, full, rows, _⟩ | ⟨_, open_, _⟩⟩ := lines
  · rw [State.written, full, rows, Nat.sub_self, Nat.zero_mul]
    omega
  · obtain ⟨row, height⟩ : ∃ row, s.height = row + 1 + s.rowsLeft :=
      ⟨s.height - s.rowsLeft - 1, by omega⟩
    have done : s.height - s.rowsLeft - 1 = row := by omega
    calc s.written = row * s.width + s.x := by rw [State.written_of_line open_, done]
      _ ≤ row * s.width + s.width := Nat.add_le_add_left column _
      _ = s.width * (row + 1) := by rw [Nat.mul_succ, Nat.mul_comm]
      _ ≤ s.area := Nat.mul_le_mul_left _ (by omega)

/-! ## The turn that fails -/

theorem Eff.andThen_of_failed {α β : Type} {run : Eff α} {v : State} (failed : run = .failed v)
    (next : α → State → Eff β) : run.andThen next = .failed v := by
  rw [failed, Eff.andThen_failed]

/-- A body whose next turn fails ends in that failure. -/
theorem bodyLoop_failed {turn : State → Eff Unit} {s v : State} {fuel : Nat} (more : s.count ≠ 0)
    (left : 0 < fuel) (failed : turn s = .failed v) : bodyLoop turn fuel s = .failed v := by
  obtain ⟨rest, rfl⟩ := Nat.exists_eq_succ_of_ne_zero left.ne'
  rw [bodyLoop, if_neg more, failed, Eff.andThen_failed]

/-- An order that comes to pixel `k` and fails in its turn answers that failure. -/
theorem exec_stops {i : Instr} {op : Nat} {e : EffOp} (opcode : headerOpcode i = some op)
    (valid : effOp op = some e) {s : State} (ok : s.ScanOk) {k : Nat}
    (turn : k < turnsOf e (headerCount i)) (room : s.written + k ≤ s.area)
    (operands : operandsOf op = 0 ∨ s.cur + operandsOf op * s.pb.toNat ≤ s.inLen)
    (data : (s.begunAs op e (headerCount i)).cur +
      (s.begunAs op e (headerCount i)).bodyRead e k ≤ s.inLen) :
    ∃ m, ∀ v, bodyTurn e ((s.begunAs op e (headerCount i)).bodyAt e (headerCount i) k m) = .failed v →
      exec i s = .next v := by
  obtain ⟨m, runs, _⟩ := exec_comes opcode valid ok (Nat.le_of_lt turn) room operands (.inr data)
  refine ⟨m, fun v failed => ?_⟩
  have turns := turnsOf_le e (headerCount i)
  rw [runs, bodyLoop_failed (State.bodyRegs_count_ne turn) (by omega) failed]
  rfl

/-- A turn whose slot fails fails before anything of its pixel is read. -/
theorem bodyTurn_slot_failed {e : EffOp} {s v : State} (failed : slot s = .failed v) :
    bodyTurn e s = .failed v := by
  have emits : ∀ source, emit source s = .failed v := fun source => by
    rw [emit, failed, Eff.andThen_failed]
  cases e with
  | bicolour => rw [bodyTurn, bicolourTurn, failed, Eff.andThen_failed]
  | _ => exact emits _

/-- The states of a body keep the lines of the state it begins in. -/
theorem State.ScanOk.begunAs {s : State} (ok : s.ScanOk) (op : Nat) (e : EffOp) (n : Nat) :
    (s.begunAs op e n).LineOk ∧ 0 < (s.begunAs op e n).width ∧ (s.begunAs op e n).pb ≠ .four ∧
      (s.begunAs op e n).written = s.written ∧ (s.begunAs op e n).area = s.area := by
  obtain ⟨_, pb, width, lines⟩ := ok
  have still := s.begunAs_still op n e
  have lines' := still.lineOk lines
  obtain ⟨x, rows, _, _, _, srcW, srcH, pb', _⟩ := still
  refine ⟨lines', by simpa only [State.width, srcW] using width, pb'.trans_ne pb, ?_, ?_⟩
  · simp only [State.written, State.width, State.height, x, rows, srcW, srcH]
  · simp only [State.area, State.width, State.height, srcW, srcH]

/-- A body that has come to pixel `k` stands there, on the raster it began on. -/
theorem State.bodyAt_lines {b : State} {e : EffOp} {n k : Nat} (lines : b.LineOk) (width : 0 < b.width)
    (room : b.written + k ≤ b.area) (m : Memory) :
    (b.bodyAt e n k m).LineOk ∧ 0 < (b.bodyAt e n k m).width ∧
      (b.bodyAt e n k m).written = b.written + k ∧ (b.bodyAt e n k m).area = b.area := by
  obtain ⟨lines', written⟩ := State.staged_written lines room width (b.bodyRegs e n k) m
  exact ⟨lines', by simpa [State.bodyAt, State.width] using width, written, b.staged_area ..⟩

/-- Settles O40: the order comes to the last pixel that has a place, and the slot of the next one fails. -/
theorem orderOverflows : Obligations.OrderOverflows := by
  intro i op opcode valid s ok overflow data
  obtain ⟨e, valid⟩ := Option.isSome_iff_exists.mp valid
  obtain ⟨lines, width, _, written, area⟩ := ok.begunAs op e (headerCount i)
  have before : s.written ≤ s.area := State.LineOk.written_le ok.2.2.2
  have place := s.begunAs_bodyRead opcode valid (headerCount i) (s.area - s.written)
  have operands := operandPixels_eq opcode
  have start : (s.begunAs op e (headerCount i)).cur = s.cur + operandsOf op * s.pb.toNat :=
    s.started_cur op (headerCount i)
  rw [dataBytesFor, operands] at data ⊢
  obtain ⟨m, stops⟩ := exec_stops opcode valid ok (k := s.area - s.written)
    (by rw [turnsOf_eq opcode valid]; omega) (by omega) (.inr (by omega))
    (by rw [place, start]; omega)
  have cur := (s.begunAs op e (headerCount i)).bodyRegs_cur e (headerCount i) (s.area - s.written)
  rw [start, place] at cur
  generalize s.begunAs op e (headerCount i) = b at lines width written area stops cur
  obtain ⟨lines', width', full, area'⟩ := State.bodyAt_lines (e := e) (n := headerCount i) lines width
    (k := s.area - s.written) (by omega) m
  have next := stops _ (bodyTurn_slot_failed (slot_overflow lines' width' (by omega)))
  obtain ⟨errPos, outLen, out⟩ := exec_scan_failed (ctx_of_headerOpcode opcode) next rfl
  refine ⟨_, next, rfl, rfl, errPos, outLen, out, ?_, ?_⟩
  · show (b.bodyAt e (headerCount i) (s.area - s.written) m).written = _
    omega
  · exact cur.trans (Nat.add_assoc _ _ _)

/-! ## The stream ends -/

/-- The failure at the end of the stream: every byte of it has been read (20_memory.md R43). -/
structure EndsShort (inLen : Nat) (v : State) : Prop where
  phase : v.phase = .failed
  status : v.status = .error .streamUnderrun
  cur : v.cur = inLen

/-- A pixel the stream does not hold whole. -/
theorem readPixel_short {s : State} (pb : s.pb ≠ .four) (cur : s.cur ≤ s.inLen)
    (short : s.inLen < s.cur + s.pb.toNat) : ∃ v, readPixel s = .failed v ∧ EndsShort s.inLen v :=
  ⟨_, readPixel_underrun pb cur short, rfl, rfl, Nat.add_sub_of_le cur⟩

/-- The operands of an order end in the middle of the stream. -/
theorem startOf_short {s : State} {op : Nat} (n : Nat) (pb : s.pb ≠ .four) (cur : s.cur ≤ s.inLen)
    (short : s.inLen < s.cur + operandsOf op * s.pb.toNat) :
    ∃ v, startOf op (s.beginOrder n) = .failed v ∧ EndsShort s.inLen v := by
  have onePixel : s.inLen < s.cur + 1 * s.pb.toNat →
      ∃ v, readPixel (s.beginOrder n) = .failed v ∧ EndsShort s.inLen v := fun h =>
    readPixel_short (s := s.beginOrder n) pb cur (by simpa using h)
  have noPixel : s.inLen < s.cur + 0 * s.pb.toNat → False := by omega
  unfold startOf
  split
  · exact (noPixel short).elim
  · obtain ⟨v, failed, ends⟩ := onePixel short
    exact ⟨v, by rw [startColour, failed, Eff.andThen_failed], ends⟩
  · obtain ⟨v, failed, ends⟩ := onePixel short
    exact ⟨v, by rw [startSetMix, failed, Eff.andThen_failed], ends⟩
  · obtain ⟨v, failed, ends⟩ := onePixel short
    exact ⟨v, by rw [startSetMix, failed, Eff.andThen_failed], ends⟩
  · have short2 : s.inLen < s.cur + 2 * s.pb.toNat := short
    by_cases first : s.cur + s.pb.toNat ≤ s.inLen
    · have read := readPixel_ok (s := s.beginOrder n) pb first
      obtain ⟨v, failed, ends⟩ := readPixel_short
        (s := { (s.beginOrder n).advance s.pb.toNat with colour1 := s.streamPixel s.cur }) pb first
        (show s.inLen < s.cur + s.pb.toNat + s.pb.toNat by omega)
      refine ⟨v, ?_, ends⟩
      rw [startBicolour, read, Eff.andThen_ok]
      exact Eff.andThen_of_failed failed _
    · obtain ⟨v, failed, ends⟩ := onePixel (by omega)
      exact ⟨v, by rw [startBicolour, failed, Eff.andThen_failed], ends⟩
  · exact (noPixel short).elim
  · exact (noPixel short).elim
  · have none_ : operandsOf op = 0 := by
      unfold operandsOf
      split
      case h_5 => rfl
      all_goals contradiction
    rw [none_] at short
    exact (noPixel short).elim

/-- A turn that emits fails with its source. -/
theorem emit_source_failed {source : State → Eff Pixel} {s v : State} (lines : s.LineOk)
    (width : 0 < s.width) (room : s.written < s.area)
    (failed : source (s.openAt s.written) = .failed v) : emit source s = .failed v := by
  rw [emit, slot_ok lines width room, Eff.andThen_ok, failed, Eff.andThen_failed]

/-- A mask byte due at the end of the stream. -/
theorem nextMaskBit_short {s : State} (due : shiftCursor s.mixMask = 0) (stream : s.fixed = none)
    (atEnd : s.cur = s.inLen) : ∃ v, nextMaskBit s = .failed v ∧ EndsShort s.inLen v := by
  have read := readByte_underrun (s := { s with mixMask := 0 }) atEnd.ge
  refine ⟨{ s with mixMask := 0 }.failEntry .streamUnderrun s.orderStart, ?_, rfl, rfl, atEnd⟩
  rw [nextMaskBit, if_pos due]
  split
  next mask fixed =>
    rw [stream] at fixed
    cases fixed
  next => exact Eff.andThen_of_failed read _

/-- Where a body of `b` has read all the mask bytes the stream holds, the next one is missing. -/
theorem fomPixel_short {b : State} {n k p : Nat} {m : Memory}
    (cur : b.cur + b.masksRead k ≤ b.inLen) (short : b.inLen < b.cur + b.masksRead (k + 1)) :
    ∃ v, fomPixel ((b.staged k (b.fomRegs n k) m).openAt p) = .failed v ∧ EndsShort b.inLen v := by
  cases fixed : b.fixed with
  | some mask => simp [State.masksRead, fixed] at cur short; omega
  | none =>
    simp only [State.masksRead, fixed, Option.isSome_none, Bool.false_eq_true, if_false] at cur short
    have atEighth : k % 8 = 0 := by omega
    have atEnd : b.cur + (k + 7) / 8 = b.inLen := by omega
    have cursor : (b.fomRegs n k).cur = b.inLen := by
      rw [← atEnd]
      simp [State.fomRegs, State.masksRead, fixed]
    have moved : shiftCursor (b.fomRegs n k).mixMask = 0 := by
      by_cases first : k = 0
      · simp [State.fomRegs, first, shiftCursor]
      · have last : (k - 1) % 8 = 7 := by omega
        simp [State.fomRegs, first, last, shiftCursor]
    have start : ((b.staged k (b.fomRegs n k) m).openAt p).cur = b.inLen := cursor
    have inLen : ((b.staged k (b.fomRegs n k) m).openAt p).inLen = b.inLen :=
      State.staged_inLen b k (b.fomRegs n k) m
    have stream : ((b.staged k (b.fomRegs n k) m).openAt p).fixed = none :=
      (State.staged_fixed b k (b.fomRegs n k) m).trans fixed
    obtain ⟨v, failed, phase, status, stop⟩ := nextMaskBit_short (by exact moved) stream
      (start.trans inLen.symm)
    exact ⟨v, by rw [fomPixel, failed, Eff.andThen_failed], phase, status, stop.trans inLen⟩

/-- The first turn of a body whose data the stream does not hold fails at the end of it. -/
theorem bodyTurn_short {b : State} {e : EffOp} {n k : Nat} {m : Memory} (lines : b.LineOk)
    (width : 0 < b.width) (pb : b.pb ≠ .four) (room : b.written + k < b.area)
    (cur : b.cur + b.bodyRead e k ≤ b.inLen) (short : b.inLen < b.cur + b.bodyRead e (k + 1)) :
    ∃ v, bodyTurn e (b.bodyAt e n k m) = .failed v ∧ EndsShort b.inLen v := by
  have lost : ∀ source v, source ((b.bodyAt e n k m).openAt (b.written + k)) = .failed v →
      emit source (b.bodyAt e n k m) = .failed v := fun source v failed => by
    obtain ⟨lines', width', written, area⟩ := State.bodyAt_lines lines width (Nat.le_of_lt room) m
    exact emit_source_failed lines' width' (by omega) (by rw [written]; exact failed)
  cases e with
  | copy =>
    have start : (b.bodyAt .copy n k m).cur = b.cur + k * b.pb.toNat := rfl
    have inLen : (b.bodyAt .copy n k m).inLen = b.inLen := b.staged_inLen ..
    have pb' : (b.bodyAt .copy n k m).pb = b.pb := b.staged_pb ..
    simp only [State.bodyRead, Nat.succ_mul] at cur short
    obtain ⟨v, failed, phase, status, stop⟩ := readPixel_short
      (s := (b.bodyAt .copy n k m).openAt (b.written + k)) (pb'.trans_ne pb)
      (show (b.bodyAt .copy n k m).cur ≤ (b.bodyAt .copy n k m).inLen by omega)
      (show (b.bodyAt .copy n k m).inLen < (b.bodyAt .copy n k m).cur + (b.bodyAt .copy n k m).pb.toNat by
        rw [pb']; omega)
    exact ⟨v, lost _ v failed, phase, status, stop.trans inLen⟩
  | fom =>
    obtain ⟨v, failed, ends⟩ := fomPixel_short (n := n) (p := b.written + k) (m := m) cur short
    exact ⟨v, lost _ v failed, ends⟩
  | _ => exact absurd (cur.trans_lt short) (Nat.lt_irrefl _)

/-- A quantity that is at most `a` at 0 and above it at `n` passes it in some step. -/
theorem exists_crossing {f : Nat → Nat} {a n : Nat} (low : f 0 ≤ a) (high : a < f n) :
    ∃ k, k < n ∧ f k ≤ a ∧ a < f (k + 1) := by
  induction n with
  | zero => omega
  | succ n ih =>
    by_cases here : f n ≤ a
    · exact ⟨n, n.lt_succ_self, here, high⟩
    · obtain ⟨k, less, crossing⟩ := ih (by omega)
      exact ⟨k, by omega, crossing⟩

theorem State.bodyRead_zero (b : State) (e : EffOp) : b.bodyRead e 0 = 0 := by
  cases e with
  | copy => exact Nat.zero_mul _
  | fom => simp [State.bodyRead, State.masksRead]
  | _ => rfl

/-- Settles O41: either an operand pixel is missing at the order's start, or the order comes to the first of
its pixels whose data is missing. -/
theorem orderUnderruns : Obligations.OrderUnderruns := by
  intro i op opcode valid s ok cur short
  obtain ⟨e, valid⟩ := Option.isSome_iff_exists.mp valid
  suffices ends : ∃ v, exec i s = .next v ∧ EndsShort s.inLen v by
    obtain ⟨v, next, phase, status, stop⟩ := ends
    obtain ⟨errPos, outLen, out⟩ := exec_scan_failed (ctx_of_headerOpcode opcode) next phase
    exact ⟨v, next, phase, status, errPos, outLen, out, stop⟩
  rw [dataBytesFor, operandPixels_eq opcode, ← s.begunAs_bodyRead opcode valid (headerCount i)] at short
  by_cases operands : s.cur + operandsOf op * s.pb.toNat ≤ s.inLen
  · obtain ⟨lines, width, pb, written, area⟩ := ok.begunAs op e (headerCount i)
    have start : (s.begunAs op e (headerCount i)).cur = s.cur + operandsOf op * s.pb.toNat :=
      s.started_cur op (headerCount i)
    have inLen := s.begunAs_inLen op (headerCount i) e
    obtain ⟨k, less, held, missing⟩ := exists_crossing
      (f := fun k => (s.begunAs op e (headerCount i)).cur + (s.begunAs op e (headerCount i)).bodyRead e k)
      (a := s.inLen) (by simp only [State.bodyRead_zero]; omega)
      (n := min (pixelsOf i) (s.area - s.written)) (by omega)
    have turns := turnsOf_eq opcode valid
    obtain ⟨m, stops⟩ := exec_stops opcode valid ok (k := k) (by omega) (by omega) (.inr operands) held
    obtain ⟨v, failed, phase, status, stop⟩ := bodyTurn_short (n := headerCount i) (k := k) (m := m)
      lines width pb (by omega) (by rw [inLen]; exact held) (by rw [inLen]; exact missing)
    exact ⟨v, stops v failed, phase, status, stop.trans inLen⟩
  · obtain ⟨phase, pb, _⟩ := ok
    obtain ⟨v, failed, ends⟩ := startOf_short (headerCount i) pb cur (Nat.lt_of_not_le operands)
    refine ⟨v, ?_, ends⟩
    rw [exec_order opcode valid, inScan_eq phase pb, runOrder, failed, Eff.andThen_failed]
    rfl

end Sys2Proof.Machine
end

section
/-! The planar control bytes as one run (43_planar_engine.md R135, R136): the lanes of a row, the state after
each lane, and the same argument for the literals of a plane's first row and the deltas of the others. -/

namespace Sys2Proof.Machine

/-! ## The lanes of a row -/

/-- The address of the lane being decoded, `k` columns on from `COL`. -/
def State.laneAt (s : State) (k : Nat) : Nat := (s.planarIndex + k) * s.pb.toNat + s.planarLane

theorem State.laneAt_inj {s : State} {j k : Nat} (h : s.laneAt j = s.laneAt k) : j = k := by
  have columns : s.planarIndex + j = s.planarIndex + k :=
    Nat.eq_of_mul_eq_mul_right (PixelBytes.toNat_pos s.pb) (Nat.add_right_cancel h)
  omega

/-- The same lane of the pixel above, `k` columns on from `COL`. -/
def State.upLaneAt (s : State) (k : Nat) : Nat := (s.planarUpIndex + k) * s.pb.toNat + s.planarLane

/-- The row above is none of the row being decoded. -/
theorem State.upLaneAt_ne {s : State} {j k : Nat} (h : j < k) : s.upLaneAt k ≠ s.laneAt j := by
  intro same
  have columns : s.planarUpIndex + k = s.planarIndex + j :=
    Nat.eq_of_mul_eq_mul_right (PixelBytes.toNat_pos s.pb) (Nat.add_right_cancel same)
  have up : s.planarUpIndex = s.planarIndex + s.width := by
    simp only [State.planarUpIndex, State.planarIndex, Nat.succ_mul]
    omega
  omega

/-- The state `k` columns on, with the cursor, the running value and the buffer a run has come to. -/
def State.atLane (s : State) (k cur : Nat) (run : Int) (m : Memory) : State :=
  { s with cur := cur, col := s.col + k, run := run, pixels := m }

theorem State.planarIndex_atLane (s : State) (k cur : Nat) (run : Int) (m : Memory) :
    (s.atLane k cur run m).planarIndex = s.planarIndex + k :=
  (Nat.add_assoc _ _ _).symm

theorem State.planarUpIndex_atLane (s : State) (k cur : Nat) (run : Int) (m : Memory) :
    (s.atLane k cur run m).planarUpIndex = s.planarUpIndex + k :=
  (Nat.add_assoc _ _ _).symm

theorem putLane_atLane {s : State} {k : Nat} (row : s.krow < s.height) (col : s.col + k < s.width)
    (b : Byte) (cur : Nat) (run : Int) (m : Memory) :
    putLane b (s.atLane k cur run m) =
      .ok () (s.atLane (k + 1) cur run (m.write (s.laneAt k) b)) := by
  have inside : (s.atLane k cur run m).planarIndex < (s.atLane k cur run m).area :=
    planarIndex_lt (s := s.atLane k cur run m) row col
  rw [putLane, memWriteLane_ok _ _ inside, Eff.andThen_ok, State.planarIndex_atLane]
  rfl

/-! ## Both modes as one -/

/-- The turn of a run in the row mode of `s` (43_planar_engine.md R128). -/
def State.runTurn (s : State) : State → Eff Unit := if s.krow = 0 then literalTurn else deltaTurn

/-- The repeat of a run in the row mode of `s`. -/
def State.runRepeat (s : State) : State → Eff Unit := if s.krow = 0 then literalRepeat else deltaRepeat

/-- The running value a data byte sets in the row mode of `s`. -/
def State.decoded (s : State) (b : Byte) : Int := if s.krow = 0 then b.toNat else deltaValue b

/-- The byte a lane becomes, `k` columns on, under a running value. -/
def State.laneByte (s : State) (k : Nat) (run : Int) : Byte :=
  if s.krow = 0 then BitVec.ofInt 8 run else addDelta (s.pixelByte (s.upLaneAt k)) run

theorem runControl_inRow {s : State} (inRow : s.col + s.collen + s.replen ≤ s.width) :
    runControl s = (repeatTimes s.runTurn s.collen s).andThen fun _ t =>
      repeatTimes s.runRepeat t.replen t := by
  rw [runControl, if_neg (Nat.not_lt.mpr inRow), State.runTurn, State.runRepeat]
  split
  · rfl
  · rfl

/-- A turn reads its byte, and is then a repeat of the value the byte sets. -/
theorem State.runTurn_eq {s u : State} (held : u.cur < u.inLen) :
    s.runTurn u = s.runRepeat ((u.advance 1).setRun (s.decoded (u.inByte u.cur))) := by
  unfold State.runTurn State.runRepeat State.decoded
  split
  · have literal : BitVec.ofInt 8 ((u.inByte u.cur).toNat : Int) = u.inByte u.cur := by simp
    rw [literalTurn, readByte_ok held, Eff.andThen_ok, literalRepeat, State.setRun_run, literal]
  · rw [deltaTurn, readByte_ok held, Eff.andThen_ok, deltaRepeat]

theorem State.runTurn_short {s u : State} (atEnd : u.inLen ≤ u.cur) :
    s.runTurn u = .failed (u.failEntry .streamUnderrun u.orderStart) := by
  have read := readByte_underrun atEnd
  unfold State.runTurn
  split
  · rw [literalTurn, read, Eff.andThen_failed]
  · rw [deltaTurn, read, Eff.andThen_failed]

section
variable {s : State}

/-- A repeat writes the lane it stands at, where the row above is as it was. -/
theorem State.runRepeat_atLane {k : Nat} (row : s.krow < s.height) (col : s.col + k < s.width)
    {cur : Nat} {run : Int} {m : Memory} (above : m.read (s.upLaneAt k) = s.pixels.read (s.upLaneAt k)) :
    s.runRepeat (s.atLane k cur run m) =
      .ok () (s.atLane (k + 1) cur run (m.write (s.laneAt k) (s.laneByte k run))) := by
  unfold State.runRepeat State.laneByte
  split
  · exact putLane_atLane row col _ cur run m
  · next later =>
    have inside : (s.atLane k cur run m).planarUpIndex < (s.atLane k cur run m).area :=
      planarUpIndex_lt (s := s.atLane k cur run m) later row col
    have up : (s.atLane k cur run m).pixelByte (s.upLaneAt k) = s.pixelByte (s.upLaneAt k) :=
      congrArg (Option.getD · _) above
    rw [deltaRepeat, putDelta, memReadLane_ok _ inside, Eff.andThen_ok, State.planarUpIndex_atLane, ← up]
    exact putLane_atLane row col _ cur run m

/-! ## The state after each lane -/

/-- The running value after `n` data bytes of a run (decision D14). -/
def State.runAfter (s : State) (n : Nat) : Int :=
  if n = 0 then s.run else s.decoded (s.inByte (s.cur + (n - 1)))

/-- The state after `k` lanes of a run that reads `c` bytes. -/
def State.ranTo (s : State) (c k : Nat) (m : Memory) : State :=
  s.atLane k (s.cur + min k c) (s.runAfter (min k c)) m

/-- The byte of lane `k` of a run that reads `c` bytes. -/
def State.runByte (s : State) (c k : Nat) : Byte := s.laneByte k (s.runAfter (min (k + 1) c))

theorem State.ranTo_zero (s : State) (c : Nat) : s.ranTo c 0 s.pixels = s := by
  simp [State.ranTo, State.atLane, State.runAfter]

variable {c k n : Nat} {m : Memory}

/-- The lanes written so far are none of the row above. -/
theorem WroteLanes.above {v : Nat → Byte} (h : WroteLanes s (s.ranTo c k m) k v) :
    m.read (s.upLaneAt k) = s.pixels.read (s.upLaneAt k) :=
  h.2 _ fun _ less => State.upLaneAt_ne less

/-- One more lane. -/
theorem WroteLanes.write {v : Nat → Byte} (h : WroteLanes s (s.ranTo c k m) k v) :
    WroteLanes s (s.ranTo c (k + 1) (m.write (s.laneAt k) (v k))) (k + 1) v := by
  obtain ⟨new, old⟩ := h
  constructor
  · intro j less
    by_cases last : j = k
    · rw [last]
      exact Memory.read_write_self ..
    · exact (Memory.read_write_ne _ _ fun same => last (State.laneAt_inj same)).trans (new j (by omega))
  · intro a other
    exact (Memory.read_write_ne _ _ (other k k.lt_succ_self)).trans
      (old a fun j less => other j (Nat.lt_succ_of_lt less))

/-- The turn of a lane with a data byte. -/
theorem State.runTurn_ranTo (row : s.krow < s.height) (col : s.col + k < s.width) (data : k < c)
    (held : s.cur + k < s.inLen) (wrote : WroteLanes s (s.ranTo c k m) k (s.runByte c)) :
    s.runTurn (s.ranTo c k m) =
      .ok () (s.ranTo c (k + 1) (m.write (s.laneAt k) (s.runByte c k))) := by
  have here : min k c = k := by omega
  have next : min (k + 1) c = k + 1 := by omega
  have byte : s.runAfter (k + 1) = s.decoded (s.inByte (s.cur + k)) := rfl
  have cur : (s.ranTo c k m).cur = s.cur + k := congrArg (s.cur + ·) here
  have turned := s.runRepeat_atLane row col (cur := s.cur + (k + 1)) (run := s.runAfter (k + 1)) wrote.above
  rw [State.runTurn_eq (by rw [cur]; exact held), cur, State.ranTo, State.ranTo, State.runByte, here, next]
  exact turned

/-- The turn of a lane past the data. -/
theorem State.runRepeat_ranTo (row : s.krow < s.height) (col : s.col + k < s.width) (past : c ≤ k)
    (wrote : WroteLanes s (s.ranTo c k m) k (s.runByte c)) :
    s.runRepeat (s.ranTo c k m) =
      .ok () (s.ranTo c (k + 1) (m.write (s.laneAt k) (s.runByte c k))) := by
  have here : min k c = c := by omega
  have next : min (k + 1) c = c := by omega
  rw [State.ranTo, State.ranTo, State.runByte, here, next]
  exact s.runRepeat_atLane row col wrote.above

/-- `n` turns that each write the next lane. -/
theorem repeatTimes_lanes {turn : State → Eff Unit}
    (turns : ∀ j m, k ≤ j → j < k + n → WroteLanes s (s.ranTo c j m) j (s.runByte c) →
      turn (s.ranTo c j m) = .ok () (s.ranTo c (j + 1) (m.write (s.laneAt j) (s.runByte c j))))
    (wrote : WroteLanes s (s.ranTo c k m) k (s.runByte c)) :
    ∃ m', repeatTimes turn n (s.ranTo c k m) = .ok () (s.ranTo c (k + n) m') ∧
      WroteLanes s (s.ranTo c (k + n) m') (k + n) (s.runByte c) := by
  induction n generalizing k m with
  | zero => exact ⟨m, rfl, wrote⟩
  | succ n ih =>
    obtain ⟨m', runs, wrote'⟩ := ih (k := k + 1) (m := m.write (s.laneAt k) (s.runByte c k))
      (fun j m low high => turns j m (by omega) (by omega)) wrote.write
    rw [show k + 1 + n = k + (n + 1) by omega] at runs wrote'
    refine ⟨m', ?_, wrote'⟩
    rw [repeatTimes, turns k m (Nat.le_refl k) (by omega) wrote, Eff.andThen_ok, runs]

/-- The data of a run, as far as the stream holds it. -/
theorem State.data_comes (row : s.krow < s.height) (less : n ≤ c) (col : s.col + n ≤ s.width)
    (held : s.cur + n ≤ s.inLen) :
    ∃ m, repeatTimes s.runTurn n s = .ok () (s.ranTo c n m) ∧
      WroteLanes s (s.ranTo c n m) n (s.runByte c) := by
  have none_ : WroteLanes s (s.ranTo c 0 s.pixels) 0 (s.runByte c) :=
    ⟨fun _ less => absurd less (Nat.not_lt_zero _), fun _ _ => rfl⟩
  obtain ⟨m, runs, wrote⟩ := repeatTimes_lanes (n := n) (turn := s.runTurn)
    (fun j m _ high wrote => s.runTurn_ranTo row (by omega) (by omega) (by omega) wrote) none_
  rw [State.ranTo_zero] at runs
  rw [Nat.zero_add] at runs wrote
  exact ⟨m, runs, wrote⟩

/-- A run within its row whose data the stream holds. -/
theorem runControl_comes (row : s.krow < s.height) (inRow : s.col + s.collen + s.replen ≤ s.width)
    (held : s.cur + s.collen ≤ s.inLen) :
    ∃ m, runControl s = .ok () (s.ranTo s.collen (s.collen + s.replen) m) ∧
      WroteLanes s (s.ranTo s.collen (s.collen + s.replen) m) (s.collen + s.replen)
        (s.runByte s.collen) := by
  obtain ⟨m, data, wrote⟩ := s.data_comes row (Nat.le_refl s.collen) (by omega) held
  obtain ⟨m', repeats, wrote'⟩ := repeatTimes_lanes (n := s.replen) (turn := s.runRepeat)
    (fun j m low high wrote => s.runRepeat_ranTo row (by omega) low wrote) wrote
  refine ⟨m', ?_, wrote'⟩
  rw [runControl_inRow inRow, data, Eff.andThen_ok]
  exact repeats

end

/-! ## The statements of the runs -/

/-- A control byte is the run of its two lengths. -/
theorem exec_control_eq {i : Instr} {c r : Nat} (place : i.ctx = .control)
    (lengths : planarCtrl (controlByte i) = (c, r)) {s : State} (phase : s.phase = .planar)
    (pb : s.pb = .four) :
    exec i s = (runControl { s with collen := c, replen := r }).outcome := by
  have latched : s.latchRun (controlByte i) = { s with collen := c, replen := r } := by
    rw [State.latchRun, lengths]
  rw [exec_control place, inPlanar_eq phase pb, latched]

/-- What the two modes share: the registers of a complete run, and the lanes it wrote. -/
theorem exec_control_completes {i : Instr} {c r : Nat} (place : i.ctx = .control)
    (lengths : planarCtrl (controlByte i) = (c, r)) {s : State} (ok : s.PlanarOk)
    (inRow : s.col + c + r ≤ s.width) (held : s.cur + c ≤ s.inLen) :
    ∃ t, exec i s = .next t ∧
      t = { s with
        collen := c, replen := r, cur := s.cur + c, col := s.col + c + r, run := s.runAfter c
        pixels := t.pixels } ∧
      WroteLanes s t (c + r) (s.runByte c) := by
  obtain ⟨phase, pb, _, _, row, _⟩ := ok
  obtain ⟨m, runs, wrote⟩ := runControl_comes (s := { s with collen := c, replen := r }) row inRow held
  refine ⟨_, (exec_control_eq place lengths phase pb).trans (congrArg Eff.outcome runs), ?_, wrote⟩
  have all : min (c + r) c = c := by omega
  simp only [State.ranTo, all, State.atLane, Nat.add_assoc]
  rfl

theorem WroteLanes.congr {s t : State} {n : Nat} {v w : Nat → Byte} (h : WroteLanes s t n v)
    (same : ∀ k, v k = w k) : WroteLanes s t n w := by
  rwa [← funext same]

/-- The running value a lane of a run is under: its own data byte's, or the last one's. -/
theorem State.runAfter_lane (s : State) (c k : Nat) :
    s.runAfter (min (k + 1) c) = if k < c then s.decoded (s.inByte (s.cur + k)) else s.runAfter c := by
  split
  · rw [show min (k + 1) c = k + 1 by omega]
    rfl
  · rw [show min (k + 1) c = c by omega]

/-- Settles O44: in the first row's mode a data byte is the running value itself. -/
theorem literalRuns : Obligations.LiteralRuns := by
  intro i c r place lengths s ok first inRow held
  have decoded : ∀ b, s.decoded b = b.toNat := fun b => if_pos first
  obtain ⟨t, next, eq, wrote⟩ := exec_control_completes place lengths ok inRow held
  have run : t.run = s.runAfter c := by rw [eq]
  refine ⟨t, next, eq.trans ?_, wrote.congr fun k => ?_⟩
  · simp only [State.runAfter, decoded]
  · rw [State.runByte, State.laneByte, if_pos first, State.runAfter_lane, run]
    split
    · rw [decoded]
      simp
    · rfl

/-- Settles O45: on a later row a data byte is a delta, added to the lane of the row above. -/
theorem deltaRuns : Obligations.DeltaRuns := by
  intro i c r place lengths s ok later inRow held
  have decoded : ∀ b, s.decoded b = deltaValue b := fun b => if_neg later
  have four : s.pb.toNat = 4 := by
    obtain ⟨_, pb, _⟩ := ok
    rw [pb]
    rfl
  obtain ⟨t, next, eq, wrote⟩ := exec_control_completes place lengths ok inRow held
  have run : t.run = s.runAfter c := by rw [eq]
  refine ⟨t, next, eq.trans ?_, wrote.congr fun k => ?_⟩
  · simp only [State.runAfter, decoded]
  · rw [State.runByte, State.laneByte, if_neg later, State.runAfter_lane, addDelta_eq, State.upLaneAt, four,
      run, decoded]

/-! ## A run the stream does not hold -/

/-- A repetition one of whose turns fails ends in that failure. -/
theorem repeatTimes_stops {turn : State → Eff Unit} {s u v : State} {k n : Nat} (less : k < n)
    (comes : repeatTimes turn k s = .ok () u) (failed : turn u = .failed v) :
    repeatTimes turn n s = .failed v := by
  induction k generalizing s n with
  | zero =>
    obtain ⟨rest, rfl⟩ := Nat.exists_eq_succ_of_ne_zero (by omega : n ≠ 0)
    cases comes
    rw [repeatTimes, failed, Eff.andThen_failed]
  | succ k ih =>
    obtain ⟨rest, rfl⟩ := Nat.exists_eq_succ_of_ne_zero (by omega : n ≠ 0)
    rw [repeatTimes] at comes
    obtain ⟨_, w, turned, comes⟩ := Eff.andThen_eq_ok comes
    rw [repeatTimes, turned, Eff.andThen_ok, ih (Nat.lt_of_succ_lt_succ less) comes]

/-- A planar instruction that fails answers the failure at its control byte. -/
theorem exec_planar_failed {i : Instr} (place : i.ctx ≠ .scan) {s t : State} (next : exec i s = .next t)
    (failed : t.phase = .failed) : t.errPos = s.orderStart ∧ t.outLen = 0 ∧ t.out = s.out := by
  obtain ⟨phase, _, frame | ⟨u, e, frame, rfl⟩⟩ := exec_planar_next place next
  · have same : t.phase = s.phase := by
      rw [frame.same]
      rfl
    rw [same, phase] at failed
    cases failed
  · have out : u.out = s.out := by
      rw [frame.same]
      rfl
    exact ⟨rfl, rfl, out⟩

/-- A run within its row whose data the stream does not hold. -/
theorem runControl_short {s : State} (row : s.krow < s.height)
    (inRow : s.col + s.collen + s.replen ≤ s.width) (cur : s.cur ≤ s.inLen)
    (short : s.inLen < s.cur + s.collen) : ∃ v, runControl s = .failed v ∧ EndsShort s.inLen v := by
  obtain ⟨m, comes, _⟩ := s.data_comes (c := s.collen) (n := s.inLen - s.cur) row (by omega) (by omega)
    (by omega)
  have atEnd : (s.ranTo s.collen (s.inLen - s.cur) m).cur = s.inLen := by
    show s.cur + min (s.inLen - s.cur) s.collen = s.inLen
    omega
  have failed := s.runTurn_short (u := s.ranTo s.collen (s.inLen - s.cur) m) atEnd.ge
  have ends := repeatTimes_stops (n := s.collen) (by omega) comes failed
  exact ⟨_, (runControl_inRow inRow).trans (Eff.andThen_of_failed ends _), rfl, rfl, atEnd⟩

/-- Settles O47: the run comes to the end of the stream, and the read of the next byte fails. -/
theorem planarUnderruns : Obligations.PlanarUnderruns := by
  intro i c r place lengths s ok inRow cur short
  obtain ⟨phase, pb, _, _, row, _⟩ := ok
  obtain ⟨v, failed, failedPhase, status, atEnd⟩ :=
    runControl_short (s := { s with collen := c, replen := r }) row inRow cur short
  have next := (exec_control_eq place lengths phase pb).trans (congrArg Eff.outcome failed)
  obtain ⟨errPos, outLen, out⟩ := exec_planar_failed (by rw [place]; decide) next failedPhase
  exact ⟨v, next, failedPhase, status, errPos, outLen, out, atEnd⟩

end Sys2Proof.Machine
end
